-- ==== Sys2Proof/Word.lean ====
section
/-!
DEFINITION. The types every other file of the model speaks in: the 32-bit port word (R10, R81), the two command ports
(R8), the three algorithm banks (R180, R220, R250), and NUM, the number type of the signal path (R11).
-/

namespace Sys2Proof

/-- One port word: every transfer on `CMD`, `CTL`, `OUT`, `RSP` and `CRSP` is one of these (R81, R85). -/
abbrev Word := BitVec 32

/-- One byte of a byte transport (R81). -/
abbrev Byte := BitVec 8

/-- The two command ports: `CMD` of the audio agent, `CTL` of the control agent (R8). -/
inductive Port
  | cmd
  | ctl
deriving DecidableEq, Repr

/-- The three banks whose algorithms a profile selects by code (R121, R122, R123). -/
inductive Bank
  | wave
  | effect
  | filter
deriving DecidableEq, Repr

/-- A NUM value (R11).
A finite value is a sign and a magnitude counted in the units of the number format (`Format`, Machine/Num.lean), and `fin true 0` is `−0.0`.
At the spec's default, IEEE-754 binary64, the unit is `2^−1074`, the least positive number, so that every finite value has exactly one such form;
which magnitudes are binary64 numbers is said by `NUM.wf` (Machine/Num.lean).
There is one NaN: no rule reads a NaN's sign or payload inside the block (R84 leaves them open at the output). -/
inductive NUM
  | nan
  | inf (neg : Bool)
  | fin (neg : Bool) (mag : Nat)
deriving DecidableEq, Repr, Inhabited

/-- `+0.0`. -/
def NUM.zero : NUM := .fin false 0

end Sys2Proof
end

