-- ==== Sys2Proof/Config.lean ====
section
/-!
DEFINITION. What the spec leaves free, and what an instance of the block fixes outside its rules.
Every `opaque` here has no body: nothing can evaluate it, so a claim about the model holds whatever it is.
The OPEN parameters of R9 are fields of `Params` (Machine/Params.lean); the default depths, which the state after reset holds, are below.
-/

namespace Sys2Proof.Config

/-- Parameter `TRIG` (R9, R12, I15): `sin` on NUM, its result handed over as a binary64 pattern.
"A model assumes only that each is a total function of its NUM argument." Log entry 1. -/
opaque sinBits : NUM → BitVec 64

/-- Parameter `TRIG`: `cos` on NUM. Log entry 1. -/
opaque cosBits : NUM → BitVec 64

/-- Parameter `TRIG`: `tan` on NUM. Log entry 1. -/
opaque tanBits : NUM → BitVec 64

/-- Parameter `TRIG`: `pow2`, 2 raised to a NUM power (R12: "`TRIG` covers it too"). Log entry 1. -/
opaque pow2Bits : NUM → BitVec 64

/-- The integer the block takes where a rule converts a NaN or an infinity to an integer, which no rule states (R12, R15, R19).
Free value, log entry 2. -/
opaque integerOfNonFinite : NUM → Int

/-- The sign and payload of the `n`-th NaN word the block outputs: unspecified (R84, I2). Free value, log entry 3. -/
opaque nanBits : Nat → BitVec 24

/-- At the `n`-th step at which both ports have a command to perform, is it `CTL`'s turn?
The two streams are asynchronous and their interleaving is a draw (R96, R372, I9, I10, I11). Free value, log entry 4. -/
opaque ctlTurn : Nat → Bool

/-- Parameter `OUT_DEPTH` (R9, D45): unbounded. -/
def outDepth : Option Nat := none

/-- Parameter `RSP_DEPTH` (R9, D45): unbounded. -/
def rspDepth : Option Nat := none

/-- Parameter `CRSP_DEPTH` (R9, D45): unbounded. -/
def crspDepth : Option Nat := none

end Sys2Proof.Config
end

