-- ==== Sys2Proof/Machine/State.lean ====
section
/-!
DEFINITION. The state of the block as plain data: the registers of spec/10_state.md group by group (R30), the delay line (R88),
the streams (R65, R80), and the few fields of the model's own; and the machine right after power-on (R69, R390).
-/

namespace Sys2Proof.Machine

/-- The voice state machine (R32). -/
inductive VState
  | silent
  | sounding
  | releasing
deriving DecidableEq, Repr

/-- Seven NUM registers or values in index order: `PH_SS[0..6]` (R40), `SS_DETUNE` (R191). -/
structure Seven where
  v0 : NUM
  v1 : NUM
  v2 : NUM
  v3 : NUM
  v4 : NUM
  v5 : NUM
  v6 : NUM
deriving DecidableEq, Repr

/-- Four NUM registers in index order: `LAD[0..3]` (R50), `PHS[0..3]` (R51), `FMT[0..3]` (R53). -/
structure Four where
  v0 : NUM
  v1 : NUM
  v2 : NUM
  v3 : NUM
deriving DecidableEq, Repr

/-- One entry of the comb delay line that has been written since power-on: its index, `DL[index]` and `DL_VALID[index]` (R56). -/
structure DelayCell where
  index : Nat
  value : NUM
  valid : Bool
deriving DecidableEq, Repr

/-- The comb delay line, the one memory of the block that is written (R18, R80): the entries written since power-on, by rising index.
An entry that is not listed has `DL_VALID = 0` and contents nothing can read (R88, R391). -/
abbrev Memory := List DelayCell

/-- The voice state (R68): the registers of R32 to R56, which every voice reset resets together. -/
structure Voice where
  vstate    : VState
  active    : Option (Fin 128)
  vel       : NUM
  freq      : NUM
  env       : NUM
  ph        : NUM
  phSub     : NUM
  phFm      : NUM
  phSs      : Seven
  prng      : BitVec 32
  pink      : NUM
  crackleT  : Nat
  wobPh     : NUM
  glitchCnt : Nat
  harmPh    : NUM
  ringPh    : NUM
  grainPh   : NUM
  sweepLp   : NUM
  lad       : Four
  phs       : Four
  flfoPh    : NUM
  fmt       : Four
  rmfPh     : NUM
  rmfLp     : NUM
  dlW       : Nat
  dl        : Memory
deriving DecidableEq, Repr

/-- An output stream (R65): the words produced and not yet taken by the host, oldest first, and its depth (`OUT_DEPTH`, `RSP_DEPTH` or
`CRSP_DEPTH` of R9; none is unbounded). -/
structure Stream where
  words : List Word
  depth : Option Nat
deriving DecidableEq, Repr

/-- The values that pass between the stages of one tick (R294): `x0` from the wave to the effect, `x1` from the effect to the filter,
`x2` from the filter to the scaling, and the `GRAIN_RESET` wire (R64).
They are no registers: a tick leaves them idle (log entry 5). -/
structure Wires where
  x0         : NUM
  x1         : NUM
  x2         : NUM
  grainReset : Bool
deriving DecidableEq, Repr

/-- A selector code given to a bank by other means than a tick (R121, R123, I3; log entry 6). -/
structure Selector where
  bank : Bank
  code : Word
deriving DecidableEq, Repr

/-- The whole machine. `voice` to `crsp` are the spec's state; the rest is said at each field. -/
structure State where
  /-- the voice state (R68) -/
  voice      : Voice
  /-- the sample rate `FS` in Hz (R57) -/
  fs         : NUM
  /-- `RATE_VALID` (R58) -/
  rateValid  : Bool
  /-- `DL_LEN` (R59) -/
  dlLen      : Nat
  /-- `GP` (R60) -/
  gp         : Nat
  /-- `KNOB`, a binary32 pattern (R61) -/
  knob       : Word
  /-- `KNOB_SNAP`, a binary32 pattern (R62) -/
  knobSnap   : Word
  /-- `ERR`, the five sticky flags (R63) -/
  err        : BitVec 5
  /-- `OUT` (R65) -/
  out        : Stream
  /-- `RSP` (R65) -/
  rsp        : Stream
  /-- `CRSP` (R65) -/
  crsp       : Stream
  /-- the words that have arrived on `CMD` and are not consumed, oldest first (R95, R320) -/
  cmd        : List Word
  /-- the words that have arrived on `CTL` and are not consumed, oldest first (R95, R320) -/
  ctl        : List Word
  /-- the ticks a RENDER still owes because a full `OUT` holds it (R399) -/
  renderLeft : Nat
  /-- the values inside a tick (R64, R294) -/
  wires      : Wires
  /-- a selector code given by other means than a tick (R121; the model's own, log entry 6) -/
  handed     : Option Selector
  /-- how many NaN words have taken a free sign and payload (the model's own, log entry 3) -/
  draws      : Nat
  /-- how many steps have found both ports ready (the model's own, log entry 4) -/
  turns      : Nat
deriving DecidableEq, Repr

/-- Why a step stops with a fault. There is no reason: the block raises no trap, fault or exception (R360), and an error sets a flag. -/
inductive Fault
deriving DecidableEq, Repr

/-- Why a step has no meaning. -/
inductive Refusal
  /-- Raised by `exec`'s arm of an instruction that has no meaning in this model; safe, and no arm does. -/
  | notModelled (mnemonic : String)
  /-- Raised by `step` when a bank is handed a reserved selector code (R121, R123: "a model that is handed one by other means must refuse it").
  Safe: no tick can meet one, and the block with it stops. -/
  | reservedSelector (bank : Bank) (code : Word)
deriving DecidableEq, Repr

/-- The voice registers after a voice reset, from the column "after voice reset" of R69; the delay line is the caller's (R299). -/
def Voice.silentWith (dl : Memory) : Voice where
  vstate := .silent
  active := none
  vel := .zero
  freq := .zero
  env := .zero
  ph := .zero
  phSub := .zero
  phFm := .zero
  phSs := ⟨.zero, .zero, .zero, .zero, .zero, .zero, .zero⟩
  prng := 0
  pink := .zero
  crackleT := 0
  wobPh := .zero
  glitchCnt := 0
  harmPh := .zero
  ringPh := .zero
  grainPh := .zero
  sweepLp := .zero
  lad := ⟨.zero, .zero, .zero, .zero⟩
  phs := ⟨.zero, .zero, .zero, .zero⟩
  flfoPh := .zero
  fmt := ⟨.zero, .zero, .zero, .zero⟩
  rmfPh := .zero
  rmfLp := .zero
  dlW := 0
  dl := dl

/-- The wires between ticks. -/
def Wires.idle : Wires := ⟨.zero, .zero, .zero, false⟩

/-- The machine right after power-on (R69, R390): every register at its "power-on / RESET" value, the streams empty, both ports at a
command boundary with nothing arrived. -/
def State.reset : State where
  voice := Voice.silentWith []
  fs := .zero
  rateValid := false
  dlLen := 1
  gp := 0
  knob := 0
  knobSnap := 0
  err := 0
  out := ⟨[], Config.outDepth⟩
  rsp := ⟨[], Config.rspDepth⟩
  crsp := ⟨[], Config.crspDepth⟩
  cmd := []
  ctl := []
  renderLeft := 0
  wires := Wires.idle
  handed := none
  draws := 0
  turns := 0

end Sys2Proof.Machine
end

