-- ==== Sys2Proof/Machine/Flags.lean ====
section
/-!
DEFINITION. The error flags of `ERR` (R63, R361), how a cause raises one (R18, R360, R368), and the status word (R126).
This is all the block has of an exception: raising a flag is the shared operation every error cause uses, and nothing is entered or returned
from (R360, R370).
-/

namespace Sys2Proof.Machine

/-- The five error flags (R63). -/
inductive ErrFlag
  | illegal
  | badRate
  | noRate
  | badNote
  | illegalCtl
deriving DecidableEq, Repr

/-- The cause code: the flag's bit number in `ERR` (R361). -/
def ErrFlag.code : ErrFlag → Nat
  | .illegal => 0
  | .badRate => 1
  | .noRate => 2
  | .badNote => 3
  | .illegalCtl => 4

/-- `ERR` with the bit of one flag alone. -/
def ErrFlag.mask (f : ErrFlag) : BitVec 5 := 1#5 <<< f.code

/-- Is the flag set? -/
def errSet (err : BitVec 5) (f : ErrFlag) : Bool := err.getLsbD f.code

/-- `raise ERR_X`: the flag is set by an OR, so no other flag changes (R18, R368, R372). -/
def State.raise (f : ErrFlag) (s : State) : State := { s with err := s.err ||| f.mask }

/-- The flag an illegal command of a port raises (R117, R118). -/
def illegalFlag : Port → ErrFlag
  | .cmd => .illegal
  | .ctl => .illegalCtl

/-- The code of the voice state in the status word (R32, R126). -/
def VState.code : VState → Nat
  | .silent => 0
  | .sounding => 1
  | .releasing => 2

/-- The status word: `VSTATE | RATE_VALID << 2 | (ACTIVE or 0xFF) << 8 | ERR << 16` (R126, R329). -/
def statusWord (s : State) : Word :=
  BitVec.ofNat 32 s.voice.vstate.code
    ||| (BitVec.ofNat 32 (if s.rateValid then 1 else 0) <<< 2)
    ||| (BitVec.ofNat 32 (match s.voice.active with | none => 0xFF | some n => n.val) <<< 8)
    ||| (s.err.zeroExtend 32 <<< 16)

end Sys2Proof.Machine
end

