-- ==== Sys2Proof/Machine/Num.lean ====
section
/-!
DEFINITION. NUM arithmetic. The number format and its rounding are the OPEN parameter `NUM` (R9, I14): a `Format`, which every operation of R11 to
R17 takes as an argument. The default is `binary64`, round to nearest with ties to even and no fused operation (R11); the operations on it have short
names in `NUM`.
Each operation computes its exact result on integers first and rounds once at the end.
The operations and the large powers of two are marked irreducible, so that no proof unfolds one by accident: a proof that means to says `unfold` or
gives the name to `simp`, and the kernel evaluates them all the same.
-/

namespace Sys2Proof

/-- The bits below the binary point: the least positive binary64 number is `2^−1074`. -/
@[irreducible] def NUM.scale : Nat := 1074

/-- The value 1.0 counted in units of `2^−1074`. -/
@[irreducible] def NUM.unit : Nat := 2 ^ NUM.scale

/-- The exponent of `2^1024` in units of `2^−1074`. -/
@[irreducible] def NUM.topScale : Nat := 2098

/-- `2^1024` in units of `2^−1074`: a rounded magnitude that reaches it is an infinity. -/
@[irreducible] def NUM.top : Nat := 2 ^ NUM.topScale

/-- The rational `p / q` rounded to the nearest multiple of its own last place, ties to even, where a value below `2^prec`
has last place 1 and each doubling above that doubles the last place.
With `prec = 53` and units of `2^−1074` this is binary64, subnormals included; with `prec = 24` and units of `2^−149` it is
binary32. -/
@[irreducible] def NUM.roundTo (prec p q : Nat) : Nat :=
  let ulp := 2 ^ (Nat.log2 (p / q) + 1 - prec)
  let lo := p / (q * ulp)
  let rem := p % (q * ulp)
  let up := q * ulp < 2 * rem ∨ (2 * rem = q * ulp ∧ lo % 2 = 1)
  (if up then lo + 1 else lo) * ulp

/-- The NUM value of sign `neg` nearest to `p / q` units, an infinity when it reaches `2^1024`. -/
@[irreducible] def NUM.finish (neg : Bool) (p q : Nat) : NUM :=
  let m := NUM.roundTo 53 p q
  if NUM.top ≤ m then .inf neg else .fin neg m

/-- The signed magnitude of a finite value. -/
def NUM.signed (neg : Bool) (mag : Nat) : Int := if neg then -(mag : Int) else mag

/-- Is it a binary64 value? A finite one is when rounding leaves it alone and it lies below `2^1024`. -/
def NUM.wf : NUM → Bool
  | .nan => true
  | .inf _ => true
  | .fin _ m => NUM.roundTo 53 m 1 == m && decide (m < NUM.top)

/-- Neither NaN nor an infinity. -/
def NUM.isFinite : NUM → Bool
  | .fin _ _ => true
  | _ => false

/-- Negation: the sign bit is inverted. -/
def NUM.neg : NUM → NUM
  | .nan => .nan
  | .inf s => .inf (!s)
  | .fin s m => .fin (!s) m

/-- `abs(x)` (R12). -/
def NUM.abs : NUM → NUM
  | .nan => .nan
  | .inf _ => .inf false
  | .fin _ m => .fin false m

/-- `a < b`: false when either is NaN, and `−0.0` equals `+0.0`. -/
@[irreducible] def NUM.lt : NUM → NUM → Bool
  | .nan, _ => false
  | _, .nan => false
  | .inf s, .inf t => s && !t
  | .inf s, .fin _ _ => s
  | .fin _ _, .inf t => !t
  | .fin s m, .fin t n => decide (NUM.signed s m < NUM.signed t n)

/-- `a ≤ b`: false when either is NaN. -/
@[irreducible] def NUM.le : NUM → NUM → Bool
  | .nan, _ => false
  | _, .nan => false
  | .inf s, .inf t => s || !t
  | .inf s, .fin _ _ => s
  | .fin _ _, .inf t => !t
  | .fin s m, .fin t n => decide (NUM.signed s m ≤ NUM.signed t n)

/-- Is it zero, of either sign? -/
def NUM.isZero : NUM → Bool
  | .fin _ m => m == 0
  | _ => false

/-- `min(a, b)`; a NaN argument gives the other (R12). -/
@[irreducible] def NUM.min (a b : NUM) : NUM :=
  if a = .nan then b else if b = .nan then a else if b.lt a then b else a

/-- `max(a, b)`; a NaN argument gives the other (R12). -/
@[irreducible] def NUM.max (a b : NUM) : NUM :=
  if a = .nan then b else if b = .nan then a else if a.lt b then b else a

/-- `clamp(x, lo, hi)`: NaN gives `lo` (R16). -/
@[irreducible] def NUM.clamp (x lo hi : NUM) : NUM :=
  if x = .nan || x.lt lo then lo else if hi.lt x then hi else x

/-! ### The parameter `NUM` -/

/-- A number format (parameter `NUM`, R9, R11, I14): the value 1.0 counted in the units of `NUM.fin`, and the rounding of every operation, which
takes the sign and the magnitude `p / q`, in units, of an exact result. -/
structure Format where
  unit  : Nat
  round : Bool → Nat → Nat → NUM

/-- The default: IEEE-754 binary64, round to nearest even (R9, R11). -/
def binary64 : Format := ⟨NUM.unit, NUM.finish⟩

/-- Another instance of the parameter: IEEE-754 binary32, in units of `2^−149`. -/
def binary32 : Format where
  unit := 2 ^ 149
  round neg p q :=
    let m := NUM.roundTo 24 p q
    if 2 ^ 277 ≤ m then .inf neg else .fin neg m

/-- An integer used as a NUM operand (R11: "converted exactly first", and every such integer is below `2^53`, R19). -/
@[irreducible] def Format.ofInt (F : Format) (z : Int) : NUM := F.round (decide (z < 0)) (z.natAbs * F.unit) 1

/-- The NUM value nearest to the decimal or fraction `p / q` (R11). -/
@[irreducible] def Format.ofRatio (F : Format) (p q : Nat) : NUM := F.round false (p * F.unit) q

/-- The integer `n` as a NUM literal (R11). -/
@[irreducible] def Format.lit (F : Format) (n : Nat) : NUM := F.ofRatio n 1

/-- The decimal `p / q` as a NUM literal (R11). -/
@[irreducible] def Format.dec (F : Format) (p q : Nat) : NUM := F.ofRatio p q

/-- `1.0`. -/
def Format.one (F : Format) : NUM := .fin false F.unit

/-- `a + b`, rounded once (R11). An exact zero sum is `+0.0` unless both operands are `−0.0`, as IEEE-754 says for round to nearest. -/
@[irreducible] def Format.add (F : Format) : NUM → NUM → NUM
  | .nan, _ => .nan
  | _, .nan => .nan
  | .inf s, .inf t => if s = t then .inf s else .nan
  | .inf s, .fin _ _ => .inf s
  | .fin _ _, .inf t => .inf t
  | .fin s m, .fin t n =>
    let z := NUM.signed s m + NUM.signed t n
    if z = 0 then .fin (s && t) 0 else F.round (decide (z < 0)) z.natAbs 1

/-- `a − b`, rounded once (R11). -/
@[irreducible] def Format.sub (F : Format) (a b : NUM) : NUM := F.add a b.neg

/-- `a × b`, rounded once (R11). -/
@[irreducible] def Format.mul (F : Format) : NUM → NUM → NUM
  | .nan, _ => .nan
  | _, .nan => .nan
  | .inf s, .inf t => .inf (s != t)
  | .inf s, .fin t n => if n = 0 then .nan else .inf (s != t)
  | .fin s m, .inf t => if m = 0 then .nan else .inf (s != t)
  | .fin s m, .fin t n => F.round (s != t) (m * n) F.unit

/-- `a ÷ b`, rounded once (R11). -/
@[irreducible] def Format.div (F : Format) : NUM → NUM → NUM
  | .nan, _ => .nan
  | _, .nan => .nan
  | .inf _, .inf _ => .nan
  | .inf s, .fin t _ => .inf (s != t)
  | .fin s _, .inf t => .fin (s != t) 0
  | .fin s m, .fin t n =>
    if n = 0 then (if m = 0 then .nan else .inf (s != t))
    else F.round (s != t) (m * F.unit) n

/-- The integer `floor(x)` of a finite `x` (R12); none for NaN and the infinities, which have no integer part. -/
def Format.floorInt? (F : Format) : NUM → Option Int
  | .fin s m => some (NUM.signed s m / (F.unit : Int))
  | _ => none

/-- The integer `trunc(x)` of a finite `x`: toward zero (R12). -/
def Format.truncInt? (F : Format) : NUM → Option Int
  | .fin s m => some (NUM.signed s (m / F.unit))
  | _ => none

/-- The integer `rha(x)` of a finite `x`: nearest, halves away from zero (R15). -/
def Format.rhaInt? (F : Format) : NUM → Option Int
  | .fin s m => some (NUM.signed s (if F.unit ≤ 2 * (m % F.unit) then m / F.unit + 1 else m / F.unit))
  | _ => none

/-- `floor(x)` as a NUM value (R12). A NaN and an infinity pass through (D48), and a zero keeps its sign. -/
@[irreducible] def Format.floor (F : Format) (x : NUM) : NUM :=
  match x with
  | .fin s m =>
    let z := NUM.signed s m / (F.unit : Int)
    if z = 0 then .fin s 0 else F.ofInt z
  | x => x

/-- `rha(x)` used as a NUM operand (R15, R19): the integer converted exactly; a NaN and an infinity pass through (D48). -/
@[irreducible] def Format.rha (F : Format) (x : NUM) : NUM :=
  match F.rhaInt? x with
  | some z => F.ofInt z
  | none => x

/-- `fr(x)`: the fractional part in [0, 1), 0.0 where the subtraction gives 1.0 or NaN (R13, D11). -/
@[irreducible] def Format.fr (F : Format) (x : NUM) : NUM :=
  let u := F.sub x (F.floor x)
  if u = .nan || F.one.le u then .zero else u

/-- `wrap(x) = x − floor(x)` (R14). -/
@[irreducible] def Format.wrap (F : Format) (x : NUM) : NUM := F.sub x (F.floor x)

/-- π as a decimal fraction, to a hundred places: far below the last place of every IEEE-754 format. -/
def piDigits : Nat :=
  31415926535897932384626433832795028841971693993751058209749445923078164062862089986280348253421170679

/-- `PI`: the NUM value nearest to π (R11). -/
def Format.pi (F : Format) : NUM := F.ofRatio piDigits (10 ^ 100)

/-- `TWO_PI`: the NUM value nearest to 2π (R11). -/
def Format.twoPi (F : Format) : NUM := F.ofRatio (2 * piDigits) (10 ^ 100)

/-- `num(b)`: the NUM value of a binary32 pattern, exact where the format holds it (R17). -/
@[irreducible] def Format.ofBits32 (F : Format) (b : Word) : NUM :=
  let neg := b.msb
  let e := b.toNat / 2 ^ 23 % 2 ^ 8
  let f := b.toNat % 2 ^ 23
  if e = 255 then (if f = 0 then .inf neg else .nan)
  else if e = 0 then F.round neg (f * F.unit) (2 ^ 149)
  else F.round neg ((2 ^ 23 + f) * 2 ^ (e - 1) * F.unit) (2 ^ 149)

/-- `2^128` in units of `2^−149`, as a power of two: where a magnitude is beyond binary32. -/
@[irreducible] def NUM.topBits32 : Nat := 277

/-- The binary32 pattern of sign `neg` whose magnitude is `r` units of `2^−149`, an infinity from `2^128` on. -/
@[irreducible] def NUM.pattern32 (neg : Bool) (r : Nat) : Word :=
  let sign := if neg then 2 ^ 31 else 0
  if 2 ^ NUM.topBits32 ≤ r then BitVec.ofNat 32 (sign + 255 * 2 ^ 23)
  else
    let k := Nat.log2 r - 23
    BitVec.ofNat 32 (sign + k * 2 ^ 23 + r / 2 ^ k)

/-- A binary32 NaN of free sign and payload: bit 23 of `free` is the sign, bits 22 to 0 the payload, with 1 for a zero payload,
so that the word is a NaN whatever `free` is and every NaN pattern is some `free` (R84, I2). -/
def NUM.nanPattern (free : BitVec 24) : Word :=
  let p := free.toNat % 2 ^ 23
  BitVec.ofNat 32 (free.toNat / 2 ^ 23 * 2 ^ 31 + 255 * 2 ^ 23 + (if p = 0 then 1 else p))

/-- `bits(f32(v))`: rounded to binary32, ties to even, an overflow to ±infinity; a NaN takes the free pattern given (R17, R84). -/
@[irreducible] def Format.bits32 (F : Format) (free : BitVec 24) : NUM → Word
  | .nan => NUM.nanPattern free
  | .inf s => NUM.pattern32 s (2 ^ NUM.topBits32)
  | .fin s m => NUM.pattern32 s (NUM.roundTo 24 (m * 2 ^ 149) F.unit)

/-! ### The operations at the default format, by their short names -/

/-- `1.0` in binary64. -/
abbrev NUM.one : NUM := binary64.one
/-- An integer in binary64. -/
abbrev NUM.ofInt (z : Int) : NUM := binary64.ofInt z
/-- A fraction in binary64. -/
abbrev NUM.ofRatio (p q : Nat) : NUM := binary64.ofRatio p q
/-- `a + b` in binary64. -/
abbrev NUM.add (a b : NUM) : NUM := binary64.add a b
/-- `a − b` in binary64. -/
abbrev NUM.sub (a b : NUM) : NUM := binary64.sub a b
/-- `a × b` in binary64. -/
abbrev NUM.mul (a b : NUM) : NUM := binary64.mul a b
/-- `a ÷ b` in binary64. -/
abbrev NUM.div (a b : NUM) : NUM := binary64.div a b
/-- The integer `floor(x)` in binary64. -/
abbrev NUM.floorInt? (x : NUM) : Option Int := binary64.floorInt? x
/-- The integer `trunc(x)` in binary64. -/
abbrev NUM.truncInt? (x : NUM) : Option Int := binary64.truncInt? x
/-- The integer `rha(x)` in binary64. -/
abbrev NUM.rhaInt? (x : NUM) : Option Int := binary64.rhaInt? x
/-- `floor(x)` in binary64. -/
abbrev NUM.floor (x : NUM) : NUM := binary64.floor x
/-- `rha(x)` in binary64. -/
abbrev NUM.rha (x : NUM) : NUM := binary64.rha x
/-- `fr(x)` in binary64. -/
abbrev NUM.fr (x : NUM) : NUM := binary64.fr x
/-- `wrap(x)` in binary64. -/
abbrev NUM.wrap (x : NUM) : NUM := binary64.wrap x
/-- `PI` in binary64. -/
abbrev NUM.pi : NUM := binary64.pi
/-- `TWO_PI` in binary64. -/
abbrev NUM.twoPi : NUM := binary64.twoPi
/-- `num(b)` in binary64. -/
abbrev NUM.ofBits32 (b : Word) : NUM := binary64.ofBits32 b
/-- `bits(f32(v))` of a binary64 value. -/
abbrev NUM.bits32 (free : BitVec 24) (v : NUM) : Word := binary64.bits32 free v

/-! ### Powers of two, and how TRIG hands its results over -/

/-- The NUM value of a binary64 pattern: how a function of the parameter TRIG (R12) hands its result over. -/
@[irreducible] def NUM.ofBits64 (b : BitVec 64) : NUM :=
  let neg := b.msb
  let e := b.toNat / 2 ^ 52 % 2 ^ 11
  let f := b.toNat % 2 ^ 52
  if e = 2047 then (if f = 0 then .inf neg else .nan)
  else if e = 0 then .fin neg f
  else .fin neg ((2 ^ 52 + f) * 2 ^ (e - 1))

/-- `2^k` in binary64 for an integer `k`: exact where it is a binary64 number, else 0 or an infinity. -/
@[irreducible] def NUM.pow2Int (k : Int) : NUM :=
  if k < -1074 then .zero else if 1024 ≤ k then .inf false else .fin false (2 ^ (k + 1074).toNat)

/-- `x` kept between `2^⌊k⌋` and `2^⌈k⌉`: between these lies `pow2(k)`, which is "2 raised to the NUM power x, rounded to NUM" (R12), for a finite
`k`; at an integer the two are one value. -/
@[irreducible] def NUM.betweenPowers (k x : NUM) : NUM :=
  match k with
  | .fin s m => x.clamp (NUM.pow2Int (NUM.signed s m / NUM.unit)) (NUM.pow2Int (-((-NUM.signed s m) / NUM.unit)))
  | _ => x

end Sys2Proof
end

