-- ==== Sys2Proof/Machine/Params.lean ====
section
/-!
DEFINITION. The parameters of R9. The OPEN ones, which "a model must take … as an argument", are the fields of `Params`, and every operation
of the model takes a `Params`, as the machine of any parameters does (`machineWith`, Machine/Parametric.lean); `params` is the instance `step` runs,
at the spec's defaults, with TRIG free.
The values the document fixes (ground `src`) are plain constants of the number format.
-/

namespace Sys2Proof.Machine

/-- Parameter `PRNG` (R9, R188, I18): the noise generator on the 32-bit register of R41, with its seed for a note, its step, and the value of a draw
from the register's new state. -/
structure Generator where
  seed : Fin 128 → BitVec 32
  next : BitVec 32 → BitVec 32
  draw : BitVec 32 → NUM

/-- Parameter `TRIG`: `sin`, `cos`, `tan` and `pow2` on NUM (R9, R12). -/
structure Trig where
  sin  : NUM → NUM
  cos  : NUM → NUM
  tan  : NUM → NUM
  pow2 : NUM → NUM

/-- The seven continuous fields of a note profile (R86, R153). -/
structure Continuous where
  wobbleRate   : NUM
  glitchChance : NUM
  harmonicMix  : NUM
  ringModFreq  : NUM
  filterFreq   : NUM
  bitDepth     : NUM
  grainSize    : NUM
deriving DecidableEq, Repr

/-- A knob variant (R87, R155). -/
structure KnobVariant where
  amount    : NUM
  cutoff    : NUM
  resonance : NUM
deriving DecidableEq, Repr

/-- The two formant frequencies of a vowel, in Hz (R258). -/
structure Formants where
  f0 : NUM
  f1 : NUM
deriving DecidableEq, Repr

/-- Parameter `PORT_MAP` (R94, D7, I32): "the address at which a platform maps each port, if it maps them at all". -/
structure PortMap where
  cmd  : Option Nat
  ctl  : Option Nat
  out  : Option Nat
  rsp  : Option Nat
  crsp : Option Nat
deriving DecidableEq, Repr

/-- The default `PORT_MAP`: none, the ports are not memory-mapped. -/
def PortMap.unmapped : PortMap := ⟨none, none, none, none, none⟩

/-- The OPEN parameters of R9 and 92_eei_decisions.md §8, and the three free values a step can meet. -/
structure Params where
  /-- `NUM` (D8) -/
  num         : Format
  /-- `TRIG` (D8) -/
  trig        : Trig
  /-- the integer taken for a NaN or an infinity (free value, log entry 2) -/
  nonFinite   : NUM → Int
  /-- the sign and payload of the NaN words output (I2, free value, log entry 3) -/
  nanBits     : Nat → BitVec 24
  /-- at the `n`-th step at which both ports have a command to perform, is it `CTL`'s turn (I9, free value, log entry 4) -/
  ctlTurn     : Nat → Bool
  /-- `OUT_DEPTH` (D45); none is unbounded -/
  outDepth    : Option Nat
  /-- `RSP_DEPTH` (D45) -/
  rspDepth    : Option Nat
  /-- `CRSP_DEPTH` (D45) -/
  crspDepth   : Option Nat
  /-- `PORT_MAP` (D7) -/
  portMap     : PortMap
  /-- `DELAY_MAX` (D40) -/
  delayMax    : Nat
  /-- `RATE_MIN` in Hz (D40) -/
  rateMin     : NUM
  /-- `PROFILE_MAP`: the continuous fields from the seeds s1, s2, s3 (D9) -/
  profileMap  : NUM → NUM → NUM → Continuous
  /-- `KV_MAP`: the knob variant from the integer m = 128 × n + k (D10) -/
  kvMap       : Trig → NUM → KnobVariant
  /-- `RELEASE_S` in seconds (D13) -/
  releaseS    : NUM
  /-- `MASTER_AMP` (D13) -/
  masterAmp   : NUM
  /-- `PRNG` (D17) -/
  prng        : Generator
  /-- `SS_DETUNE` (D19) -/
  ssDetune    : Seven
  /-- `FM_INDEX` (D20) -/
  fmIndex     : NUM
  /-- `FM_RATIO` (D20) -/
  fmRatio     : NUM
  /-- `SUB_RATIO` (D21) -/
  subRatio    : NUM
  /-- `GLITCH_SPLIT` (D24) -/
  glitchSplit : NUM
  /-- `SWEEP_DEPTH` (D30) -/
  sweepDepth  : NUM
  /-- `F_GUARD` (D31) -/
  fGuard      : NUM
  /-- `VOWEL_HZ[A]` (D34) -/
  vowelA      : Formants
  /-- `VOWEL_HZ[E]` (D34) -/
  vowelE      : Formants
  /-- `VOWEL_HZ[I]` (D34) -/
  vowelI      : Formants
  /-- `VOWEL_HZ[O]` (D34) -/
  vowelO      : Formants
  /-- `VOWEL_HZ[U]` (D34) -/
  vowelU      : Formants
  /-- `VOWEL_W[0]` (D34) -/
  vowelW0     : NUM
  /-- `VOWEL_W[1]` (D34) -/
  vowelW1     : NUM
  /-- `PHASER_DEPTH` (D35) -/
  phaserDepth : NUM
  /-- `RMF_SWEEP_HZ` (D36) -/
  rmfSweepHz  : NUM
  /-- `RMF_DEPTH` (D36) -/
  rmfDepth    : NUM

/-- The integer of a conversion, or the free integer of the operand where it has none (log entry 2). -/
def Params.orFree (P : Params) (x : NUM) (z : Option Int) : Int :=
  match z with
  | some z => z
  | none => P.nonFinite x

/-- `trunc(x)` as an integer (R12). -/
def Params.truncInt (P : Params) (x : NUM) : Int := P.orFree x (P.num.truncInt? x)

/-- `floor(x)` as an integer (R12). -/
def Params.floorInt (P : Params) (x : NUM) : Int := P.orFree x (P.num.floorInt? x)

/-- `rha(x)` as an integer (R15). -/
def Params.rhaInt (P : Params) (x : NUM) : Int := P.orFree x (P.num.rhaInt? x)

/-! ### The constants the document fixes (R9, ground `src`) -/

/-- The integer `n` as a binary64 literal. -/
abbrev lit (n : Nat) : NUM := binary64.lit n

/-- The decimal `p / q` as a binary64 literal. -/
abbrev dec (p q : Nat) : NUM := binary64.dec p q

/-- `ATTACK_S` = 0.01 s. -/
def attackS (F : Format) : NUM := F.dec 1 100
/-- `REF_HZ` = 440.0. -/
def refHz (F : Format) : NUM := F.lit 440
/-- `REF_NOTE` = 69. -/
def refNote : Int := 69
/-- The scale 1000 of the seeds (`SEED_MUL`). -/
def seedScale (F : Format) : NUM := F.lit 1000
/-- `SEED_MUL`: the multiplier of s1. -/
def seedMul1 (F : Format) : NUM := F.dec 1234 10000
/-- `SEED_MUL`: the multiplier of s2. -/
def seedMul2 (F : Format) : NUM := F.dec 5678 10000
/-- `SEED_MUL`: the multiplier of s3. -/
def seedMul3 (F : Format) : NUM := F.dec 9876 10000
/-- `SUB_MIX`: the square's weight 0.7. -/
def subMixSquare (F : Format) : NUM := F.dec 7 10
/-- `SUB_MIX`: the sine's weight 0.3. -/
def subMixSine (F : Format) : NUM := F.dec 3 10
/-- `PINK_A` = 0.99. -/
def pinkA (F : Format) : NUM := F.dec 99 100
/-- `PINK_B` = 0.01. -/
def pinkB (F : Format) : NUM := F.dec 1 100
/-- `CRACKLE_MEAN_S` = 0.01 s. -/
def crackleMeanS (F : Format) : NUM := F.dec 1 100
/-- `CRACKLE_AMP` = 2.0. -/
def crackleAmp (F : Format) : NUM := F.lit 2
/-- `WOBBLE_DEPTH` = 0.8. -/
def wobbleDepth (F : Format) : NUM := F.dec 8 10
/-- `GLITCH_PERIOD_S` = 0.01 s. -/
def glitchPeriodS (F : Format) : NUM := F.dec 1 100
/-- `GLITCH_HASH` = 12345.6789. -/
def glitchHash (F : Format) : NUM := F.dec 123456789 10000
/-- `GLITCH_FACTORS`: the factor −2.0. -/
def glitchLow (F : Format) : NUM := (F.lit 2).neg
/-- `GLITCH_FACTORS`: the factor 4.0. -/
def glitchHigh (F : Format) : NUM := F.lit 4
/-- `REVERSER_MULT` = 16. -/
def reverserMult (F : Format) : NUM := F.lit 16
/-- `CRUSH_BITS0` = 16.0. -/
def crushBits0 (F : Format) : NUM := F.lit 16
/-- `CRUSH_SLOPE` = 15.5. -/
def crushSlope (F : Format) : NUM := F.dec 155 10
/-- `SWEEP_RES_GAIN` = 10.0. -/
def sweepResGain (F : Format) : NUM := F.lit 10
/-- `F_NORM_MAX` = 1.16. -/
def fNormMax (F : Format) : NUM := F.dec 116 100
/-- `RES_MAX` = 0.95. -/
def resMax (F : Format) : NUM := F.dec 95 100
/-- `COMB_SECONDS` = 1.0 s. -/
def combSeconds (F : Format) : NUM := F.lit 1
/-- `PHASER_LFO_HZ` = 0.5 Hz. -/
def phaserLfoHz (F : Format) : NUM := F.dec 1 2
/-- The cap of the phaser's break frequency, as a fraction of the sample rate: 0.45 (R264). -/
def phaserCap (F : Format) : NUM := F.dec 45 100
/-- The dry and the wet weight of the phaser's mix: 0.5 (R264). -/
def half (F : Format) : NUM := F.dec 1 2

/-! ### The defaults -/

/-- `low + span × u`: one multiply, then one add (R153). -/
def spread (F : Format) (low span u : NUM) : NUM := F.add low (F.mul span u)

/-- The default `PROFILE_MAP`: the table of R153. -/
def defaultProfileMap (F : Format) (s1 s2 s3 : NUM) : Continuous where
  wobbleRate := spread F (F.dec 1 2) (F.lit 20) (F.fr s1)
  glitchChance := F.fr s2
  harmonicMix := spread F (F.dec 1 2) (F.dec 35 10) (F.fr s3)
  ringModFreq := spread F (F.lit 20) (F.lit 1980) (F.fr (F.mul (F.lit 10) s1))
  filterFreq := spread F (F.lit 200) (F.lit 4800) (F.fr (F.mul (F.lit 10) s2))
  bitDepth := spread F (F.lit 2) (F.lit 14) (F.fr (F.mul (F.lit 10) s3))
  grainSize := spread F (F.dec 1 100) (F.dec 9 100) (F.fr (F.mul (F.lit 100) s1))

/-- The default `KV_MAP`: the table of R155. -/
def defaultKvMap (F : Format) (T : Trig) (m : NUM) : KnobVariant where
  amount := F.fr (F.mul (T.sin (F.mul m (F.dec 7531 10000))) (F.lit 1000))
  cutoff := spread F (F.lit 100) (F.lit 8000) (F.fr (F.mul (T.cos (F.mul m (F.dec 2468 10000))) (F.lit 1000)))
  resonance := F.mul (F.dec 95 100) (F.fr (F.mul (T.sin (F.mul m (F.dec 1357 10000))) (F.lit 1000)))

/-- The value of a draw of the default generator: `(PRNG >> 8) × 2^−24`, exact (R188). -/
@[irreducible] def lcgDraw (F : Format) (r : BitVec 32) : NUM := F.ofRatio (r >>> 8).toNat (2 ^ 24)

/-- The default `PRNG`: `(1664525 × PRNG + 1013904223) mod 2^32`, seeded with `0x9E3779B9 XOR zext_32(n)` (R188, R299).
The increment stands first so that a proof checker that compares two states does not count it down. -/
def lcg (F : Format) : Generator where
  seed n := 0x9E3779B9 ^^^ BitVec.ofNat 32 n.val
  next r := 1013904223 + 1664525 * r
  draw := lcgDraw F

/-- The OPEN parameters at their defaults (92_eei_decisions.md §8), for a given number format, TRIG functions and free values. -/
def defaults (F : Format) (T : Trig) (nonFinite : NUM → Int) (nanBits : Nat → BitVec 24) (ctlTurn : Nat → Bool) : Params where
  num := F
  trig := T
  nonFinite := nonFinite
  nanBits := nanBits
  ctlTurn := ctlTurn
  outDepth := Config.outDepth
  rspDepth := Config.rspDepth
  crspDepth := Config.crspDepth
  portMap := PortMap.unmapped
  delayMax := 192000
  rateMin := F.lit 1
  profileMap := defaultProfileMap F
  kvMap := defaultKvMap F
  releaseS := F.dec 1 10
  masterAmp := F.dec 1 2
  prng := lcg F
  ssDetune := ⟨F.dec 97 100, F.dec 98 100, F.dec 99 100, F.dec 100 100, F.dec 101 100, F.dec 102 100, F.dec 103 100⟩
  fmIndex := F.lit 2
  fmRatio := F.lit 2
  subRatio := F.dec 1 2
  glitchSplit := F.dec 1 2
  sweepDepth := F.dec 1 2
  fGuard := F.dec 99 100
  vowelA := ⟨F.lit 730, F.lit 1090⟩
  vowelE := ⟨F.lit 530, F.lit 1840⟩
  vowelI := ⟨F.lit 270, F.lit 2290⟩
  vowelO := ⟨F.lit 570, F.lit 840⟩
  vowelU := ⟨F.lit 300, F.lit 870⟩
  vowelW0 := F.lit 1
  vowelW1 := F.dec 1 2
  phaserDepth := F.dec 9 10
  rmfSweepHz := F.dec 1 2
  rmfDepth := F.dec 1 2

/-- The TRIG functions of the machine: free (Config.lean, log entry 1); a power of 2 lies between the powers of the integers around its exponent. -/
def freeTrig : Trig where
  sin x := NUM.ofBits64 (Config.sinBits x)
  cos x := NUM.ofBits64 (Config.cosBits x)
  tan x := NUM.ofBits64 (Config.tanBits x)
  pow2 x := NUM.betweenPowers x (NUM.ofBits64 (Config.pow2Bits x))

/-- The parameters the machine runs with: the spec's defaults, with TRIG and the free values free. -/
def params : Params := defaults binary64 freeTrig Config.integerOfNonFinite Config.nanBits Config.ctlTurn

end Sys2Proof.Machine
end

