-- ==== Sys2Proof/Machine/Ops.lean ====
section
/-!
DEFINITION. The shared operations on the state: the delay line (R88), the streams and their holds (R65, R84, R399), the generator draw (R188), the
voice reset (R299), and the writes of the wires between the stages of a tick (R294).
-/

namespace Sys2Proof.Machine

/-! ### The delay line -/

/-- The canonical form of the delay line: indexes strictly rising, each below `delayMax` (R56, R89). -/
def Memory.wf (delayMax : Nat) (m : Memory) : Bool :=
  decide (m.Pairwise fun a b => a.index < b.index) && m.all fun c => decide (c.index < delayMax)

/-- `DL.read(i)`: the entry if its valid bit is set, else 0.0 (R88). -/
def Memory.read (i : Nat) : Memory → NUM
  | [] => .zero
  | c :: m => if c.index = i then (if c.valid then c.value else .zero) else Memory.read i m

/-- `DL.write(i, v)`: `DL[i] <- v; DL_VALID[i] <- 1` (R88). -/
def Memory.write (i : Nat) (v : NUM) : Memory → Memory
  | [] => [⟨i, v, true⟩]
  | c :: m =>
    if i < c.index then ⟨i, v, true⟩ :: c :: m
    else if c.index = i then ⟨i, v, true⟩ :: m
    else c :: Memory.write i v m

/-- `DL.invalidate`: every valid bit cleared in one step, the contents kept (R69, R88). -/
def Memory.invalidate (m : Memory) : Memory := m.map fun c => { c with valid := false }

/-- The valid bit of an entry (R56). -/
def Memory.validAt (i : Nat) : Memory → Bool
  | [] => false
  | c :: m => if c.index = i then c.valid else Memory.validAt i m

/-! ### The streams -/

/-- Is a bounded stream full (R399)? -/
def Stream.full (q : Stream) : Bool :=
  match q.depth with
  | none => false
  | some d => decide (d ≤ q.words.length)

/-- `push`: append a word (R18, R65). -/
def Stream.push (w : Word) (q : Stream) : Stream := { q with words := q.words ++ [w] }

/-- `push RSP, w`, or a hold while `RSP` is full (R399). -/
def State.respond (w : Word) (s : State) : State :=
  if s.rsp.full then s else { s with rsp := s.rsp.push w }

/-- `push CRSP, w`, or a hold while `CRSP` is full (R399). -/
def State.respondCtl (w : Word) (s : State) : State :=
  if s.crsp.full then s else { s with crsp := s.crsp.push w }

/-- `push OUT, w` (R84). -/
def State.emit (w : Word) (s : State) : State := { s with out := s.out.push w }

/-- `push OUT, bits(f32(v))`: a NaN takes the next free sign and payload (R84, I2). -/
def State.emitSample (P : Params) (v : NUM) (s : State) : State :=
  let s := s.emit (P.num.bits32 (P.nanBits s.draws) v)
  if v = .nan then { s with draws := s.draws + 1 } else s

/-! ### The voice -/

/-- The state with another voice state. -/
def State.setVoice (v : Voice) (s : State) : State := { s with voice := v }

/-- Voice reset (R299): the "after voice reset" values, `DL.invalidate` and `DL_W <- 0`, in one step. -/
def State.voiceReset (s : State) : State :=
  s.setVoice (Voice.silentWith (Memory.invalidate s.voice.dl))

/-- The state with other wires. -/
def State.setWires (w : Wires) (s : State) : State := { s with wires := w }

/-- The wave stage hands `x0` on (R180, R294). -/
def State.setX0 (x : NUM) (s : State) : State := s.setWires { s.wires with x0 := x }

/-- The effect stage hands `x1` on (R220, R294). -/
def State.setX1 (x : NUM) (s : State) : State := s.setWires { s.wires with x1 := x }

/-- The filter stage hands `x2` on (R250, R294). -/
def State.setX2 (x : NUM) (s : State) : State := s.setWires { s.wires with x2 := x }

/-! ### The generator -/

/-- The next generator state (R188). -/
@[irreducible] def prngNext (P : Params) (r : BitVec 32) : BitVec 32 := P.prng.next r

/-- The value of a draw from the generator's new state (R188). -/
@[irreducible] def drawValue (P : Params) (r : BitVec 32) : NUM := P.prng.draw r

end Sys2Proof.Machine
end

