-- ==== Sys2Proof/Machine/Operands.lean ====
section
/-!
DEFINITION. The operand forms of the commands and their conversions: the velocity (R321), the sample rate and what is derived from it (R323, R59, R60), the
knob and its bucket (R156), the note (R112), and the response words (R125).
-/

namespace Sys2Proof.Machine

/-- The note of a command when it is a valid MIDI note, 0 to 127 (R112). -/
def validNote (note : Nat) : Option (Fin 128) := if h : note < 128 then some ⟨note, h⟩ else none

/-- `VEL`: `clamp(num(v), 0, 1)` (R299, R321). -/
def velocity (P : Params) (data : Word) : NUM := (P.num.ofBits32 data).clamp .zero P.num.one

/-- `FREQ`: `440 × pow2((n − 69) ÷ 12)` (R300). -/
def noteFrequency (P : Params) (n : Fin 128) : NUM :=
  P.num.mul (refHz P.num) (P.trig.pow2 (P.num.div (P.num.ofInt ((n.val : Int) - refNote)) (P.num.lit 12)))

/-- The seed of the generator: `0x9E3779B9 XOR zext_32(n)` at the default (R299). -/
def noteSeed (P : Params) (n : Fin 128) : BitVec 32 := P.prng.seed n

/-- Does SET_RATE reject `r`? `r is NaN or r < RATE_MIN or r = +∞ or rha(r) > DELAY_MAX` (R323, R363). -/
def badRate (P : Params) (r : NUM) : Bool :=
  r == .nan || r.lt P.rateMin || r == .inf false || decide ((P.delayMax : Int) < P.rhaInt r)

/-- `DL_LEN`: `max(1, rha(r × COMB_SECONDS))` (R59, R323). -/
def delayLength (P : Params) (r : NUM) : Nat := max 1 (P.rhaInt (P.num.mul r (combSeconds P.num))).toNat

/-- `GP`: `rha(GLITCH_PERIOD_S × r)` (R60, R323). -/
def glitchPeriod (P : Params) (r : NUM) : Nat := (P.rhaInt (P.num.mul (glitchPeriodS P.num) r)).toNat

/-- The knob position: `k = rha(clamp(knob, 0.0, 1.0) × 127)` of the latched pattern (R156). -/
def knobBucket (P : Params) (knob : Word) : Nat :=
  (P.rhaInt (P.num.mul ((P.num.ofBits32 knob).clamp .zero P.num.one) (P.num.lit 127))).toNat

/-- The response of GET_ACTIVE_NOTE (R125, R325). -/
def activeNoteWord (a : Option (Fin 128)) : Word :=
  match a with
  | none => 0xFFFFFFFF
  | some n => BitVec.ofNat 32 n.val

end Sys2Proof.Machine
end

