-- ==== Sys2Proof/Machine/Tables.lean ====
section
/-!
DEFINITION. The two read-only tables, computed at each read (R86, R87, R159): `PROFILE[n]` and `KV[n][k]` (R151 to R155), the selector types
with their codes (R121 to R123), and the table entries a tick resolves (R157, R160, R293).
-/

namespace Sys2Proof.Machine

/-- The wave types (R121). -/
inductive Wave
  | sine | square | saw | triangle | pulse25 | pulse75 | white | pink | supersaw | fm | sub | crackle
deriving DecidableEq, Repr

/-- The effect types (R122). -/
inductive Effect
  | wobbler | glitcher | harmonizer | reverser | bitcrusher | ringmod | granular | filtersweep
deriving DecidableEq, Repr

/-- The filter types (R123). -/
inductive Filter
  | ladderLp | ladderHp | ladderBp | notch | comb | vowelA | vowelE | vowelI | vowelO | vowelU | phaser | ringmod
deriving DecidableEq, Repr

/-- The code of a wave type (R121). -/
def Wave.code : Wave → Nat
  | .sine => 0
  | .square => 1
  | .saw => 2
  | .triangle => 3
  | .pulse25 => 4
  | .pulse75 => 5
  | .white => 6
  | .pink => 7
  | .supersaw => 8
  | .fm => 9
  | .sub => 10
  | .crackle => 11

/-- The code of an effect type (R122). -/
def Effect.code : Effect → Nat
  | .wobbler => 0
  | .glitcher => 1
  | .harmonizer => 2
  | .reverser => 3
  | .bitcrusher => 4
  | .ringmod => 5
  | .granular => 6
  | .filtersweep => 7

/-- The code of a filter type (R123). -/
def Filter.code : Filter → Nat
  | .ladderLp => 0
  | .ladderHp => 1
  | .ladderBp => 2
  | .notch => 3
  | .comb => 4
  | .vowelA => 5
  | .vowelE => 6
  | .vowelI => 7
  | .vowelO => 8
  | .vowelU => 9
  | .phaser => 10
  | .ringmod => 11

/-- The wave type whose code is `k mod 12` (R152). -/
def Wave.ofMod (k : Nat) : Wave :=
  match k % 12 with
  | 0 => .sine
  | 1 => .square
  | 2 => .saw
  | 3 => .triangle
  | 4 => .pulse25
  | 5 => .pulse75
  | 6 => .white
  | 7 => .pink
  | 8 => .supersaw
  | 9 => .fm
  | 10 => .sub
  | _ => .crackle

/-- The effect type whose code is `k mod 8` (R152). -/
def Effect.ofMod (k : Nat) : Effect :=
  match k % 8 with
  | 0 => .wobbler
  | 1 => .glitcher
  | 2 => .harmonizer
  | 3 => .reverser
  | 4 => .bitcrusher
  | 5 => .ringmod
  | 6 => .granular
  | _ => .filtersweep

/-- The filter type whose code is `k mod 12` (R152). -/
def Filter.ofMod (k : Nat) : Filter :=
  match k % 12 with
  | 0 => .ladderLp
  | 1 => .ladderHp
  | 2 => .ladderBp
  | 3 => .notch
  | 4 => .comb
  | 5 => .vowelA
  | 6 => .vowelE
  | 7 => .vowelI
  | 8 => .vowelO
  | 9 => .vowelU
  | 10 => .phaser
  | _ => .ringmod

/-- A note profile: three selectors and seven continuous fields (R86). -/
structure Profile extends Continuous where
  wave   : Wave
  effect : Effect
  filter : Filter
deriving DecidableEq, Repr

/-- `s1 = sin(n × 0.1234) × 1000` (R151). -/
def seed1 (P : Params) (n : Fin 128) : NUM :=
  P.num.mul (P.trig.sin (P.num.mul (P.num.ofInt (n.val : Int)) (seedMul1 P.num))) (seedScale P.num)

/-- `s2 = cos(n × 0.5678) × 1000` (R151). -/
def seed2 (P : Params) (n : Fin 128) : NUM :=
  P.num.mul (P.trig.cos (P.num.mul (P.num.ofInt (n.val : Int)) (seedMul2 P.num))) (seedScale P.num)

/-- `s3 = sin(n × 0.9876) × 1000` (R151). -/
def seed3 (P : Params) (n : Fin 128) : NUM :=
  P.num.mul (P.trig.sin (P.num.mul (P.num.ofInt (n.val : Int)) (seedMul3 P.num))) (seedScale P.num)

/-- `PROFILE[n]` (R86, R151 to R153). -/
def profile (P : Params) (n : Fin 128) : Profile where
  toContinuous := P.profileMap (seed1 P n) (seed2 P n) (seed3 P n)
  wave := Wave.ofMod n.val
  effect := Effect.ofMod (P.truncInt (seed1 P n)).natAbs
  filter := Filter.ofMod n.val

/-- `KV[n][k]` (R87, R155), with `m = 128 × n + k`. -/
def knobVariant (P : Params) (n : Fin 128) (k : Nat) : KnobVariant :=
  P.kvMap P.trig (P.num.ofInt ((128 * n.val + k : Nat) : Int))

/-- The note whose profile the accessors report: the active one, or note 0, the default profile (R157, D38, D53). -/
def State.profileNote (s : State) : Fin 128 :=
  match s.voice.active with
  | none => 0
  | some n => n

/-- The profile of the active note (R160, R293), or the default profile (R157). -/
def State.profile (P : Params) (s : State) : Profile := Machine.profile P s.profileNote

/-- The knob variant of the active note at the latched knob (R156, R160, R293). -/
def State.variant (P : Params) (s : State) : KnobVariant :=
  knobVariant P s.profileNote (knobBucket P s.knobSnap)

end Sys2Proof.Machine
end

