-- ==== Sys2Proof/Machine/Waves.lean ====
section
/-!
DEFINITION. The oscillator bank: the twelve wave algorithms (R180 to R196).
Each hands `x0` on and never writes a phase; only the noise algorithms write registers: `PRNG`, `PINK`, `CRACKLE_T` (R180).
-/

namespace Sys2Proof.Machine

/-- A pulse of a duty: +1 for `p < duty`, −1 otherwise (R181). -/
def pulse (F : Format) (duty p : NUM) : NUM := if p.lt duty then F.one else F.one.neg

/-- The ramp `2 × p − 1` (R184, R189, R191). -/
def ramp (F : Format) (p : NUM) : NUM := F.sub (F.mul (F.lit 2) p) F.one

/-- `sin(TWO_PI × p)`: a sine of phase `p` (R182, R192, R193, R221). -/
def sinePhase (P : Params) (p : NUM) : NUM := P.trig.sin (P.num.mul P.num.twoPi p)

/-- One super-saw voice added: `acc + (2 × p − 1)` (R191). -/
def sawSum (F : Format) (acc p : NUM) : NUM := F.add acc (ramp F p)

/-- W_SINE: `x0 = sin(TWO_PI × PH)` (R182). -/
def waveSine (P : Params) (s : State) : State := s.setX0 (sinePhase P s.voice.ph)

/-- W_SQUARE: 1.0 for `PH < 0.5`, else −1.0 (R183). -/
def waveSquare (P : Params) (s : State) : State := s.setX0 (pulse P.num (P.num.dec 1 2) s.voice.ph)

/-- W_SAW: `x0 = 2 × PH − 1` (R184). -/
def waveSaw (P : Params) (s : State) : State := s.setX0 (ramp P.num s.voice.ph)

/-- W_TRIANGLE: `x0 = 2 × abs(2 × PH − 1) − 1` (R185). -/
def waveTriangle (P : Params) (s : State) : State := s.setX0 (ramp P.num (ramp P.num s.voice.ph).abs)

/-- W_PULSE25: 1.0 for `PH < 0.25`, else −1.0 (R186). -/
def wavePulse25 (P : Params) (s : State) : State := s.setX0 (pulse P.num (P.num.dec 1 4) s.voice.ph)

/-- W_PULSE75: 1.0 for `PH < 0.75`, else −1.0 (R187). -/
def wavePulse75 (P : Params) (s : State) : State := s.setX0 (pulse P.num (P.num.dec 3 4) s.voice.ph)

/-- W_WHITE: `u = draw(); x0 = 2 × u − 1` (R189). -/
def waveWhite (P : Params) (s : State) : State :=
  let r := prngNext P s.voice.prng
  (s.setVoice { s.voice with prng := r }).setX0 (ramp P.num (drawValue P r))

/-- The pink integrator after a draw: `0.99 × PINK + 0.01 × wn`, with `wn = 2 × draw() − 1` (R190). -/
def pinkNext (P : Params) (pink u : NUM) : NUM :=
  P.num.add (P.num.mul (pinkA P.num) pink) (P.num.mul (pinkB P.num) (ramp P.num u))

/-- W_PINK: `PINK` takes the next white sample in and is handed on after the update (R190). -/
def wavePink (P : Params) (s : State) : State :=
  let r := prngNext P s.voice.prng
  let pink := pinkNext P s.voice.pink (drawValue P r)
  (s.setVoice { s.voice with prng := r, pink := pink }).setX0 pink

/-- W_SUPERSAW: the seven ramps of `PH_SS` summed in index order from 0.0, divided by 7 (R191). -/
def waveSupersaw (P : Params) (s : State) : State :=
  let p := s.voice.phSs
  let voice := sawSum P.num
  let acc := voice (voice (voice (voice (voice (voice (voice .zero p.v0) p.v1) p.v2) p.v3) p.v4) p.v5) p.v6
  s.setX0 (P.num.div acc (P.num.lit 7))

/-- W_FM: `x0 = sin(TWO_PI × PH + FM_INDEX × sin(TWO_PI × PH_FM))` (R192). -/
def waveFm (P : Params) (s : State) : State :=
  s.setX0 (P.trig.sin (P.num.add (P.num.mul P.num.twoPi s.voice.ph) (P.num.mul P.fmIndex (sinePhase P s.voice.phFm))))

/-- W_SUB: `x0 = 0.7 × sq + 0.3 × sin(TWO_PI × PH_SUB)`, with `sq` the square of `PH` (R193). -/
def waveSub (P : Params) (s : State) : State :=
  s.setX0 (P.num.add (P.num.mul (subMixSquare P.num) (pulse P.num (P.num.dec 1 2) s.voice.ph))
    (P.num.mul (subMixSine P.num) (sinePhase P s.voice.phSub)))

/-- The gap after a crackle impulse: `floor(u2 × (2 × CRACKLE_MEAN_S × FS))` ticks (R194). -/
def crackleGap (P : Params) (fs u2 : NUM) : Nat :=
  (P.floorInt (P.num.mul u2 (P.num.mul (P.num.mul (P.num.lit 2) (crackleMeanS P.num)) fs))).toNat

/-- W_CRACKLE: 0.0 and a count down while `CRACKLE_T > 0`; else an impulse `2.0 × (2 × u − 1)` from one draw and the next gap from a second (R194). -/
def waveCrackle (P : Params) (s : State) : State :=
  if 0 < s.voice.crackleT then
    (s.setVoice { s.voice with crackleT := s.voice.crackleT - 1 }).setX0 .zero
  else
    let r1 := prngNext P s.voice.prng
    let r2 := prngNext P r1
    (s.setVoice { s.voice with prng := r2, crackleT := crackleGap P s.fs (drawValue P r2) }).setX0
      (P.num.mul (crackleAmp P.num) (ramp P.num (drawValue P r1)))

/-! ### The meanings -/

/-- W_SINE (R182). -/
def execWSine (s : State) : Host.Outcome State Fault Refusal := .next (waveSine params s)
/-- W_SQUARE (R183). -/
def execWSquare (s : State) : Host.Outcome State Fault Refusal := .next (waveSquare params s)
/-- W_SAW (R184). -/
def execWSaw (s : State) : Host.Outcome State Fault Refusal := .next (waveSaw params s)
/-- W_TRIANGLE (R185). -/
def execWTriangle (s : State) : Host.Outcome State Fault Refusal := .next (waveTriangle params s)
/-- W_PULSE25 (R186). -/
def execWPulse25 (s : State) : Host.Outcome State Fault Refusal := .next (wavePulse25 params s)
/-- W_PULSE75 (R187). -/
def execWPulse75 (s : State) : Host.Outcome State Fault Refusal := .next (wavePulse75 params s)
/-- W_WHITE (R189). -/
def execWWhite (s : State) : Host.Outcome State Fault Refusal := .next (waveWhite params s)
/-- W_PINK (R190). -/
def execWPink (s : State) : Host.Outcome State Fault Refusal := .next (wavePink params s)
/-- W_SUPERSAW (R191). -/
def execWSupersaw (s : State) : Host.Outcome State Fault Refusal := .next (waveSupersaw params s)
/-- W_FM (R192). -/
def execWFm (s : State) : Host.Outcome State Fault Refusal := .next (waveFm params s)
/-- W_SUB (R193). -/
def execWSub (s : State) : Host.Outcome State Fault Refusal := .next (waveSub params s)
/-- W_CRACKLE (R194). -/
def execWCrackle (s : State) : Host.Outcome State Fault Refusal := .next (waveCrackle params s)

/-- The wave stage of a tick: `x0 = WAVE_w()` (R180). -/
def waveStage (P : Params) (w : Wave) (s : State) : State :=
  match w with
  | .sine => waveSine P s
  | .square => waveSquare P s
  | .saw => waveSaw P s
  | .triangle => waveTriangle P s
  | .pulse25 => wavePulse25 P s
  | .pulse75 => wavePulse75 P s
  | .white => waveWhite P s
  | .pink => wavePink P s
  | .supersaw => waveSupersaw P s
  | .fm => waveFm P s
  | .sub => waveSub P s
  | .crackle => waveCrackle P s

end Sys2Proof.Machine
end

