-- ==== Sys2Proof/Machine/Effects.lean ====
section
/-!
DEFINITION. The weird modulator bank: the eight effect algorithms (R220 to R231).
Each reads `x0`, the profile and the modulation amount `a`, writes its own registers, and hands `x1` on; an LFO is read before it is advanced (R221).
-/

namespace Sys2Proof.Machine

/-- An LFO or carrier phase advanced by `rate ÷ FS` and wrapped (R221, R296). -/
def advance (F : Format) (phase rate fs : NUM) : NUM := F.wrap (F.add phase (F.div rate fs))

/-- A gain blended from 1 toward `carrier`: `(1 − a) + a × carrier` (R225, R227, R228). -/
def blend (F : Format) (a carrier : NUM) : NUM := F.add (F.sub F.one a) (F.mul a carrier)

/-- E_WOBBLER: `x1 = x0 × (1 + 0.8 × a × sin(TWO_PI × WOB_PH))` (R222). -/
def effectWobbler (P : Params) (s : State) : State :=
  let F := P.num
  let pr := s.profile P
  let a := (s.variant P).amount
  let lfo := sinePhase P s.voice.wobPh
  (s.setVoice { s.voice with wobPh := advance F s.voice.wobPh pr.wobbleRate s.fs }).setX1
    (F.mul s.wires.x0 (F.add F.one (F.mul (F.mul (wobbleDepth F) a) lfo)))

/-- The sample after a glitch evaluation of hash `r` and threshold `T` (R223). -/
def glitchSample (P : Params) (x0 r T : NUM) : NUM :=
  if r.lt T then P.num.mul x0 (if r.lt (P.num.mul P.glitchSplit T) then glitchLow P.num else glitchHigh P.num) else x0

/-- E_GLITCHER: `GLITCH_CNT` counts ticks; when it reaches `GP` it returns to 0 and `fr(sin(PH × 12345.6789))` decides the factor (R223). -/
def effectGlitcher (P : Params) (s : State) : State :=
  let F := P.num
  let pr := s.profile P
  let a := (s.variant P).amount
  let count := s.voice.glitchCnt + 1
  if s.gp ≤ count then
    let r := F.fr (P.trig.sin (F.mul s.voice.ph (glitchHash F)))
    (s.setVoice { s.voice with glitchCnt := 0 }).setX1 (glitchSample P s.wires.x0 r (F.mul pr.glitchChance a))
  else
    (s.setVoice { s.voice with glitchCnt := count }).setX1 s.wires.x0

/-- E_HARMONIZER: `x1 = (1 − a) × x0 + a × sin(TWO_PI × HARM_PH)`; the oscillator runs at `FREQ × harmonicMix` (R224). -/
def effectHarmonizer (P : Params) (s : State) : State :=
  let F := P.num
  let pr := s.profile P
  let a := (s.variant P).amount
  let osc := sinePhase P s.voice.harmPh
  (s.setVoice { s.voice with harmPh := advance F s.voice.harmPh (F.mul s.voice.freq pr.harmonicMix) s.fs }).setX1
    (F.add (F.mul (F.sub F.one a) s.wires.x0) (F.mul a osc))

/-- E_REVERSER: `x1 = x0 × ((1 − a) + a × sin(TWO_PI × (16 × PH)))` (R225). -/
def effectReverser (P : Params) (s : State) : State :=
  let F := P.num
  let a := (s.variant P).amount
  s.setX1 (F.mul s.wires.x0 (blend F a (sinePhase P (F.mul (reverserMult F) s.voice.ph))))

/-- E_BITCRUSHER: `q = pow2(16 − 15.5 × a); x1 = rha(x0 × q) ÷ q` (R226); the profile's `bitDepth` is not read (R154). -/
def effectBitcrusher (P : Params) (s : State) : State :=
  let F := P.num
  let a := (s.variant P).amount
  let q := P.trig.pow2 (F.sub (crushBits0 F) (F.mul (crushSlope F) a))
  s.setX1 (F.div (F.rha (F.mul s.wires.x0 q)) q)

/-- E_RINGMOD: `x1 = x0 × ((1 − a) + a × sin(TWO_PI × RING_PH))` (R227). -/
def effectRingmod (P : Params) (s : State) : State :=
  let F := P.num
  let pr := s.profile P
  let a := (s.variant P).amount
  let carrier := sinePhase P s.voice.ringPh
  (s.setVoice { s.voice with ringPh := advance F s.voice.ringPh pr.ringModFreq s.fs }).setX1
    (F.mul s.wires.x0 (blend F a carrier))

/-- E_GRANULAR: `x1 = x0 × ((1 − a) + a × sin(PI × GRAIN_PH))`; when the grain phase wraps, `GRAIN_RESET` is set for this tick (R228). -/
def effectGranular (P : Params) (s : State) : State :=
  let F := P.num
  let pr := s.profile P
  let a := (s.variant P).amount
  let x1 := F.mul s.wires.x0 (blend F a (P.trig.sin (F.mul F.pi s.voice.grainPh)))
  let g := F.add s.voice.grainPh (F.div F.one (F.mul pr.grainSize s.fs))
  if F.one.le g then
    (s.setVoice { s.voice with grainPh := F.sub g (F.floor g) }).setWires { s.wires with x1 := x1, grainReset := true }
  else
    (s.setVoice { s.voice with grainPh := g }).setX1 x1

/-- E_FILTERSWEEP: a one-pole lowpass swept by `WOB_PH` around `filterFreq`, its highpass complement added back by `10 × a` (R229). -/
def effectFiltersweep (P : Params) (s : State) : State :=
  let F := P.num
  let pr := s.profile P
  let a := (s.variant P).amount
  let x0 := s.wires.x0
  let fc := F.mul pr.filterFreq (F.add F.one (F.mul P.sweepDepth (sinePhase P s.voice.wobPh)))
  let g := (F.div fc (F.div s.fs (F.lit 2))).min P.fGuard
  let lp := F.add s.voice.sweepLp (F.mul g (F.sub x0 s.voice.sweepLp))
  let hp := F.sub x0 lp
  (s.setVoice { s.voice with sweepLp := lp, wobPh := advance F s.voice.wobPh pr.wobbleRate s.fs }).setX1
    (F.add lp (F.mul (F.mul (sweepResGain F) a) hp))

/-! ### The meanings -/

/-- E_WOBBLER (R222). -/
def execEWobbler (s : State) : Host.Outcome State Fault Refusal := .next (effectWobbler params s)
/-- E_GLITCHER (R223). -/
def execEGlitcher (s : State) : Host.Outcome State Fault Refusal := .next (effectGlitcher params s)
/-- E_HARMONIZER (R224). -/
def execEHarmonizer (s : State) : Host.Outcome State Fault Refusal := .next (effectHarmonizer params s)
/-- E_REVERSER (R225). -/
def execEReverser (s : State) : Host.Outcome State Fault Refusal := .next (effectReverser params s)
/-- E_BITCRUSHER (R226). -/
def execEBitcrusher (s : State) : Host.Outcome State Fault Refusal := .next (effectBitcrusher params s)
/-- E_RINGMOD (R227). -/
def execERingmod (s : State) : Host.Outcome State Fault Refusal := .next (effectRingmod params s)
/-- E_GRANULAR (R228). -/
def execEGranular (s : State) : Host.Outcome State Fault Refusal := .next (effectGranular params s)
/-- E_FILTERSWEEP (R229). -/
def execEFiltersweep (s : State) : Host.Outcome State Fault Refusal := .next (effectFiltersweep params s)

/-- The effect stage of a tick: `GRAIN_RESET <- 0; x1 = EFFECT_e(x0, pr, a)` (R220). -/
def effectStage (P : Params) (e : Effect) (s : State) : State :=
  let s := s.setWires { s.wires with grainReset := false }
  match e with
  | .wobbler => effectWobbler P s
  | .glitcher => effectGlitcher P s
  | .harmonizer => effectHarmonizer P s
  | .reverser => effectReverser P s
  | .bitcrusher => effectBitcrusher P s
  | .ringmod => effectRingmod P s
  | .granular => effectGranular P s
  | .filtersweep => effectFiltersweep P s

end Sys2Proof.Machine
end

