-- ==== Sys2Proof/Machine/Filters.lean ====
section
/-!
DEFINITION. The chaos filter bank: the twelve filter algorithms (R250 to R266).
Each reads `x1` and the knob variant's cutoff `c` and resonance `r`, writes its own registers, and hands `x2` on.
-/

namespace Sys2Proof.Machine

/-- The conditioned coefficient `fg`: `min(clamp(c ÷ (FS ÷ 2), 0, 1.16), F_GUARD)` (R251). -/
def filterCoeff (P : Params) (fs c : NUM) : NUM :=
  ((P.num.div c (P.num.div fs (P.num.lit 2))).clamp .zero (fNormMax P.num)).min P.fGuard

/-- The conditioned resonance `rc`: `clamp(r, 0, 0.95)` (R251). -/
def filterRes (F : Format) (r : NUM) : NUM := r.clamp .zero (resMax F)

/-- The feedback coefficient `rc + rc ÷ (1 − f)` (R252, R258). -/
def feedback (F : Format) (rc f : NUM) : NUM := F.add rc (F.div rc (F.sub F.one f))

/-- The first stage with its feedback: `a + f × (x1 − a + fb × (a − b))` (R252, R258). -/
def stageIn (F : Format) (f fb x1 a b : NUM) : NUM := F.add a (F.mul f (F.add (F.sub x1 a) (F.mul fb (F.sub a b))))

/-- A following one-pole stage: `b + f × (a − b)`, with the new `a` (R252, R258, R265). -/
def stage (F : Format) (f a b : NUM) : NUM := F.add b (F.mul f (F.sub a b))

/-- The ladder core: the four stages updated in order, each with the new value before it (R252). -/
def ladderCore (F : Format) (f rc x1 : NUM) (l : Four) : Four :=
  let v0 := stageIn F f (feedback F rc f) x1 l.v0 l.v1
  let v1 := stage F f v0 l.v1
  let v2 := stage F f v1 l.v2
  let v3 := stage F f v2 l.v3
  ⟨v0, v1, v2, v3⟩

/-- The four ladder registers after one update from the state (R251, R252). -/
def ladderNext (P : Params) (s : State) : Four :=
  ladderCore P.num (filterCoeff P s.fs (s.variant P).cutoff) (filterRes P.num (s.variant P).resonance) s.wires.x1 s.voice.lad

/-- F_LADDER_LP: `x2 = LAD[3]` (R253). -/
def filterLadderLp (P : Params) (s : State) : State :=
  let l := ladderNext P s
  (s.setVoice { s.voice with lad := l }).setX2 l.v3

/-- F_LADDER_HP: `x2 = x1 − LAD[0]` (R254). -/
def filterLadderHp (P : Params) (s : State) : State :=
  let l := ladderNext P s
  (s.setVoice { s.voice with lad := l }).setX2 (P.num.sub s.wires.x1 l.v0)

/-- F_LADDER_BP: `x2 = LAD[0] − LAD[1]` (R255). -/
def filterLadderBp (P : Params) (s : State) : State :=
  let l := ladderNext P s
  (s.setVoice { s.voice with lad := l }).setX2 (P.num.sub l.v0 l.v1)

/-- F_NOTCH: `x2 = x1 − (LAD[0] − LAD[1])` (R256). -/
def filterNotch (P : Params) (s : State) : State :=
  let l := ladderNext P s
  (s.setVoice { s.voice with lad := l }).setX2 (P.num.sub s.wires.x1 (P.num.sub l.v0 l.v1))

/-- The comb delay `D = clamp(rha(FS ÷ c), 1, L)` in ticks (R257). -/
def combDelay (P : Params) (fs c : NUM) (len : Nat) : Int :=
  let d := P.rhaInt (P.num.div fs c)
  if d < 1 then 1 else if (len : Int) < d then len else d

/-- The comb's read index `(DL_W − D) mod L` (R19, R257). -/
def combReadIndex (P : Params) (s : State) : Nat :=
  (((s.voice.dlW : Int) - combDelay P s.fs (s.variant P).cutoff s.dlLen) % (s.dlLen : Int)).toNat

/-- F_COMB: `x2 = x1 + rc × DL.read(ri); DL.write(DL_W, x2); DL_W <- (DL_W + 1) mod L` (R257). -/
def filterComb (P : Params) (s : State) : State :=
  let d := Memory.read (combReadIndex P s) s.voice.dl
  let x2 := P.num.add s.wires.x1 (P.num.mul (filterRes P.num (s.variant P).resonance) d)
  (s.setVoice { s.voice with dl := Memory.write s.voice.dlW x2 s.voice.dl, dlW := (s.voice.dlW + 1) % s.dlLen }).setX2 x2

/-- A formant band's coefficient `min(F ÷ (FS ÷ 2), F_GUARD)` (R258). -/
def bandCoeff (P : Params) (fs f : NUM) : NUM := (P.num.div f (P.num.div fs (P.num.lit 2))).min P.fGuard

/-- The two bands of a vowel filter, band 0 before band 1, both on the same input (R258). -/
def vowelNext (P : Params) (h : Formants) (s : State) : Four :=
  let F := P.num
  let rc := filterRes F (s.variant P).resonance
  let x1 := s.wires.x1
  let m := s.voice.fmt
  let g0 := bandCoeff P s.fs h.f0
  let g1 := bandCoeff P s.fs h.f1
  let v0 := stageIn F g0 (feedback F rc g0) x1 m.v0 m.v1
  let v1 := stage F g0 v0 m.v1
  let v2 := stageIn F g1 (feedback F rc g1) x1 m.v2 m.v3
  let v3 := stage F g1 v2 m.v3
  ⟨v0, v1, v2, v3⟩

/-- The vowel primitive: `x2 = VOWEL_W[0] × bp_0 + VOWEL_W[1] × bp_1` (R258). -/
def vowel (P : Params) (h : Formants) (s : State) : State :=
  let m := vowelNext P h s
  (s.setVoice { s.voice with fmt := m }).setX2
    (P.num.add (P.num.mul P.vowelW0 (P.num.sub m.v0 m.v1)) (P.num.mul P.vowelW1 (P.num.sub m.v2 m.v3)))

/-- F_VOWEL_A (R259). -/
def filterVowelA (P : Params) (s : State) : State := vowel P P.vowelA s
/-- F_VOWEL_E (R260). -/
def filterVowelE (P : Params) (s : State) : State := vowel P P.vowelE s
/-- F_VOWEL_I (R261). -/
def filterVowelI (P : Params) (s : State) : State := vowel P P.vowelI s
/-- F_VOWEL_O (R262). -/
def filterVowelO (P : Params) (s : State) : State := vowel P P.vowelO s
/-- F_VOWEL_U (R263). -/
def filterVowelU (P : Params) (s : State) : State := vowel P P.vowelU s

/-- The all-pass coefficient `(t − 1) ÷ (t + 1)` with `t = tan(PI × fcl ÷ FS)` and the break frequency swept around `c` and capped (R264). -/
def phaserCoeff (P : Params) (fs c lfoPhase : NUM) : NUM :=
  let F := P.num
  let fsw := F.mul c (F.add F.one (F.mul P.phaserDepth (sinePhase P lfoPhase)))
  let fcl := fsw.min (F.mul (phaserCap F) fs)
  let t := P.trig.tan (F.div (F.mul F.pi fcl) fs)
  F.div (F.sub t F.one) (F.add t F.one)

/-- The output of an all-pass stage: `v = al × u + PHS[k]` (R264). -/
def allpassOut (F : Format) (al u z : NUM) : NUM := F.add (F.mul al u) z

/-- The state of an all-pass stage after it: `PHS[k] <- u − al × v` (R264). -/
def allpassState (F : Format) (al u v : NUM) : NUM := F.sub u (F.mul al v)

/-- F_PHASER: four all-pass stages in a row, `x2 = 0.5 × x1 + 0.5 × u` (R264). -/
def filterPhaser (P : Params) (s : State) : State :=
  let F := P.num
  let al := phaserCoeff P s.fs (s.variant P).cutoff s.voice.flfoPh
  let x1 := s.wires.x1
  let z := s.voice.phs
  let u0 := allpassOut F al x1 z.v0
  let u1 := allpassOut F al u0 z.v1
  let u2 := allpassOut F al u1 z.v2
  let u3 := allpassOut F al u2 z.v3
  let phs : Four := ⟨allpassState F al x1 u0, allpassState F al u0 u1, allpassState F al u1 u2, allpassState F al u2 u3⟩
  (s.setVoice { s.voice with phs := phs, flfoPh := advance F s.voice.flfoPh (phaserLfoHz F) s.fs }).setX2
    (F.add (F.mul (half F) x1) (F.mul (half F) u3))

/-- F_RINGMOD: the product with a swept sine carrier, lowpassed by a one-pole at `fg` (R265). -/
def filterRingmod (P : Params) (s : State) : State :=
  let F := P.num
  let c := (s.variant P).cutoff
  let fcar := F.mul c (F.add F.one (F.mul P.rmfDepth (sinePhase P s.voice.flfoPh)))
  let m := F.mul s.wires.x1 (sinePhase P s.voice.rmfPh)
  let lp := stage F (filterCoeff P s.fs c) m s.voice.rmfLp
  (s.setVoice { s.voice with
      rmfLp := lp
      rmfPh := advance F s.voice.rmfPh fcar s.fs
      flfoPh := advance F s.voice.flfoPh P.rmfSweepHz s.fs }).setX2 lp

/-! ### The meanings -/

/-- F_LADDER_LP (R253). -/
def execFLadderLp (s : State) : Host.Outcome State Fault Refusal := .next (filterLadderLp params s)
/-- F_LADDER_HP (R254). -/
def execFLadderHp (s : State) : Host.Outcome State Fault Refusal := .next (filterLadderHp params s)
/-- F_LADDER_BP (R255). -/
def execFLadderBp (s : State) : Host.Outcome State Fault Refusal := .next (filterLadderBp params s)
/-- F_NOTCH (R256). -/
def execFNotch (s : State) : Host.Outcome State Fault Refusal := .next (filterNotch params s)
/-- F_COMB (R257). -/
def execFComb (s : State) : Host.Outcome State Fault Refusal := .next (filterComb params s)
/-- F_VOWEL_A (R259). -/
def execFVowelA (s : State) : Host.Outcome State Fault Refusal := .next (filterVowelA params s)
/-- F_VOWEL_E (R260). -/
def execFVowelE (s : State) : Host.Outcome State Fault Refusal := .next (filterVowelE params s)
/-- F_VOWEL_I (R261). -/
def execFVowelI (s : State) : Host.Outcome State Fault Refusal := .next (filterVowelI params s)
/-- F_VOWEL_O (R262). -/
def execFVowelO (s : State) : Host.Outcome State Fault Refusal := .next (filterVowelO params s)
/-- F_VOWEL_U (R263). -/
def execFVowelU (s : State) : Host.Outcome State Fault Refusal := .next (filterVowelU params s)
/-- F_PHASER (R264). -/
def execFPhaser (s : State) : Host.Outcome State Fault Refusal := .next (filterPhaser params s)
/-- F_RINGMOD (R265). -/
def execFRingmod (s : State) : Host.Outcome State Fault Refusal := .next (filterRingmod params s)

/-- The filter stage of a tick: `x2 = FILTER_t(x1, c, r)` (R250). -/
def filterStage (P : Params) (t : Filter) (s : State) : State :=
  match t with
  | .ladderLp => filterLadderLp P s
  | .ladderHp => filterLadderHp P s
  | .ladderBp => filterLadderBp P s
  | .notch => filterNotch P s
  | .comb => filterComb P s
  | .vowelA => filterVowelA P s
  | .vowelE => filterVowelE P s
  | .vowelI => filterVowelI P s
  | .vowelO => filterVowelO P s
  | .vowelU => filterVowelU P s
  | .phaser => filterPhaser P s
  | .ringmod => filterRingmod P s

end Sys2Proof.Machine
end

