-- ==== Sys2Proof/Machine/Voice.lean ====
section
/-!
DEFINITION. The voice engine: the envelope step (R291), the phase advance (R296), one tick (R290), and the note capture (R299).
-/

namespace Sys2Proof.Machine

/-- The attack increment `1 ÷ (ATTACK_S × FS)` (R291). -/
def attackStep (F : Format) (fs : NUM) : NUM := F.div F.one (F.mul (attackS F) fs)

/-- The release increment `1 ÷ (RELEASE_S × FS)` (R291). -/
def releaseStep (P : Params) (fs : NUM) : NUM := P.num.div P.num.one (P.num.mul P.releaseS fs)

/-- The envelope step (R291): up to 1 in Sounding, down to 0 in Releasing and Silent; a release that reaches 0 ends the note. -/
def envelopeStep (P : Params) (fs : NUM) (v : Voice) : Voice :=
  match v.vstate with
  | .sounding => { v with env := P.num.one.min (P.num.add v.env (attackStep P.num fs)) }
  | .releasing =>
    let env := NUM.zero.max (P.num.sub v.env (releaseStep P fs))
    if env.isZero then { v with env := env, vstate := .silent, active := none } else { v with env := env }
  | .silent => { v with env := NUM.zero.max (P.num.sub v.env (releaseStep P fs)) }

/-- The phase advance (R296): each phase by (frequency × ratio) ÷ FS, wrapped; the Granular reset clears `PH` alone. -/
def phaseAdvance (P : Params) (fs : NUM) (grainReset : Bool) (v : Voice) : Voice :=
  let F := P.num
  let f := v.freq
  let d := P.ssDetune
  { v with
    ph := if grainReset then .zero else advance F v.ph f fs
    phSub := advance F v.phSub (F.mul f P.subRatio) fs
    phFm := advance F v.phFm (F.mul f P.fmRatio) fs
    phSs := ⟨advance F v.phSs.v0 (F.mul f d.v0) fs, advance F v.phSs.v1 (F.mul f d.v1) fs, advance F v.phSs.v2 (F.mul f d.v2) fs,
      advance F v.phSs.v3 (F.mul f d.v3) fs, advance F v.phSs.v4 (F.mul f d.v4) fs, advance F v.phSs.v5 (F.mul f d.v5) fs,
      advance F v.phSs.v6 (F.mul f d.v6) fs⟩ }

/-- The output scaling `((x2 × ENV) × VEL) × MASTER_AMP` (R295). -/
def outputScale (P : Params) (x2 env vel : NUM) : NUM := P.num.mul (P.num.mul (P.num.mul x2 env) vel) P.masterAmp

/-- Steps 4 to 6 of a tick: the three banks in order, each selected by the profile of the active note (R290, R294). -/
def bankStages (P : Params) (s : State) : State :=
  let pr := s.profile P
  filterStage P pr.filter (effectStage P pr.effect (waveStage P pr.wave s))

/-- Steps 3 to 9 of a tick that is not Silent (R290): the banks, the scaling, the phase advance, the sample; the wires are idle again after it. -/
def soundTick (P : Params) (s : State) : State :=
  let s := bankStages P s
  let out := outputScale P s.wires.x2 s.voice.env s.voice.vel
  let s := s.setVoice (phaseAdvance P s.fs s.wires.grainReset s.voice)
  (s.setWires Wires.idle).emitSample P out

/-- One tick (R290): the envelope step, then +0.0 if the voice is Silent (R292), else the banks. -/
def tick (P : Params) (s : State) : State :=
  let s := s.setVoice (envelopeStep P s.fs s.voice)
  match s.voice.vstate with
  | .silent => s.emit 0
  | .sounding => soundTick P s
  | .releasing => soundTick P s

/-- The tick loop of a RENDER (R324): `m` ticks, one word each.
Before a tick that would append to a full `OUT` it holds, and the ticks still owed are kept (R399). -/
def renderTicks (P : Params) : Nat → State → State
  | 0, s => { s with renderLeft := 0 }
  | m + 1, s => if s.out.full then { s with renderLeft := m + 1 } else renderTicks P m (tick P s)

/-- The note capture of NOTE_ON after the voice reset (R299). -/
def captureNote (P : Params) (n : Fin 128) (data : Word) (v : Voice) : Voice :=
  { v with
    active := some n
    vel := velocity P data
    freq := noteFrequency P n
    vstate := .sounding
    prng := noteSeed P n }

end Sys2Proof.Machine
end

