-- ==== Sys2Proof/Machine/Commands.lean ====
section
/-!
DEFINITION. The commands (R321 to R333): eleven of the `CMD` port, two of the `CTL` port.
-/

namespace Sys2Proof.Machine

/-- NOTE_ON (R321): a voice reset, then the note capture for a valid note, `BAD_NOTE` for another. -/
def noteOn (P : Params) (note : Nat) (data : Word) (s : State) : State :=
  let s := s.voiceReset
  match validNote note with
  | none => s.raise .badNote
  | some n => s.setVoice (captureNote P n data s.voice)

/-- NOTE_OFF (R322): the sounding note begins its release; another valid note is ignored; an invalid one raises `BAD_NOTE`. -/
def noteOff (note : Nat) (s : State) : State :=
  match validNote note with
  | none => s.raise .badNote
  | some n =>
    if s.voice.vstate = .sounding ∧ s.voice.active = some n then s.setVoice { s.voice with vstate := .releasing } else s

/-- SET_RATE (R323): a bad rate raises `BAD_RATE` and changes nothing else; a good one is taken, with what depends on it, and resets the voice. -/
def setRate (P : Params) (data : Word) (s : State) : State :=
  let r := P.num.ofBits32 data
  if badRate P r then s.raise .badRate
  else
    ({ s with
        fs := r
        rateValid := true
        dlLen := delayLength P r
        gp := glitchPeriod P r }).voiceReset

/-- RENDER (R324): `NO_RATE` without a valid rate; else the knob is latched once and `count` ticks run. -/
def render (P : Params) (count : Nat) (s : State) : State :=
  if s.rateValid then renderTicks P count { s with knobSnap := s.knob } else s.raise .noRate

/-- A selector code as a response word (R125). -/
def codeWord (code : Nat) : Word := BitVec.ofNat 32 code

/-- RESET (R331, R392): every register takes its power-on value.
What is not a register stays: the words in the streams and on the ports, and what the model counts or was handed. -/
def powerOn (s : State) : State :=
  { State.reset with
    out := s.out
    rsp := s.rsp
    crsp := s.crsp
    cmd := s.cmd
    ctl := s.ctl
    handed := s.handed
    draws := s.draws
    turns := s.turns }

/-- NOTE_ON (R321). -/
def execNoteOn (note : Nat) (data : Word) (s : State) : Host.Outcome State Fault Refusal := .next (noteOn params note data s)

/-- NOTE_OFF (R322). -/
def execNoteOff (note : Nat) (s : State) : Host.Outcome State Fault Refusal := .next (noteOff note s)

/-- SET_RATE (R323). -/
def execSetRate (data : Word) (s : State) : Host.Outcome State Fault Refusal := .next (setRate params data s)

/-- RENDER (R324). -/
def execRender (count : Nat) (s : State) : Host.Outcome State Fault Refusal := .next (render params count s)

/-- GET_ACTIVE_NOTE (R325). -/
def execGetActiveNote (s : State) : Host.Outcome State Fault Refusal := .next (s.respond (activeNoteWord s.voice.active))

/-- GET_WAVE_TYPE (R326). -/
def execGetWaveType (s : State) : Host.Outcome State Fault Refusal :=
  .next (s.respond (codeWord (s.profile params).wave.code))

/-- GET_WEIRD_TYPE (R327). -/
def execGetWeirdType (s : State) : Host.Outcome State Fault Refusal :=
  .next (s.respond (codeWord (s.profile params).effect.code))

/-- GET_FILTER_TYPE (R328). -/
def execGetFilterType (s : State) : Host.Outcome State Fault Refusal :=
  .next (s.respond (codeWord (s.profile params).filter.code))

/-- GET_STATUS (R329). -/
def execGetStatus (s : State) : Host.Outcome State Fault Refusal := .next (s.respond (statusWord s))

/-- CLEAR_ERR (R330). -/
def execClearErr (s : State) : Host.Outcome State Fault Refusal := .next { s with err := 0 }

/-- RESET (R331). -/
def execReset (s : State) : Host.Outcome State Fault Refusal := .next (powerOn s)

/-- SET_KNOB (R332): the pattern is stored as it is. -/
def execSetKnob (data : Word) (s : State) : Host.Outcome State Fault Refusal := .next { s with knob := data }

/-- GET_KNOB (R333). -/
def execGetKnob (s : State) : Host.Outcome State Fault Refusal := .next (s.respondCtl s.knob)

end Sys2Proof.Machine
end

