-- ==== Sys2Proof/Syntax.lean ====
section
/-!
DEFINITION. The instruction set: one constructor per row of spec/opcode_table.json, in the table's order (R130).
The first eleven are the `CMD` commands (R115), the next two the `CTL` commands (R116).
The other 32 are the algorithm operations a profile's selector codes name: twelve waves (R121), eight effects (R122), twelve filters (R123).
-/

namespace Sys2Proof

/-- An instruction. `note` is the field `NOTE` (R112), `count` the field `COUNT` (R113), `data` the data word `DATA` (R114). -/
inductive Instr
  | noteOn (note : Nat) (data : Word)
  | noteOff (note : Nat)
  | setRate (data : Word)
  | render (count : Nat)
  | getActiveNote
  | getWaveType
  | getWeirdType
  | getFilterType
  | getStatus
  | clearErr
  | reset
  | setKnob (data : Word)
  | getKnob
  | wSine
  | wSquare
  | wSaw
  | wTriangle
  | wPulse25
  | wPulse75
  | wWhite
  | wPink
  | wSupersaw
  | wFm
  | wSub
  | wCrackle
  | eWobbler
  | eGlitcher
  | eHarmonizer
  | eReverser
  | eBitcrusher
  | eRingmod
  | eGranular
  | eFiltersweep
  | fLadderLp
  | fLadderHp
  | fLadderBp
  | fNotch
  | fComb
  | fVowelA
  | fVowelE
  | fVowelI
  | fVowelO
  | fVowelU
  | fPhaser
  | fRingmod
deriving DecidableEq, Repr

end Sys2Proof
end

