-- ==== Sys2Proof/Machine/Dispatch.lean ====
section
/-!
DEFINITION. The dispatch: one arm per instruction, each one call of its meaning.
-/

namespace Sys2Proof.Machine

def exec (i : Instr) (s : State) : Host.Outcome State Fault Refusal :=
  match i with
  | .noteOn note data => Sys2Proof.Machine.execNoteOn note data s
  | .noteOff note => Sys2Proof.Machine.execNoteOff note s
  | .setRate data => Sys2Proof.Machine.execSetRate data s
  | .render count => Sys2Proof.Machine.execRender count s
  | .getActiveNote => Sys2Proof.Machine.execGetActiveNote s
  | .getWaveType => Sys2Proof.Machine.execGetWaveType s
  | .getWeirdType => Sys2Proof.Machine.execGetWeirdType s
  | .getFilterType => Sys2Proof.Machine.execGetFilterType s
  | .getStatus => Sys2Proof.Machine.execGetStatus s
  | .clearErr => Sys2Proof.Machine.execClearErr s
  | .reset => Sys2Proof.Machine.execReset s
  | .setKnob data => Sys2Proof.Machine.execSetKnob data s
  | .getKnob => Sys2Proof.Machine.execGetKnob s
  | .wSine => Sys2Proof.Machine.execWSine s
  | .wSquare => Sys2Proof.Machine.execWSquare s
  | .wSaw => Sys2Proof.Machine.execWSaw s
  | .wTriangle => Sys2Proof.Machine.execWTriangle s
  | .wPulse25 => Sys2Proof.Machine.execWPulse25 s
  | .wPulse75 => Sys2Proof.Machine.execWPulse75 s
  | .wWhite => Sys2Proof.Machine.execWWhite s
  | .wPink => Sys2Proof.Machine.execWPink s
  | .wSupersaw => Sys2Proof.Machine.execWSupersaw s
  | .wFm => Sys2Proof.Machine.execWFm s
  | .wSub => Sys2Proof.Machine.execWSub s
  | .wCrackle => Sys2Proof.Machine.execWCrackle s
  | .eWobbler => Sys2Proof.Machine.execEWobbler s
  | .eGlitcher => Sys2Proof.Machine.execEGlitcher s
  | .eHarmonizer => Sys2Proof.Machine.execEHarmonizer s
  | .eReverser => Sys2Proof.Machine.execEReverser s
  | .eBitcrusher => Sys2Proof.Machine.execEBitcrusher s
  | .eRingmod => Sys2Proof.Machine.execERingmod s
  | .eGranular => Sys2Proof.Machine.execEGranular s
  | .eFiltersweep => Sys2Proof.Machine.execEFiltersweep s
  | .fLadderLp => Sys2Proof.Machine.execFLadderLp s
  | .fLadderHp => Sys2Proof.Machine.execFLadderHp s
  | .fLadderBp => Sys2Proof.Machine.execFLadderBp s
  | .fNotch => Sys2Proof.Machine.execFNotch s
  | .fComb => Sys2Proof.Machine.execFComb s
  | .fVowelA => Sys2Proof.Machine.execFVowelA s
  | .fVowelE => Sys2Proof.Machine.execFVowelE s
  | .fVowelI => Sys2Proof.Machine.execFVowelI s
  | .fVowelO => Sys2Proof.Machine.execFVowelO s
  | .fVowelU => Sys2Proof.Machine.execFVowelU s
  | .fPhaser => Sys2Proof.Machine.execFPhaser s
  | .fRingmod => Sys2Proof.Machine.execFRingmod s

end Sys2Proof.Machine
end

