-- ==== Sys2Proof/WellFormed.lean ====
section
/-!
DEFINITION. Which instructions fit their encoding: a note is 8 bits (R112) and a frame count 24 bits (R113).
-/

namespace Sys2Proof

/-- The number of values of the field `NOTE`, `word[7:0]` (R112). -/
def noteValues : Nat := 2 ^ 8

/-- `FRAME_MAX`: the largest frame count of one RENDER (R9, R113). -/
def frameMax : Nat := 2 ^ 24 - 1

/-- Does every operand fit its field? A data word is any 32-bit pattern (R114), and the other instructions have no operand. -/
def Instr.wf : Instr → Bool
  | .noteOn note _ => decide (note < noteValues)
  | .noteOff note => decide (note < noteValues)
  | .render count => decide (count ≤ frameMax)
  | .setRate _ | .getActiveNote | .getWaveType | .getWeirdType | .getFilterType | .getStatus | .clearErr | .reset
  | .setKnob _ | .getKnob
  | .wSine | .wSquare | .wSaw | .wTriangle | .wPulse25 | .wPulse75 | .wWhite | .wPink | .wSupersaw | .wFm | .wSub
  | .wCrackle
  | .eWobbler | .eGlitcher | .eHarmonizer | .eReverser | .eBitcrusher | .eRingmod | .eGranular | .eFiltersweep
  | .fLadderLp | .fLadderHp | .fLadderBp | .fNotch | .fComb | .fVowelA | .fVowelE | .fVowelI | .fVowelO | .fVowelU
  | .fPhaser | .fRingmod => true

end Sys2Proof
end

