-- ==== Sys2Proof/Decode.lean ====
section
/-!
DEFINITION. Decoding and encoding: the port words of R110 to R120 and the selector codes of R121 to R123.
The decoder is total (R119): what stands at the front of a source is a legal instruction, an illegal command, or not complete yet.
-/

namespace Sys2Proof

/-- Where an instruction comes from: a command port, or the field of a profile that selects one algorithm of a bank (R130). -/
inductive Source
  | port (p : Port)
  | bank (b : Bank)
deriving DecidableEq, Repr

/-- What the decoder finds at the front of the words of a source; `rest` is what stands behind the words it consumes.
`hold`: no complete command has arrived (R120).
`illegal`: a reserved opcode, a reserved bit set, or a reserved selector code (R117, R118, R121, R123).
`ok`: a legal instruction. -/
inductive Decoded
  | hold
  | illegal (rest : List Word)
  | ok (i : Instr) (rest : List Word)
deriving DecidableEq, Repr

/-- The field `OPC`, `word[31:24]` (R110). -/
def opcode (w : Word) : Nat := w.toNat / 2 ^ 24

/-- The operand field, `word[23:0]` (R110); the whole of it is `COUNT` in format `C` (R113). -/
def operand (w : Word) : Nat := w.toNat % 2 ^ 24

/-- The field `NOTE`, `word[7:0]` (R112). -/
def noteField (w : Word) : Nat := w.toNat % 2 ^ 8

/-- Format `Z`: no operand, and every bit of the operand field reserved (R111, R117). -/
def formatZ (w : Word) (rest : List Word) (i : Instr) : Decoded :=
  if operand w = 0 then .ok i rest else .illegal rest

/-- Format `N`: a note, and bits [23:8] reserved (R111, R117). -/
def formatN (w : Word) (rest : List Word) (i : Nat → Instr) : Decoded :=
  if operand w / 2 ^ 8 = 0 then .ok (i (noteField w)) rest else .illegal rest

/-- Format `C`: a frame count in all of the operand field (R111, R113). -/
def formatC (w : Word) (rest : List Word) (i : Nat → Instr) : Decoded := .ok (i (operand w)) rest

/-- Format `ND`: a note and a data word. An illegal command is consumed with its data word (R111, R117, R120). -/
def formatND (w : Word) (rest : List Word) (i : Nat → Word → Instr) : Decoded :=
  match rest with
  | [] => .hold
  | d :: rest => if operand w / 2 ^ 8 = 0 then .ok (i (noteField w) d) rest else .illegal rest

/-- Format `D`: a data word, and every bit of the operand field reserved (R111, R117, R120). -/
def formatD (w : Word) (rest : List Word) (i : Word → Instr) : Decoded :=
  match rest with
  | [] => .hold
  | d :: rest => if operand w = 0 then .ok (i d) rest else .illegal rest

/-- The command at the front of the `CMD` port's words (R115, R118, R320). -/
def decodeCmd : List Word → Decoded
  | [] => .hold
  | w :: rest =>
    match opcode w with
    | 0x01 => formatND w rest .noteOn
    | 0x02 => formatN w rest .noteOff
    | 0x03 => formatD w rest .setRate
    | 0x04 => formatC w rest .render
    | 0x05 => formatZ w rest .getActiveNote
    | 0x06 => formatZ w rest .getWaveType
    | 0x07 => formatZ w rest .getWeirdType
    | 0x08 => formatZ w rest .getFilterType
    | 0x09 => formatZ w rest .getStatus
    | 0x0A => formatZ w rest .clearErr
    | 0x0B => formatZ w rest .reset
    | _ => .illegal rest

/-- The command at the front of the `CTL` port's words (R116, R118, R320). -/
def decodeCtl : List Word → Decoded
  | [] => .hold
  | w :: rest =>
    match opcode w with
    | 0x10 => formatD w rest .setKnob
    | 0x11 => formatZ w rest .getKnob
    | _ => .illegal rest

/-- The wave operation of a selector code (R121); the codes from 12 on are reserved. -/
def decodeWave : Nat → Option Instr
  | 0 => some .wSine
  | 1 => some .wSquare
  | 2 => some .wSaw
  | 3 => some .wTriangle
  | 4 => some .wPulse25
  | 5 => some .wPulse75
  | 6 => some .wWhite
  | 7 => some .wPink
  | 8 => some .wSupersaw
  | 9 => some .wFm
  | 10 => some .wSub
  | 11 => some .wCrackle
  | _ => none

/-- The effect operation of a selector code (R122): all eight codes of the 3-bit field are defined. -/
def decodeEffect : Nat → Option Instr
  | 0 => some .eWobbler
  | 1 => some .eGlitcher
  | 2 => some .eHarmonizer
  | 3 => some .eReverser
  | 4 => some .eBitcrusher
  | 5 => some .eRingmod
  | 6 => some .eGranular
  | 7 => some .eFiltersweep
  | _ => none

/-- The filter operation of a selector code (R123); the codes from 12 on are reserved. -/
def decodeFilter : Nat → Option Instr
  | 0 => some .fLadderLp
  | 1 => some .fLadderHp
  | 2 => some .fLadderBp
  | 3 => some .fNotch
  | 4 => some .fComb
  | 5 => some .fVowelA
  | 6 => some .fVowelE
  | 7 => some .fVowelI
  | 8 => some .fVowelO
  | 9 => some .fVowelU
  | 10 => some .fPhaser
  | 11 => some .fRingmod
  | _ => none

/-- The operation a selector code names in a bank. -/
def decodeSelector : Bank → Nat → Option Instr
  | .wave, c => decodeWave c
  | .effect, c => decodeEffect c
  | .filter, c => decodeFilter c

/-- The decoder: what stands at the front of the words of a source. A selector is one word holding its code. -/
def decode : Source → List Word → Decoded
  | .port .cmd, ws => decodeCmd ws
  | .port .ctl, ws => decodeCtl ws
  | .bank _, [] => .hold
  | .bank b, w :: rest =>
    match decodeSelector b w.toNat with
    | some i => .ok i rest
    | none => .illegal rest

/-! ### Bytes -/

/-- The word that four transported bytes carry: little-endian, bits [7:0] first (R81). -/
def wordOfBytes (b0 b1 b2 b3 : Byte) : Word :=
  BitVec.ofNat 32 (b0.toNat + b1.toNat * 2 ^ 8 + b2.toNat * 2 ^ 16 + b3.toNat * 2 ^ 24)

/-- The four bytes that carry a word (R81). -/
def bytesOfWord (w : Word) : List Byte :=
  [BitVec.ofNat 8 w.toNat, BitVec.ofNat 8 (w.toNat / 2 ^ 8), BitVec.ofNat 8 (w.toNat / 2 ^ 16),
    BitVec.ofNat 8 (w.toNat / 2 ^ 24)]

/-- The whole words that a run of bytes carries; one to three bytes at the end are a word that has not arrived whole (R91). -/
def wordsOfBytes : List Byte → List Word
  | b0 :: b1 :: b2 :: b3 :: rest => wordOfBytes b0 b1 b2 b3 :: wordsOfBytes rest
  | _ => []

/-- The decoder on a byte transport: total on any bytes. -/
def decodeBytes (src : Source) (bs : List Byte) : Decoded := decode src (wordsOfBytes bs)

/-! ### The encoder -/

/-- Where each instruction is issued: a command on its port, an operation by its bank's selector. -/
def Instr.source : Instr → Source
  | .noteOn _ _ | .noteOff _ | .setRate _ | .render _ | .getActiveNote | .getWaveType | .getWeirdType | .getFilterType
  | .getStatus | .clearErr | .reset => .port .cmd
  | .setKnob _ | .getKnob => .port .ctl
  | .wSine | .wSquare | .wSaw | .wTriangle | .wPulse25 | .wPulse75 | .wWhite | .wPink | .wSupersaw | .wFm | .wSub
  | .wCrackle => .bank .wave
  | .eWobbler | .eGlitcher | .eHarmonizer | .eReverser | .eBitcrusher | .eRingmod | .eGranular | .eFiltersweep =>
    .bank .effect
  | .fLadderLp | .fLadderHp | .fLadderBp | .fNotch | .fComb | .fVowelA | .fVowelE | .fVowelI | .fVowelO | .fVowelU
  | .fPhaser | .fRingmod => .bank .filter

/-- A command word: `OPC` in bits [31:24], the operand field in bits [23:0] (R110). -/
def commandWord (opc operand : Nat) : Word := BitVec.ofNat 32 (opc * 2 ^ 24 + operand)

/-- The words of an instruction, from the tables of R111, R115, R116, R121, R122 and R123. -/
def encode : Instr → List Word
  | .noteOn note data => [commandWord 0x01 note, data]
  | .noteOff note => [commandWord 0x02 note]
  | .setRate data => [commandWord 0x03 0, data]
  | .render count => [commandWord 0x04 count]
  | .getActiveNote => [commandWord 0x05 0]
  | .getWaveType => [commandWord 0x06 0]
  | .getWeirdType => [commandWord 0x07 0]
  | .getFilterType => [commandWord 0x08 0]
  | .getStatus => [commandWord 0x09 0]
  | .clearErr => [commandWord 0x0A 0]
  | .reset => [commandWord 0x0B 0]
  | .setKnob data => [commandWord 0x10 0, data]
  | .getKnob => [commandWord 0x11 0]
  | .wSine => [0]
  | .wSquare => [1]
  | .wSaw => [2]
  | .wTriangle => [3]
  | .wPulse25 => [4]
  | .wPulse75 => [5]
  | .wWhite => [6]
  | .wPink => [7]
  | .wSupersaw => [8]
  | .wFm => [9]
  | .wSub => [10]
  | .wCrackle => [11]
  | .eWobbler => [0]
  | .eGlitcher => [1]
  | .eHarmonizer => [2]
  | .eReverser => [3]
  | .eBitcrusher => [4]
  | .eRingmod => [5]
  | .eGranular => [6]
  | .eFiltersweep => [7]
  | .fLadderLp => [0]
  | .fLadderHp => [1]
  | .fLadderBp => [2]
  | .fNotch => [3]
  | .fComb => [4]
  | .fVowelA => [5]
  | .fVowelE => [6]
  | .fVowelI => [7]
  | .fVowelO => [8]
  | .fVowelU => [9]
  | .fPhaser => [10]
  | .fRingmod => [11]

/-! ### The table's words -/

/-- The words of an instruction given as one number, bit 0 the least significant bit of the first word. -/
def tableWords (w : Nat) : List Word := [BitVec.ofNat 32 w, BitVec.ofNat 32 (w / 2 ^ 32)]

/-- The source a table row's word belongs to. A row of a whole port word is a command, of `CTL` if `CMD` does not know its opcode
and `CTL` does (no opcode is on both ports, R115, R116).
A shorter row is a selector code. The three banks use the same codes, and only the profile field that holds a code tells its bank
(R121 to R123), which a number does not say: 3 bits can only be an effect's field, anything else is taken as a wave's (log entry 9). -/
def tableSource (nbits w : Nat) : Source :=
  if 32 ≤ nbits then
    match opcode (BitVec.ofNat 32 w) with
    | 0x10 => .port .ctl
    | 0x11 => .port .ctl
    | _ => .port .cmd
  else if nbits ≤ 3 then .bank .effect
  else .bank .wave

/-- The instruction the decoder reads from a table row's word of `nbits` bits, the bits above them 0. -/
def decodeTableWord (nbits w : Nat) : Option Instr :=
  match decode (tableSource nbits w) (tableWords (w % 2 ^ nbits)) with
  | .ok i _ => some i
  | _ => none

end Sys2Proof
end

