-- ==== Sys2Proof/Machine/Ports.lean ====
section
/-!
DEFINITION. The ports: when a command can be performed and when it holds (R91, R120, R320, R399), whose turn it is (R95, R96, R372), and what the host does at the
five streams (R8, R65, R80), by name or by the address at which a platform maps one (R94).
-/

namespace Sys2Proof.Machine

/-- Would the instruction append to a stream that is full? Then it holds (R399).
A RENDER is not held here: it starts, and holds at the tick that finds `OUT` full. -/
def holds (i : Instr) (s : State) : Bool :=
  match i with
  | .getActiveNote | .getWaveType | .getWeirdType | .getFilterType | .getStatus => s.rsp.full
  | .getKnob => s.crsp.full
  | .noteOn _ _ | .noteOff _ | .setRate _ | .render _ | .clearErr | .reset | .setKnob _
  | .wSine | .wSquare | .wSaw | .wTriangle | .wPulse25 | .wPulse75 | .wWhite | .wPink | .wSupersaw | .wFm | .wSub
  | .wCrackle
  | .eWobbler | .eGlitcher | .eHarmonizer | .eReverser | .eBitcrusher | .eRingmod | .eGranular | .eFiltersweep
  | .fLadderLp | .fLadderHp | .fLadderBp | .fNotch | .fComb | .fVowelA | .fVowelE | .fVowelI | .fVowelO | .fVowelU
  | .fPhaser | .fRingmod => false

/-- Can what the decoder found be performed now? -/
def performable (d : Decoded) (s : State) : Bool :=
  match d with
  | .hold => false
  | .illegal _ => true
  | .ok i _ => !holds i s

/-- Has `CMD` something to perform? A held RENDER comes first, once `OUT` has room (R95, R399). -/
def cmdReady (s : State) : Bool :=
  if s.renderLeft = 0 then performable (decode (.port .cmd) s.cmd) s else !s.out.full

/-- Has `CTL` something to perform? -/
def ctlReady (s : State) : Bool := performable (decode (.port .ctl) s.ctl) s

/-- Whose turn it is: the port that has something to perform; when both have, a free draw (R96, R372); none, and the block idles (R402). -/
def turn (P : Params) (s : State) : Option Port :=
  match cmdReady s, ctlReady s with
  | false, false => none
  | true, false => some .cmd
  | false, true => some .ctl
  | true, true => some (if P.ctlTurn s.turns then .ctl else .cmd)

/-- The state after the draw of a turn: the counter moves on when both ports were ready. -/
def afterTurn (s : State) : State :=
  if cmdReady s && ctlReady s then { s with turns := s.turns + 1 } else s

/-- The words waiting on a port. -/
def State.waiting (p : Port) (s : State) : List Word :=
  match p with
  | .cmd => s.cmd
  | .ctl => s.ctl

/-- The state with other words waiting on a port. -/
def State.setWaiting (p : Port) (ws : List Word) (s : State) : State :=
  match p with
  | .cmd => { s with cmd := ws }
  | .ctl => { s with ctl := ws }

/-- An illegal command: its words are consumed and its port's flag is raised, nothing else (R117, R118, R320). -/
def illegalCommand (p : Port) (rest : List Word) (s : State) : State :=
  (s.setWaiting p rest).raise (illegalFlag p)

/-- A held RENDER goes on (R399). -/
def resumeRender (P : Params) (s : State) : State := renderTicks P s.renderLeft s

/-! ### One step -/

/-- The port `p` performs what stands at its front (R320), `run` being what an instruction does. -/
def stepPort (run : Instr → State → Host.Outcome State Fault Refusal) (p : Port) (s : State) : Host.Outcome State Fault Refusal :=
  match decode (.port p) (s.waiting p) with
  | .hold => .next s
  | .illegal rest => .next (illegalCommand p rest s)
  | .ok i rest => run i (s.setWaiting p rest)

/-- A bank runs the selector it was handed, or refuses a reserved code (R121, R123). -/
def stepSelector (run : Instr → State → Host.Outcome State Fault Refusal) (sel : Selector) (s : State) :
    Host.Outcome State Fault Refusal :=
  match decode (.bank sel.bank) [sel.code] with
  | .ok i _ => run i { s with handed := none }
  | _ => .refused (.reservedSelector sel.bank sel.code)

/-- One step of the machine of parameters `P` whose instructions `run` performs: one command to completion on one port (R7, R95, R320), or one illegal
command consumed, or a held RENDER resumed, or nothing while no port has anything to perform (R402). -/
def stepOf (P : Params) (run : Instr → State → Host.Outcome State Fault Refusal) (s : State) : Host.Outcome State Fault Refusal :=
  match s.handed with
  | some sel => stepSelector run sel s
  | none =>
    match turn P s with
    | none => .next s
    | some .ctl => stepPort run .ctl (afterTurn s)
    | some .cmd =>
      if s.renderLeft = 0 then stepPort run .cmd (afterTurn s)
      else .next (resumeRender P (afterTurn s))

/-! ### The fetch of a table row's word -/

/-- The words of the port command that `ws` begins with: two for a format with a data word, else one (R110, R129). -/
def commandWords (ws : List Word) : List Word :=
  match ws with
  | [] => []
  | w :: rest =>
    match opcode w with
    | 0x01 => w :: rest.take 1
    | 0x03 => w :: rest.take 1
    | 0x10 => w :: rest.take 1
    | _ => [w]

/-- Place the words of one instruction where the next step fetches: a command alone on its port, a selector handed to its bank. -/
def State.place (src : Source) (ws : List Word) (s : State) : State :=
  match src with
  | .port .cmd => { s with cmd := commandWords ws, ctl := [], renderLeft := 0, handed := none }
  | .port .ctl => { s with cmd := [], ctl := commandWords ws, renderLeft := 0, handed := none }
  | .bank b => { s with handed := some ⟨b, ws.headD 0⟩ }

/-! ### What the host does at the ports -/

/-- The host puts one word on a port (R8, R95). -/
def State.hostWrite (p : Port) (w : Word) (s : State) : State := s.setWaiting p (s.waiting p ++ [w])

/-- The host takes the oldest word of a stream (R65, R399). -/
def Stream.take (q : Stream) : Option (Word × Stream) :=
  match q.words with
  | [] => none
  | w :: ws => some (w, { q with words := ws })

/-- The three output streams (R65). -/
inductive OutPort
  | out
  | rsp
  | crsp
deriving DecidableEq, Repr

/-- The host takes the oldest word of one of the output streams, if there is one (R8, R65). -/
def State.hostTake (q : OutPort) (s : State) : Option (Word × State) :=
  match q with
  | .out => s.out.take.map fun r => (r.1, { s with out := r.2 })
  | .rsp => s.rsp.take.map fun r => (r.1, { s with rsp := r.2 })
  | .crsp => s.crsp.take.map fun r => (r.1, { s with crsp := r.2 })

/-! ### The ports of a platform that maps them into memory (R94) -/

/-- No two ports that the host writes share an address, and no two that it reads. One that it writes and one that it reads may. -/
def PortMap.wf (M : PortMap) : Bool :=
  (M.cmd = none || M.cmd != M.ctl) && (M.out = none || (M.out != M.rsp && M.out != M.crsp)) && (M.rsp = none || M.rsp != M.crsp)

/-- The command port mapped at an address. -/
def PortMap.commandAt (M : PortMap) (a : Nat) : Option Port :=
  if M.cmd = some a then some .cmd else if M.ctl = some a then some .ctl else none

/-- The output stream mapped at an address. -/
def PortMap.outputAt (M : PortMap) (a : Nat) : Option OutPort :=
  if M.out = some a then some .out else if M.rsp = some a then some .rsp else if M.crsp = some a then some .crsp else none

/-- The platform stores a word at an address: the command port mapped there takes it. None where none is: the block has no other address (R80, R94,
log entry 15). -/
def State.storeAt (P : Params) (a : Nat) (w : Word) (s : State) : Option State :=
  (P.portMap.commandAt a).map fun p => s.hostWrite p w

/-- The platform loads a word from an address: the oldest word of the output stream mapped there. None where no stream is, or an empty one: no rule gives
a word for it (log entry 15). -/
def State.loadAt (P : Params) (a : Nat) (s : State) : Option (Word × State) :=
  (P.portMap.outputAt a).bind fun q => s.hostTake q

end Sys2Proof.Machine
end

