-- ==== Sys2Proof/Machine/Step.lean ====
section
/-!
DEFINITION. The step of the machine at the spec's default parameters, and where a table row's word is fetched from.
-/

namespace Sys2Proof.Machine

/-- One step (`stepOf`, Machine/Ports.lean) at the spec's parameters, its instructions performed by `exec`. -/
def step (s : State) : Host.Outcome State Fault Refusal := stepOf params exec s

/-- The state with a table row's word of `nbits` bits (the bits above them 0) placed where the next step fetches. -/
def State.withFetchWord (s : State) (nbits w : Nat) : State :=
  s.place (tableSource nbits w) (tableWords (w % 2 ^ nbits))

end Sys2Proof.Machine
end

