-- ==== Sys2Proof/Machine/Assembler.lean ====
section
/-!
DEFINITION. The host's side of the command set: assembler lines (R127), pseudo-instructions (R128) and the display names of the selector codes (R124).
Nothing here is state of the block, and no step depends on it.
-/

namespace Sys2Proof.Machine

/-! ### Pseudo-instructions -/

/-- The pseudo-instructions (R128). -/
inductive Pseudo
  | tick
  | retrigger (note : Nat) (data : Word)
  | setKnobPos (k : Nat)
  | panic
deriving DecidableEq, Repr

/-- `bits(f32(v))` of a value that is no NaN: how an operand is assembled (R127). -/
def floatWord (v : NUM) : Word := NUM.bits32 0 v

/-- The expansion of a pseudo-instruction (R128). -/
def Pseudo.expand : Pseudo → List Instr
  | .tick => [.render 1]
  | .retrigger note data => [.noteOff note, .noteOn note data]
  | .setKnobPos k => [.setKnob (floatWord ((lit k).div (lit 127)))]
  | .panic => [.reset]

/-! ### Assembler lines -/

/-- The value of a decimal digit. -/
def digitVal (c : Char) : Option Nat :=
  if '0' ≤ c ∧ c ≤ '9' then some (c.toNat - '0'.toNat) else none

/-- A run of digits read as a decimal integer, with the number of digits; `acc` and `n` are what is read so far. -/
def readDigits (acc n : Nat) : List Char → Option (Nat × Nat)
  | [] => some (acc, n)
  | c :: cs =>
    match digitVal c with
    | some d => readDigits (acc * 10 + d) (n + 1) cs
    | none => none

/-- A decimal integer: one digit or more. -/
def readNat (cs : List Char) : Option Nat :=
  match readDigits 0 0 cs with
  | some (v, _ + 1) => some v
  | _ => none

/-- The characters before the first `stop`, and those behind it if there is one. -/
def cutAt (stop : Char) : List Char → List Char × Option (List Char)
  | [] => ([], none)
  | c :: cs =>
    if c = stop then ([], some cs)
    else
      let (a, b) := cutAt stop cs
      (c :: a, b)

/-- A decimal float without its sign: digits, and after a point more digits. -/
def readUnsigned (cs : List Char) : Option NUM :=
  match cutAt '.' cs with
  | (whole, none) => (readNat whole).map lit
  | (whole, some frac) =>
    match readNat whole, readDigits 0 0 frac with
    | some w, some (f, n + 1) => some (dec (w * 10 ^ (n + 1) + f) (10 ^ (n + 1)))
    | _, _ => none

/-- A decimal float (R127). -/
def readFloat : List Char → Option NUM
  | '-' :: cs => (readUnsigned cs).map NUM.neg
  | cs => readUnsigned cs

/-- Blanks dropped from the front. -/
def trimLeft : List Char → List Char
  | c :: cs => if c = ' ' then trimLeft cs else c :: cs
  | [] => []

/-- Blanks dropped at both ends. -/
def trim (cs : List Char) : List Char := (trimLeft (trimLeft cs).reverse).reverse

/-- The operands behind a mnemonic, separated by commas (R127). -/
def splitOperands (cs : List Char) : List (List Char) :=
  match cs with
  | [] => []
  | cs => (cs.splitOn ',').map trim

/-- The instruction of a mnemonic and its operand texts (R127): a note is 0 to 255, a count 0 to 16777215. -/
def readInstr (mnemonic : List Char) (ops : List (List Char)) : Option Instr :=
  let note (f : Nat → Instr) (a : List Char) : Option Instr :=
    match readNat a with
    | some n => if n < noteValues then some (f n) else none
    | none => none
  let float (f : Word → Instr) (a : List Char) : Option Instr := (readFloat a).map fun v => f (floatWord v)
  match ops with
  | [] =>
    if mnemonic = "GET_ACTIVE_NOTE".toList then some .getActiveNote
    else if mnemonic = "GET_WAVE_TYPE".toList then some .getWaveType
    else if mnemonic = "GET_WEIRD_TYPE".toList then some .getWeirdType
    else if mnemonic = "GET_FILTER_TYPE".toList then some .getFilterType
    else if mnemonic = "GET_STATUS".toList then some .getStatus
    else if mnemonic = "CLEAR_ERR".toList then some .clearErr
    else if mnemonic = "RESET".toList then some .reset
    else if mnemonic = "GET_KNOB".toList then some .getKnob
    else none
  | [a] =>
    if mnemonic = "NOTE_OFF".toList then note .noteOff a
    else if mnemonic = "SET_RATE".toList then float .setRate a
    else if mnemonic = "SET_KNOB".toList then float .setKnob a
    else if mnemonic = "RENDER".toList then
      match readNat a with
      | some m => if m ≤ frameMax then some (.render m) else none
      | none => none
    else none
  | [a, b] =>
    if mnemonic = "NOTE_ON".toList then
      match readFloat b with
      | some v => note (fun n => .noteOn n (floatWord v)) a
      | none => none
    else none
  | _ => none

/-- The port a line goes to: `CTL` with the prefix, else the instruction's own (R127). -/
def linePort (ctlPrefix : Bool) (i : Instr) : Port :=
  if ctlPrefix then .ctl else
    match i.source with
    | .port p => p
    | .bank _ => .cmd

/-- One assembler line: a `;` starts a comment, `ctl:` sends the line to `CTL`; the port and the words it assembles to (R127). -/
def assembleLine (line : List Char) : Option (Port × List Word) :=
  let body := trim (cutAt ';' line).1
  let pre := "ctl:".toList
  let isCtl := pre.isPrefixOf body
  let body := if isCtl then trim (body.drop pre.length) else body
  match cutAt ' ' body with
  | (mnemonic, rest) =>
    (readInstr mnemonic (splitOperands (trim (rest.getD [])))).map fun i => (linePort isCtl i, encode i)

/-! ### Display names -/

/-- The display name of a wave code, from the suggestion of R124. -/
def waveName (code : Nat) : Option String :=
  ["Sine", "Square", "Saw", "Triangle", "Pulse 25%", "Pulse 75%", "White Noise", "Pink Noise", "Super Saw", "FM",
    "Sub Blend", "Crackle"][code]?

/-- The display name of an effect code (R124). -/
def effectName (code : Nat) : Option String :=
  ["Wobbler", "Glitcher", "Harmonizer", "Reverser", "BitCrusher", "RingMod", "Granular", "FilterSweep"][code]?

/-- The display name of a filter code, from the suggestion of R124. -/
def filterName (code : Nat) : Option String :=
  ["Ladder LP", "Ladder HP", "Ladder BP", "Notch", "Comb", "Vowel A", "Vowel E", "Vowel I", "Vowel O", "Vowel U",
    "Phaser", "Ring Filter"][code]?

end Sys2Proof.Machine
end

