-- ==== Sys2Proof/Machine/Parametric.lean ====
section
/-!
DEFINITION. The machine with the OPEN parameters as an argument, as R9 asks: "a model must take the value as an argument and the given value is only the
spec's default". `exec`, `step` and `core`, whose types the interface fixes, are this machine at `params` (Laws/Parametric.lean).
-/

namespace Sys2Proof.Machine

/-- What an instruction does at the parameters `P`: the operation behind its meaning in `exec`. -/
def execWith (P : Params) (i : Instr) (s : State) : Host.Outcome State Fault Refusal :=
  match i with
  | .noteOn note data => .next (noteOn P note data s)
  | .noteOff note => .next (noteOff note s)
  | .setRate data => .next (setRate P data s)
  | .render count => .next (render P count s)
  | .getActiveNote => .next (s.respond (activeNoteWord s.voice.active))
  | .getWaveType => .next (s.respond (codeWord (s.profile P).wave.code))
  | .getWeirdType => .next (s.respond (codeWord (s.profile P).effect.code))
  | .getFilterType => .next (s.respond (codeWord (s.profile P).filter.code))
  | .getStatus => .next (s.respond (statusWord s))
  | .clearErr => .next { s with err := 0 }
  | .reset => .next (powerOn s)
  | .setKnob data => .next { s with knob := data }
  | .getKnob => .next (s.respondCtl s.knob)
  | .wSine => .next (waveSine P s)
  | .wSquare => .next (waveSquare P s)
  | .wSaw => .next (waveSaw P s)
  | .wTriangle => .next (waveTriangle P s)
  | .wPulse25 => .next (wavePulse25 P s)
  | .wPulse75 => .next (wavePulse75 P s)
  | .wWhite => .next (waveWhite P s)
  | .wPink => .next (wavePink P s)
  | .wSupersaw => .next (waveSupersaw P s)
  | .wFm => .next (waveFm P s)
  | .wSub => .next (waveSub P s)
  | .wCrackle => .next (waveCrackle P s)
  | .eWobbler => .next (effectWobbler P s)
  | .eGlitcher => .next (effectGlitcher P s)
  | .eHarmonizer => .next (effectHarmonizer P s)
  | .eReverser => .next (effectReverser P s)
  | .eBitcrusher => .next (effectBitcrusher P s)
  | .eRingmod => .next (effectRingmod P s)
  | .eGranular => .next (effectGranular P s)
  | .eFiltersweep => .next (effectFiltersweep P s)
  | .fLadderLp => .next (filterLadderLp P s)
  | .fLadderHp => .next (filterLadderHp P s)
  | .fLadderBp => .next (filterLadderBp P s)
  | .fNotch => .next (filterNotch P s)
  | .fComb => .next (filterComb P s)
  | .fVowelA => .next (filterVowelA P s)
  | .fVowelE => .next (filterVowelE P s)
  | .fVowelI => .next (filterVowelI P s)
  | .fVowelO => .next (filterVowelO P s)
  | .fVowelU => .next (filterVowelU P s)
  | .fPhaser => .next (filterPhaser P s)
  | .fRingmod => .next (filterRingmod P s)

/-- One step at the parameters `P`. -/
def stepWith (P : Params) (s : State) : Host.Outcome State Fault Refusal := stepOf P (execWith P) s

/-- The machine right after power-on at the parameters `P`: the streams have its depths (R9, R69). -/
def State.resetWith (P : Params) : State :=
  { State.reset with out := ⟨[], P.outDepth⟩, rsp := ⟨[], P.rspDepth⟩, crsp := ⟨[], P.crspDepth⟩ }

/-- The block at the parameters `P`. -/
def machineWith (P : Params) : Host.Core where
  State := State
  Fault := Fault
  Refusal := Refusal
  step := stepWith P
  reset := State.resetWith P

end Sys2Proof.Machine
end

