-- ==== Sys2Proof/Machine/Runs.lean ====
section
/-!
DEFINITION. Runs of the block with its two agents (R8), and the fairness assumption of R96: "Eventual visibility means that every issued SET_KNOB is in the
prefix of some later latch. A model states it as a fairness assumption, not as a step."
A claim about a fair run takes `Run.EventuallyVisible` as a hypothesis; no step depends on it.
-/

namespace Sys2Proof.Machine

/-- What can happen next: the block steps, the host puts a word on a port, or the host takes a word of an output stream (R8, R65). -/
inductive Event
  | step
  | write (p : Port) (w : Word)
  | take (q : OutPort)
deriving DecidableEq, Repr

/-- The event leads from `s` to `t`, for the block at the parameters `P`. -/
def Event.Leads (P : Params) (e : Event) (s t : State) : Prop :=
  match e with
  | .step => stepWith P s = .next t
  | .write p w => t = s.hostWrite p w
  | .take q => ∃ w, s.hostTake q = some (w, t)

/-- An endless run of the block and its agents. -/
structure Run (P : Params) where
  state   : Nat → State
  event   : Nat → Event
  follows : ∀ n, (event n).Leads P (state n) (state (n + 1))

/-- Is it a number of whole `CTL` commands, legal or illegal (R110, R117, R118)? -/
inductive WholeCommands : List Word → Prop
  | nil : WholeCommands []
  | legal {ws rest : List Word} {i : Instr} : decode (.port .ctl) (ws ++ rest) = .ok i rest → WholeCommands rest → WholeCommands (ws ++ rest)
  | illegal {ws rest : List Word} : decode (.port .ctl) (ws ++ rest) = .illegal rest → WholeCommands rest → WholeCommands (ws ++ rest)

/-- At time `n` a SET_KNOB has been issued and not performed, and the words of `CTL` waiting up to its end are `k` (R96, R332). -/
def Run.Issued {P : Params} (r : Run P) (n k : Nat) : Prop :=
  ∃ (before after : List Word) (data : Word), WholeCommands before ∧
    (r.state n).ctl = before ++ (encode (.setKnob data) ++ after) ∧ k = before.length + 2

/-- The words of `CTL` the block has consumed before time `n`. -/
def Run.taken {P : Params} (r : Run P) : Nat → Nat
  | 0 => 0
  | n + 1 =>
    match r.event n with
    | .step => r.taken n + ((r.state n).ctl.length - (r.state (n + 1)).ctl.length)
    | .write _ _ => r.taken n
    | .take _ => r.taken n

/-- The step at time `n` latches the knob: it performs a RENDER at a valid rate (R62, R324). -/
def Run.LatchesAt {P : Params} (r : Run P) (n : Nat) : Prop :=
  r.event n = .step ∧ (r.state n).handed = none ∧ turn P (r.state n) = some .cmd ∧ (r.state n).renderLeft = 0 ∧
    (r.state n).rateValid = true ∧ ∃ m rest, decode (.port .cmd) (r.state n).cmd = .ok (.render m) rest

/-- Eventual visibility, the fairness assumption of R96 (I9): every issued SET_KNOB is in the prefix of `CTL` commands performed by some later latch. -/
def Run.EventuallyVisible {P : Params} (r : Run P) : Prop :=
  ∀ n k, r.Issued n k → ∃ m, n ≤ m ∧ r.LatchesAt m ∧ r.taken n + k ≤ r.taken m

/-- The block steps again and again. -/
def Run.KeepsStepping {P : Params} (r : Run P) : Prop := ∀ n, ∃ m, n ≤ m ∧ r.event m = .step

/-- RENDERs latch the knob again and again. -/
def Run.KeepsLatching {P : Params} (r : Run P) : Prop := ∀ n, ∃ m, n ≤ m ∧ r.LatchesAt m

/-- When both ports are ready again and again, `CTL` gets its turn again and again: the fairness of the free draw that gives a run eventual
visibility (Laws/Runs.lean). -/
def FairTurns (ctlTurn : Nat → Bool) : Prop := ∀ n, ∃ m, n ≤ m ∧ ctlTurn m = true

end Sys2Proof.Machine
end

