-- ==== Sys2Proof/Safety.lean ====
section
/-!
DEFINITION. What a claim means by a good state: the invariants of R70 and of the register descriptions R34 to R60, one predicate each, and the runs that never stop.
-/

namespace Sys2Proof

/-- `0 ≤ x < 1`: where a phase lies (R70). -/
def NUM.inUnit (x : NUM) : Bool := NUM.zero.le x && x.lt .one

/-- `0 ≤ x ≤ 1`: where the envelope and the velocity lie (R70). -/
def NUM.inClosedUnit (x : NUM) : Bool := NUM.zero.le x && x.le .one

/-- `lo ≤ x < hi`: where a table field lies (R153, R155). -/
def NUM.between (x lo hi : NUM) : Bool := lo.le x && x.lt hi

/-- Is `r` the binary64 value nearest to the exact value `p / q` units, ties to even (R11)? A finite `r` is a binary64 value of the sign of `p`, no
other is nearer, of two that are as near it is the one whose last place is even, and the exact value is less than half a last place above the largest
finite one; from there on an infinity of its sign stands. -/
def NUM.Nearest (p : Int) (q : Nat) (r : NUM) : Prop :=
  match r with
  | .nan => False
  | .inf neg => (neg = true ↔ p < 0) ∧ (NUM.top - 2 ^ (NUM.topScale - 54)) * q ≤ p.natAbs
  | .fin neg m =>
    (NUM.fin neg m).wf = true ∧ (m ≠ 0 → (neg = true ↔ p < 0)) ∧
      p.natAbs < (NUM.top - 2 ^ (NUM.topScale - 54)) * q ∧
      ∀ n, (NUM.fin false n).wf = true →
        ((p.natAbs : Int) - m * q).natAbs ≤ ((p.natAbs : Int) - n * q).natAbs ∧
        (((p.natAbs : Int) - m * q).natAbs = ((p.natAbs : Int) - n * q).natAbs → n ≠ m →
          m / 2 ^ (Nat.log2 m + 1 - 53) % 2 = 0)

namespace Machine

/-- The rate registers agree, at the parameters `P` (R57 to R60): an accepted rate lies between `RATE_MIN` and the largest delay line, with `DL_LEN`
and `GP` computed from it; without one they hold their reset values. -/
def State.RateInvWith (P : Params) (s : State) : Prop :=
  if s.rateValid then
    badRate P s.fs = false ∧ s.fs.isFinite ∧ s.dlLen = delayLength P s.fs ∧ s.gp = glitchPeriod P s.fs
  else s.fs = .zero ∧ s.dlLen = 1 ∧ s.gp = 0

/-- The rate registers of the machine agree (R57 to R60). -/
def State.RateInv (s : State) : Prop := s.RateInvWith params

/-- The voice registers the host can tell apart (R70): the envelope and the velocity in [0, 1], Silent exactly when no note is active, and a held RENDER
only at a valid rate. -/
def State.VoiceInv (s : State) : Prop :=
  s.RateInv ∧ s.voice.env.inClosedUnit ∧ s.voice.vel.inClosedUnit ∧ (s.voice.vstate = .silent ↔ s.voice.active = none) ∧
    (s.renderLeft ≠ 0 → s.rateValid)

/-- The delay line (R55, R56, R70, R89): canonical, its valid entries below `DL_LEN`, the write index below `DL_LEN`, which is at least 1 and at most
`DELAY_MAX`. -/
def State.DelayInv (s : State) : Prop :=
  s.RateInv ∧ s.dlLen ≤ params.delayMax ∧ s.voice.dlW < s.dlLen ∧ Memory.wf params.delayMax s.voice.dl ∧
    ∀ c ∈ s.voice.dl, c.valid → c.index < s.dlLen

/-- The counters (R45, R375): `GLITCH_CNT` below `max(GP, 1)`, and the crackle timer at most 3840 (log entry 8). -/
def State.CounterInv (s : State) : Prop :=
  s.RateInv ∧ s.voice.glitchCnt < max s.gp 1 ∧ s.voice.crackleT ≤ 3840

/-- The NUM values held four at a time. -/
def Four.nums (f : Four) : List NUM := [f.v0, f.v1, f.v2, f.v3]

/-- The NUM values held seven at a time. -/
def Seven.nums (f : Seven) : List NUM := [f.v0, f.v1, f.v2, f.v3, f.v4, f.v5, f.v6]

/-- The phase registers of the bank, the effects and the filters, but for `RMF_PH` (R37 to R40, R44, R46 to R48, R52). -/
def Voice.phases (v : Voice) : List NUM :=
  [v.ph, v.phSub, v.phFm] ++ v.phSs.nums ++ [v.wobPh, v.harmPh, v.ringPh, v.grainPh, v.flfoPh]

/-- Those phases lie in [0, 1), and `FREQ` between 0 and 20000 Hz (R70); ticks are owed, or a bank is handed a selector, only at a valid rate. -/
def State.PhaseInv (P : Params) (s : State) : Prop :=
  s.RateInvWith P ∧ (s.renderLeft ≠ 0 ∨ s.handed ≠ none → s.rateValid) ∧
    NUM.zero.le s.voice.freq ∧ s.voice.freq.le (lit 20000) ∧ ∀ x ∈ s.voice.phases, x.inUnit

/-- Every phase register lies in [0, 1), `RMF_PH` too (R54, R70). -/
def State.AllPhasesInv (P : Params) (s : State) : Prop := s.PhaseInv P ∧ s.voice.rmfPh.inUnit

/-- TRIG functions in the range of the mathematical ones where a phase depends on it: a sine from −1 to 1, as the ranges of R265 take it, and a power of
2 up to the 5th from 0 to 32. -/
def Trig.InRange (T : Trig) : Prop :=
  (∀ x, x.isFinite → NUM.one.neg.le (T.sin x) ∧ (T.sin x).le .one) ∧
    ∀ x, x.isFinite → x.le (lit 5) → NUM.zero.le (T.pow2 x) ∧ (T.pow2 x).le (lit 32)

/-- Every NUM value of the voice state. -/
def Voice.nums (v : Voice) : List NUM :=
  [v.vel, v.freq, v.env, v.ph, v.phSub, v.phFm, v.pink, v.wobPh, v.harmPh, v.ringPh, v.grainPh, v.sweepLp, v.flfoPh,
    v.rmfPh, v.rmfLp] ++ v.phSs.nums ++ v.lad.nums ++ v.phs.nums ++ v.fmt.nums ++ v.dl.map DelayCell.value

/-- Every NUM register and wire holds a binary64 value (R9, R11, R30). -/
def State.Binary64 (s : State) : Prop :=
  ∀ x ∈ s.voice.nums ++ [s.fs, s.wires.x0, s.wires.x1, s.wires.x2], NUM.wf x

/-- The voice is silent with no active note: where every run begins (R302). -/
def State.Silenced (s : State) : Prop := s.voice.vstate = .silent ∧ s.voice.active = none

/-- A step from `s` goes on: the block has no fault (R360), and only a reserved selector handed to a bank is refused (R121, R123). -/
def State.GoesOn (s : State) : Prop := ∃ t, step s = .next t

end Machine

end Sys2Proof
end

