-- ==== Sys2Proof/Certificates/Slice0/Obligations.lean ====
section
/-!
DEFINITION. The statements for the provers, each from the numbered rules of spec/.
A result statement gives the whole next state, so it is the frame as well: a register it does not name keeps its value.
-/

open Sys2Proof Sys2Proof.Machine

/-! ### Encoding -/

/-- An example word or two of each of the eleven `CMD` and two `CTL` commands (R127, R321 to R333), and the first and last selector codes of R121 to R123 decode to what they stand for. -/
def Obligations.SampleWordsDecode : Prop :=
  decode (.port .cmd) [0x0100003C, 0x3F800000] = .ok (.noteOn 60 0x3F800000) [] ∧
  decode (.port .cmd) [0x0200003C] = .ok (.noteOff 60) [] ∧
  decode (.port .cmd) [0x03000000, 0x472C4400] = .ok (.setRate 0x472C4400) [] ∧
  decode (.port .cmd) [0x04000064] = .ok (.render 100) [] ∧
  decode (.port .cmd) [0x05000000] = .ok .getActiveNote [] ∧
  decode (.port .cmd) [0x06000000] = .ok .getWaveType [] ∧
  decode (.port .cmd) [0x07000000] = .ok .getWeirdType [] ∧
  decode (.port .cmd) [0x08000000] = .ok .getFilterType [] ∧
  decode (.port .cmd) [0x09000000] = .ok .getStatus [] ∧
  decode (.port .cmd) [0x0A000000] = .ok .clearErr [] ∧
  decode (.port .cmd) [0x0B000000] = .ok .reset [] ∧
  decode (.port .ctl) [0x10000000, 0x3F000000] = .ok (.setKnob 0x3F000000) [] ∧
  decode (.port .ctl) [0x11000000] = .ok .getKnob [] ∧
  decode (.bank .wave) [0] = .ok .wSine [] ∧
  decode (.bank .wave) [11] = .ok .wCrackle [] ∧
  decode (.bank .effect) [7] = .ok .eFiltersweep [] ∧
  decode (.bank .filter) [4] = .ok .fComb []

/-- Decoding an encoded well-formed instruction at its own source gives it back, and leaves the words behind it. -/
def Obligations.EncodeThenDecode : Prop :=
  ∀ (i : Instr) (rest : List Word), i.wf = true → decode i.source (encode i ++ rest) = .ok i rest

/-- Whatever decodes is the encoding of a well-formed instruction of that source: each word has one meaning. -/
def Obligations.DecodeThenEncode : Prop :=
  ∀ (src : Source) (ws rest : List Word) (i : Instr),
    decode src ws = .ok i rest → i.wf = true ∧ i.source = src ∧ ws = encode i ++ rest

/-- R110: `OPC` is bits [31:24] and the operand field bits [23:0], and the opcode alone decides how many words a command takes:
two for formats `ND` and `D`, one for every other format and for every reserved opcode. -/
def Obligations.CommandLengthFromOpcode : Prop :=
  ∀ (p : Port) (w d : Word) (rest : List Word),
    opcode w = (w.extractLsb' 24 8).toNat ∧ operand w = (w.extractLsb' 0 24).toNat ∧
      (let hasData := (p = .cmd ∧ (opcode w = 0x01 ∨ opcode w = 0x03)) ∨ (p = .ctl ∧ opcode w = 0x10);
        (decode (.port p) [w] = .hold ↔ hasData) ∧
        (hasData → decode (.port p) (w :: d :: rest) = .illegal rest ∨ ∃ i, decode (.port p) (w :: d :: rest) = .ok i rest) ∧
        (¬hasData → decode (.port p) (w :: rest) = .illegal rest ∨ ∃ i, decode (.port p) (w :: rest) = .ok i rest))

/-- R117, R118: a reserved opcode is consumed alone, a reserved bit makes the word illegal and takes its data word with it, and the
step that meets either sets `ILLEGAL` on `CMD` or `ILLEGAL_CTL` on `CTL` and changes nothing else. -/
def Obligations.IllegalWords : Prop :=
  (∀ (w : Word) (rest : List Word),
    (opcode w = 0 ∨ 0x0B < opcode w → decode (.port .cmd) (w :: rest) = .illegal rest) ∧
    (opcode w < 0x10 ∨ 0x11 < opcode w → decode (.port .ctl) (w :: rest) = .illegal rest)) ∧
  (∀ (w d : Word) (rest : List Word),
    (opcode w = 0x01 → operand w / 2 ^ 8 ≠ 0 → decode (.port .cmd) (w :: d :: rest) = .illegal rest) ∧
    (opcode w = 0x02 → operand w / 2 ^ 8 ≠ 0 → decode (.port .cmd) (w :: rest) = .illegal rest) ∧
    (opcode w = 0x03 → operand w ≠ 0 → decode (.port .cmd) (w :: d :: rest) = .illegal rest) ∧
    (0x05 ≤ opcode w → opcode w ≤ 0x0B → operand w ≠ 0 → decode (.port .cmd) (w :: rest) = .illegal rest) ∧
    (opcode w = 0x10 → operand w ≠ 0 → decode (.port .ctl) (w :: d :: rest) = .illegal rest) ∧
    (opcode w = 0x11 → operand w ≠ 0 → decode (.port .ctl) (w :: rest) = .illegal rest)) ∧
  (∀ (s : State) (rest : List Word), s.handed = none →
    (decode (.port .cmd) s.cmd = .illegal rest → s.renderLeft = 0 → ctlReady s = false →
      step s = .next { s with cmd := rest, err := s.err ||| 0b00001#5 }) ∧
    (decode (.port .ctl) s.ctl = .illegal rest → cmdReady s = false →
      step s = .next { s with ctl := rest, err := s.err ||| 0b10000#5 }))

/-- R81: a word travels as four bytes, bits [7:0] first and bits [31:24] last, and the words come out of the bytes as they went in. -/
def Obligations.ByteTransport : Prop :=
  (∀ w : Word, bytesOfWord w = [w.extractLsb' 0 8, w.extractLsb' 8 8, w.extractLsb' 16 8, w.extractLsb' 24 8]) ∧
  (∀ (b0 b1 b2 b3 : Byte) (rest : List Byte),
    wordsOfBytes (b0 :: b1 :: b2 :: b3 :: rest) = (b3 ++ b2 ++ b1 ++ b0 : BitVec 32) :: wordsOfBytes rest) ∧
  (∀ (src : Source) (ws : List Word), wordsOfBytes (ws.flatMap bytesOfWord) = ws ∧
    decodeBytes src (ws.flatMap bytesOfWord) = decode src ws)

/-! ### Reset -/

/-- R69: the power-on value of every register, and the value a voice reset gives each (with `DL` kept and every valid bit cleared). -/
def Obligations.ResetValues : Prop :=
  (let z := NUM.zero
   let voice (dl : Memory) : Voice :=
    { vstate := .silent, active := none, vel := z, freq := z, env := z, ph := z, phSub := z, phFm := z,
      phSs := ⟨z, z, z, z, z, z, z⟩, prng := 0, pink := z, crackleT := 0, wobPh := z, glitchCnt := 0, harmPh := z,
      ringPh := z, grainPh := z, sweepLp := z, lad := ⟨z, z, z, z⟩, phs := ⟨z, z, z, z⟩, flfoPh := z, fmt := ⟨z, z, z, z⟩,
      rmfPh := z, rmfLp := z, dlW := 0, dl := dl }
   State.reset = { State.reset with
      voice := voice [], fs := z, rateValid := false, dlLen := 1, gp := 0, knob := 0, knobSnap := 0, err := 0,
      out := { State.reset.out with words := [] }
      rsp := { State.reset.rsp with words := [] }
      crsp := { State.reset.crsp with words := [] } } ∧
   (∀ s : State, s.voiceReset = { s with voice := voice (Memory.invalidate s.voice.dl) })) ∧
  (∀ (m : Memory) (i : Nat), Memory.validAt i (Memory.invalidate m) = false ∧ Memory.read i (Memory.invalidate m) = .zero ∧
    (Memory.invalidate m).map (fun c => (c.index, c.value)) = m.map (fun c => (c.index, c.value)))

/-! ### The commands -/

/-- R321: NOTE_ON resets the voice, then captures a valid note or raises `BAD_NOTE`; whatever the rate is, and with the velocity clamped. -/
def Obligations.NoteOnResetsAndCaptures : Prop :=
  (∀ (note : Nat) (data : Word), note < 256 →
    decode (.port .cmd) [BitVec.ofNat 32 (0x01000000 + note), data] = .ok (.noteOn note data) []) ∧
  (∀ (note : Nat) (data : Word) (s : State),
    (∀ h : note < 128, exec (.noteOn note data) s = .next { s with
      voice := { Voice.silentWith (Memory.invalidate s.voice.dl) with
        active := some ⟨note, h⟩
        vel := (NUM.ofBits32 data).clamp .zero .one
        freq := (lit 440).mul (params.trig.pow2 ((NUM.ofInt ((note : Int) - 69)).div (lit 12)))
        vstate := .sounding
        prng := 0x9E3779B9#32 ^^^ BitVec.ofNat 32 note } }) ∧
    (128 ≤ note → exec (.noteOn note data) s = .next { s with
      voice := Voice.silentWith (Memory.invalidate s.voice.dl)
      err := s.err ||| 0b01000#5 })) ∧
  (∀ x : NUM, (x = .nan ∨ x.lt .zero = true → x.clamp .zero .one = .zero) ∧ (NUM.one.lt x = true → x.clamp .zero .one = .one)) ∧
  (NUM.ofBits32 0x80000000).clamp .zero .one = .fin true 0

/-- R322: NOTE_OFF begins the release of the sounding note alone; another valid note changes nothing; an invalid one raises `BAD_NOTE`. -/
def Obligations.NoteOffReleases : Prop :=
  (∀ note < 256, decode (.port .cmd) [BitVec.ofNat 32 (0x02000000 + note)] = .ok (.noteOff note) []) ∧
  ∀ (note : Nat) (s : State),
    (128 ≤ note → exec (.noteOff note) s = .next { s with err := s.err ||| 0b01000#5 }) ∧
    (∀ h : note < 128,
      (s.voice.vstate = .sounding ∧ s.voice.active = some ⟨note, h⟩ →
        exec (.noteOff note) s = .next { s with voice := { s.voice with vstate := .releasing } }) ∧
      (s.voice.vstate ≠ .sounding ∨ s.voice.active ≠ some ⟨note, h⟩ → exec (.noteOff note) s = .next s))

/-- R323: SET_RATE rejects NaN, a rate below 1, +∞ and a rate above 192000 after rounding, raising `BAD_RATE` alone; any other rate is taken, with
`DL_LEN` and `GP`, and resets the voice. Zero, −0.0 and every negative value are among the rejected. -/
def Obligations.SetRateAcceptsOrRejects : Prop :=
  (∀ data : Word, decode (.port .cmd) [0x03000000, data] = .ok (.setRate data) []) ∧
  (∀ (data : Word) (s : State),
    let r := NUM.ofBits32 data
    let bad := r = .nan ∨ r.lt (lit 1) = true ∨ r = .inf false ∨ 192000 < params.rhaInt r
    (bad → exec (.setRate data) s = .next { s with err := s.err ||| 0b00010#5 }) ∧
    (¬bad → exec (.setRate data) s = .next { s with
      fs := r
      rateValid := true
      dlLen := max 1 (params.rhaInt (r.mul (lit 1))).toNat
      gp := (params.rhaInt ((dec 1 100).mul r)).toNat
      voice := Voice.silentWith (Memory.invalidate s.voice.dl) })) ∧
  (∀ x : NUM, x.le .zero = true → x.lt (lit 1) = true)

/-- R324: RENDER without a valid rate raises `NO_RATE` alone; with one it latches the knob once and runs `m` ticks, one `OUT` word each. -/
def Obligations.RenderRunsTicks : Prop :=
  (∀ m < 2 ^ 24, decode (.port .cmd) [BitVec.ofNat 32 (0x04000000 + m)] = .ok (.render m) []) ∧
  ∀ (m : Nat) (s : State),
    (s.rateValid = false → exec (.render m) s = .next { s with err := s.err ||| 0b00100#5 }) ∧
    (s.rateValid = true → s.out.depth = none →
      let t := (tick params)^[m] { s with knobSnap := s.knob }
      exec (.render m) s = .next { t with renderLeft := 0 } ∧
        ∃ ws : List Word, ws.length = m ∧ t.out = { s.out with words := s.out.words ++ ws })

/-- From R399 ("a command or tick that would append to a full stream holds … nothing is dropped"), read as log entry 10 reads it (DEDUCED): a GET on a
full stream changes nothing and stays on its port. A RENDER of `m` at a valid rate latches the knob, runs the ticks that `OUT` has room for, which append
one word each, and owes the rest in `renderLeft`; while `OUT` is full nothing happens on `CMD`; and with room again the ticks owed go on from where they
stood, as many as fit, with no second latch. -/
def Obligations.OutputHolds : Prop :=
  (∀ s : State, s.rsp.full = true → ∀ i ∈ [Instr.getActiveNote, .getWaveType, .getWeirdType, .getFilterType, .getStatus],
    exec i s = .next s ∧
      ∀ rest, s.handed = none → s.renderLeft = 0 → ctlReady s = false → decode (.port .cmd) s.cmd = .ok i rest → step s = .next s) ∧
  (∀ s : State, s.crsp.full = true → exec .getKnob s = .next s ∧
    ∀ rest, s.handed = none → cmdReady s = false → decode (.port .ctl) s.ctl = .ok .getKnob rest → step s = .next s) ∧
  (∀ (m d : Nat) (s : State), s.rateValid = true → s.out.depth = some d →
    let k := min m (d - s.out.words.length)
    let t := { (tick params)^[k] { s with knobSnap := s.knob } with renderLeft := m - k }
    exec (.render m) s = .next t ∧
      (∃ ws : List Word, ws.length = k ∧ t.out = { s.out with words := s.out.words ++ ws }) ∧
      (k < m → t.out.full = true ∧ (t.handed = none → ctlReady t = false → step t = .next t))) ∧
  (∀ (d : Nat) (s : State), s.out.depth = some d → s.out.words.length < d → s.renderLeft ≠ 0 → s.handed = none → ctlReady s = false →
    let k := min s.renderLeft (d - s.out.words.length)
    let t := { (tick params)^[k] s with renderLeft := s.renderLeft - k }
    step s = .next t ∧ 0 < k ∧
      (∃ ws : List Word, ws.length = k ∧ t.out = { s.out with words := s.out.words ++ ws }) ∧
      (k < s.renderLeft → t.out.full = true))

/-- R325 to R328: the accessors append the active note or `0xFFFFFFFF`, or a selector code of the active note's profile, of profile 0 when no
note is active; and they change nothing else. -/
def Obligations.TypeAccessors : Prop :=
  (decode (.port .cmd) [0x05000000] = .ok .getActiveNote [] ∧ decode (.port .cmd) [0x06000000] = .ok .getWaveType [] ∧
    decode (.port .cmd) [0x07000000] = .ok .getWeirdType [] ∧ decode (.port .cmd) [0x08000000] = .ok .getFilterType []) ∧
  ∀ s : State, s.rsp.full = false →
    let p : Fin 128 := match s.voice.active with | none => 0 | some n => n
    let answer (w : Word) : Host.Outcome State Fault Refusal := .next { s with rsp := { s.rsp with words := s.rsp.words ++ [w] } }
    exec .getActiveNote s = answer (match s.voice.active with | none => 0xFFFFFFFF | some n => BitVec.ofNat 32 n.val) ∧
    exec .getWaveType s = answer (BitVec.ofNat 32 (profile params p).wave.code) ∧
    exec .getWeirdType s = answer (BitVec.ofNat 32 (profile params p).effect.code) ∧
    exec .getFilterType s = answer (BitVec.ofNat 32 (profile params p).filter.code)

/-- R126, R329: GET_STATUS appends one word, whose fields are the voice state, the rate bit, the active note or `0xFF`, and the five flags, with
zeros between; reading clears nothing. -/
def Obligations.StatusWord : Prop :=
  decode (.port .cmd) [0x09000000] = .ok .getStatus [] ∧
  ∀ s : State, s.rsp.full = false →
    ∃ w : Word, exec .getStatus s = .next { s with rsp := { s.rsp with words := s.rsp.words ++ [w] } } ∧
      w.extractLsb' 0 2 = (match s.voice.vstate with | .silent => 0 | .sounding => 1 | .releasing => 2) ∧
      w.getLsbD 2 = s.rateValid ∧
      w.extractLsb' 3 5 = 0 ∧
      w.extractLsb' 8 8 = (match s.voice.active with | none => 0xFF | some n => BitVec.ofNat 8 n.val) ∧
      w.extractLsb' 16 5 = s.err ∧
      w.extractLsb' 21 11 = 0

/-- R330, R331: CLEAR_ERR clears all five flags and nothing else. RESET gives every register its power-on value and keeps the words in the streams and
on the ports; after it the status word is `0000FF00` and a RENDER raises `NO_RATE`. -/
def Obligations.ClearErrAndReset : Prop :=
  decode (.port .cmd) [0x0A000000] = .ok .clearErr [] ∧ decode (.port .cmd) [0x0B000000] = .ok .reset [] ∧
  ∀ s : State,
    exec .clearErr s = .next { s with err := 0 } ∧
    ∃ t : State, exec .reset s = .next t ∧
      t = { State.reset with
        out := s.out, rsp := s.rsp, crsp := s.crsp, cmd := s.cmd, ctl := s.ctl
        wires := t.wires, handed := t.handed, draws := t.draws, turns := t.turns } ∧
      statusWord t = 0x0000FF00 ∧ ∀ m, exec (.render m) t = .next { t with err := 0b00100#5 }

/-- R332, R333: SET_KNOB stores the 32-bit pattern as it is; GET_KNOB appends it to `CRSP` as it was written. -/
def Obligations.KnobPort : Prop :=
  (∀ data : Word, decode (.port .ctl) [0x10000000, data] = .ok (.setKnob data) []) ∧
  decode (.port .ctl) [0x11000000] = .ok .getKnob [] ∧
  ∀ (data : Word) (s : State),
    exec (.setKnob data) s = .next { s with knob := data } ∧
    (s.crsp.full = false →
      exec .getKnob s = .next { s with crsp := { s.crsp with words := s.crsp.words ++ [s.knob] } })

/-! ### The oscillator bank -/

/-- R182, R192, R193: the sine, the two-operator FM and the square+sine blend; each only hands `x0` on. -/
def Obligations.SineWaves : Prop :=
  ∀ s : State,
    let sin := params.trig.sin
    exec .wSine s = .next { s with wires := { s.wires with x0 := sin (NUM.twoPi.mul s.voice.ph) } } ∧
    exec .wFm s = .next { s with wires := { s.wires with
      x0 := sin ((NUM.twoPi.mul s.voice.ph).add ((lit 2).mul (sin (NUM.twoPi.mul s.voice.phFm)))) } } ∧
    exec .wSub s = .next { s with wires := { s.wires with
      x0 := ((dec 7 10).mul (if s.voice.ph.lt (dec 1 2) then NUM.one else NUM.one.neg)).add
        ((dec 3 10).mul (sin (NUM.twoPi.mul s.voice.phSub))) } }

/-- R183, R186, R187: the square and the two pulses, with the boundary and the example of each rule; each only hands `x0` on. -/
def Obligations.PulseWaves : Prop :=
  (∀ s : State,
    let wave (duty : NUM) : Host.Outcome State Fault Refusal :=
      .next { s with wires := { s.wires with x0 := if s.voice.ph.lt duty then NUM.one else NUM.one.neg } }
    exec .wSquare s = wave (dec 1 2) ∧ exec .wPulse25 s = wave (dec 1 4) ∧ exec .wPulse75 s = wave (dec 3 4)) ∧
  (∀ c ∈ [(Instr.wSquare, dec 1 2, NUM.one.neg), (.wSquare, NUM.zero, NUM.one), (.wPulse25, dec 1 4, NUM.one.neg),
      (.wPulse25, dec 1 10, NUM.one), (.wPulse75, dec 3 4, NUM.one.neg), (.wPulse75, dec 1 2, NUM.one)],
    ∀ s : State, s.voice.ph = c.2.1 → exec c.1 s = .next { s with wires := { s.wires with x0 := c.2.2 } })

/-- R184, R185, R191: the sawtooth, the triangle and the super-saw, with the corner values of each rule; the sawtooth never reaches +1; each only hands `x0` on. -/
def Obligations.RampWaves : Prop :=
  (∀ s : State,
    exec .wSaw s = .next { s with wires := { s.wires with x0 := ((lit 2).mul s.voice.ph).sub .one } } ∧
    exec .wTriangle s = .next { s with wires := { s.wires with
      x0 := ((lit 2).mul (((lit 2).mul s.voice.ph).sub .one).abs).sub .one } } ∧
    exec .wSupersaw s = .next { s with wires := { s.wires with
      x0 := (s.voice.phSs.nums.foldl (fun (acc p : NUM) => acc.add (((lit 2).mul p).sub .one)) NUM.zero).div (lit 7) } } ∧
    (s.voice.phSs = ⟨.zero, .zero, .zero, .zero, .zero, .zero, .zero⟩ →
      exec .wSupersaw s = .next { s with wires := { s.wires with x0 := NUM.one.neg } })) ∧
  (∀ x : NUM, x.wf = true → x.inUnit = true → (((lit 2).mul x).sub .one).lt .one = true) ∧
  (∀ c ∈ [(Instr.wSaw, NUM.zero, NUM.one.neg), (.wSaw, dec 3 4, dec 1 2), (.wTriangle, NUM.zero, NUM.one),
      (.wTriangle, dec 1 2, NUM.one.neg), (.wTriangle, dec 1 4, NUM.zero), (.wTriangle, dec 3 4, NUM.zero)],
    ∀ s : State, s.voice.ph = c.2.1 → exec c.1 s = .next { s with wires := { s.wires with x0 := c.2.2 } })

/-- R189, R190: white and pink noise, one draw each, white between −1 and 1 − 2^−23; pink hands its integrator on after the update. -/
def Obligations.NoiseWaves : Prop :=
  (∀ r : BitVec 32, NUM.one.neg.le (((lit 2).mul (drawValue params r)).sub .one) = true ∧
    (((lit 2).mul (drawValue params r)).sub .one).le (NUM.one.sub (dec 1 (2 ^ 23))) = true) ∧
  ∀ s : State,
    let r : BitVec 32 := 1013904223 + 1664525 * s.voice.prng
    let wn := ((lit 2).mul (NUM.ofRatio (r >>> 8).toNat (2 ^ 24))).sub .one
    let pink := ((dec 99 100).mul s.voice.pink).add ((dec 1 100).mul wn)
    exec .wWhite s = .next { s with voice := { s.voice with prng := r }, wires := { s.wires with x0 := wn } } ∧
    exec .wPink s = .next { s with voice := { s.voice with prng := r, pink := pink }, wires := { s.wires with x0 := pink } }

/-- R194: while the crackle timer runs it counts down and the sample is 0.0; at 0 one draw gives the impulse and a second the next gap. -/
def Obligations.CrackleWave : Prop :=
  ∀ s : State,
    (0 < s.voice.crackleT → exec .wCrackle s = .next { s with
      voice := { s.voice with crackleT := s.voice.crackleT - 1 }
      wires := { s.wires with x0 := .zero } }) ∧
    (s.voice.crackleT = 0 →
      let r1 : BitVec 32 := 1013904223 + 1664525 * s.voice.prng
      let r2 : BitVec 32 := 1013904223 + 1664525 * r1
      let u := NUM.ofRatio (r1 >>> 8).toNat (2 ^ 24)
      let u2 := NUM.ofRatio (r2 >>> 8).toNat (2 ^ 24)
      exec .wCrackle s = .next { s with
        voice := { s.voice with
          prng := r2
          crackleT := (params.floorInt (u2.mul (((lit 2).mul (dec 1 100)).mul s.fs))).toNat }
        wires := { s.wires with x0 := (lit 2).mul (((lit 2).mul u).sub .one) } })

/-- R188: a draw steps the generator as unsigned 32-bit arithmetic does and returns the exact multiple of `2^−24`; the rule's example for note 60. -/
def Obligations.GeneratorDraw : Prop :=
  (∀ r : BitVec 32, (prngNext params r).toNat = (1664525 * r.toNat + 1013904223) % 2 ^ 32 ∧
    drawValue params r = .fin false (r.toNat / 2 ^ 8 * 2 ^ (NUM.scale - 24)) ∧ (drawValue params r).inUnit = true ∧
    (drawValue params r).le (.fin false ((2 ^ 24 - 1) * 2 ^ (NUM.scale - 24))) = true) ∧
  noteSeed params 60 = 0x9E377985 ∧ prngNext params 0x9E377985 = 0x3DA81D20 ∧ prngNext params 0x3DA81D20 = 0x31B32DFF ∧
    prngNext params 0x31B32DFF = 0xA4C2E352

/-! ### The weird modulator bank -/

/-- R222: the Wobbler's gain `1 + 0.8 × a × sin(TWO_PI × WOB_PH)`, and the LFO advanced after it is read. -/
def Obligations.Wobbler : Prop :=
  ∀ s : State,
    let pr := s.profile params
    let a := (s.variant params).amount
    let lfo := params.trig.sin (NUM.twoPi.mul s.voice.wobPh)
    exec .eWobbler s = .next { s with
      voice := { s.voice with wobPh := (s.voice.wobPh.add (pr.wobbleRate.div s.fs)).wrap }
      wires := { s.wires with x1 := s.wires.x0.mul (NUM.one.add (((dec 8 10).mul a).mul lfo)) } }

/-- R223: the Glitcher counts to `GP`; when it gets there the count returns to 0 and the hash of `PH` decides between −2, 4 and no glitch. -/
def Obligations.Glitcher : Prop :=
  ∀ s : State,
    let pr := s.profile params
    let a := (s.variant params).amount
    let r := (params.trig.sin (s.voice.ph.mul (dec 123456789 10000))).fr
    let T := pr.glitchChance.mul a
    let x0 := s.wires.x0
    (s.voice.glitchCnt + 1 < s.gp → exec .eGlitcher s = .next { s with
      voice := { s.voice with glitchCnt := s.voice.glitchCnt + 1 }
      wires := { s.wires with x1 := x0 } }) ∧
    (s.gp ≤ s.voice.glitchCnt + 1 → exec .eGlitcher s = .next { s with
      voice := { s.voice with glitchCnt := 0 }
      wires := { s.wires with
        x1 := if r.lt T then x0.mul (if r.lt ((dec 1 2).mul T) then (lit 2).neg else lit 4) else x0 } })

/-- R224: the Harmonizer's crossfade with an oscillator at `FREQ × harmonicMix`. -/
def Obligations.Harmonizer : Prop :=
  ∀ s : State,
    let pr := s.profile params
    let a := (s.variant params).amount
    let osc := params.trig.sin (NUM.twoPi.mul s.voice.harmPh)
    exec .eHarmonizer s = .next { s with
      voice := { s.voice with harmPh := (s.voice.harmPh.add ((s.voice.freq.mul pr.harmonicMix).div s.fs)).wrap }
      wires := { s.wires with x1 := ((NUM.one.sub a).mul s.wires.x0).add (a.mul osc) } }

/-- R225, R227: the Reverser's tremolo at 16 times the phase, which writes no register, and the RingMod's carrier at `ringModFreq`. -/
def Obligations.ReverserAndRingmod : Prop :=
  ∀ s : State,
    let pr := s.profile params
    let a := (s.variant params).amount
    let gain (carrier : NUM) := (NUM.one.sub a).add (a.mul carrier)
    exec .eReverser s = .next { s with wires := { s.wires with
      x1 := s.wires.x0.mul (gain (params.trig.sin (NUM.twoPi.mul ((lit 16).mul s.voice.ph)))) } } ∧
    exec .eRingmod s = .next { s with
      voice := { s.voice with ringPh := (s.voice.ringPh.add (pr.ringModFreq.div s.fs)).wrap }
      wires := { s.wires with x1 := s.wires.x0.mul (gain (params.trig.sin (NUM.twoPi.mul s.voice.ringPh))) } }

/-- R226: the BitCrusher rounds to `16 − 15.5 × a` bits, half away from zero, and writes no register. -/
def Obligations.Bitcrusher : Prop :=
  ∀ s : State,
    let q := params.trig.pow2 ((lit 16).sub ((dec 155 10).mul (s.variant params).amount))
    exec .eBitcrusher s = .next { s with wires := { s.wires with x1 := (s.wires.x0.mul q).rha.div q } }

/-- R228: the Granular envelope, and the grain phase, which at a wrap keeps its fraction and sets `GRAIN_RESET`, whatever the amount. -/
def Obligations.Granular : Prop :=
  ∀ s : State,
    let pr := s.profile params
    let a := (s.variant params).amount
    let x1 := s.wires.x0.mul ((NUM.one.sub a).add (a.mul (params.trig.sin (NUM.pi.mul s.voice.grainPh))))
    let g := s.voice.grainPh.add (NUM.one.div (pr.grainSize.mul s.fs))
    exec .eGranular s = .next { s with
      voice := { s.voice with grainPh := if NUM.one.le g then g.sub g.floor else g }
      wires := { s.wires with x1 := x1, grainReset := if NUM.one.le g then true else s.wires.grainReset } }

/-- R229: the FilterSweep's one-pole lowpass, its highpass complement from the updated lowpass, and the shared wobble LFO. -/
def Obligations.FilterSweep : Prop :=
  ∀ s : State,
    let pr := s.profile params
    let a := (s.variant params).amount
    let fc := pr.filterFreq.mul (NUM.one.add ((dec 1 2).mul (params.trig.sin (NUM.twoPi.mul s.voice.wobPh))))
    let g := (fc.div (s.fs.div (lit 2))).min (dec 99 100)
    let lp := s.voice.sweepLp.add (g.mul (s.wires.x0.sub s.voice.sweepLp))
    exec .eFiltersweep s = .next { s with
      voice := { s.voice with sweepLp := lp, wobPh := (s.voice.wobPh.add (pr.wobbleRate.div s.fs)).wrap }
      wires := { s.wires with x1 := lp.add (((lit 10).mul a).mul (s.wires.x0.sub lp)) } }

/-! ### The chaos filter bank -/

/-- R251 to R256: the four ladder filters share one in-place update of the four stages, at the guarded coefficient and the clamped resonance,
and differ in their tap. -/
def Obligations.LadderFilters : Prop :=
  ∀ s : State,
    let fn := ((s.variant params).cutoff.div (s.fs.div (lit 2))).clamp .zero (dec 116 100)
    let fg := fn.min (dec 99 100)
    let rc := (s.variant params).resonance.clamp .zero (dec 95 100)
    let fb := rc.add (rc.div (NUM.one.sub fg))
    let x1 := s.wires.x1
    let l := s.voice.lad
    let l0 := l.v0.add (fg.mul ((x1.sub l.v0).add (fb.mul (l.v0.sub l.v1))))
    let l1 := l.v1.add (fg.mul (l0.sub l.v1))
    let l2 := l.v2.add (fg.mul (l1.sub l.v2))
    let l3 := l.v3.add (fg.mul (l2.sub l.v3))
    let tap (x2 : NUM) : Host.Outcome State Fault Refusal :=
      .next { s with voice := { s.voice with lad := ⟨l0, l1, l2, l3⟩ }, wires := { s.wires with x2 := x2 } }
    exec .fLadderLp s = tap l3 ∧
    exec .fLadderHp s = tap (x1.sub l0) ∧
    exec .fLadderBp s = tap (l0.sub l1) ∧
    exec .fNotch s = tap (x1.sub (l0.sub l1))

/-- R257: the comb reads one period of the cutoff back, 0.0 if that entry is invalid, writes its output at the write index and moves it on; every
other entry of the delay line reads as before. -/
def Obligations.CombFilter : Prop :=
  ∀ s : State,
    let rc := (s.variant params).resonance.clamp .zero (dec 95 100)
    let L : Int := s.dlLen
    let period := params.rhaInt (s.fs.div (s.variant params).cutoff)
    let D := if period < 1 then 1 else if L < period then L else period
    let ri := (((s.voice.dlW : Int) - D) % L).toNat
    let x2 := s.wires.x1.add (rc.mul (Memory.read ri s.voice.dl))
    let dl := Memory.write s.voice.dlW x2 s.voice.dl
    exec .fComb s = .next { s with
      voice := { s.voice with dl := dl, dlW := (s.voice.dlW + 1) % s.dlLen }
      wires := { s.wires with x2 := x2 } } ∧
    Memory.read s.voice.dlW dl = x2 ∧ ∀ j, j ≠ s.voice.dlW → Memory.read j dl = Memory.read j s.voice.dl

/-- R258 to R263: the five vowels run the same two bands at their own frequency pair, band 0 before band 1, and weigh them 1.0 and 0.5. -/
def Obligations.VowelFilters : Prop :=
  ∀ c ∈ [(Instr.fVowelA, 730, 1090), (.fVowelE, 530, 1840), (.fVowelI, 270, 2290), (.fVowelO, 570, 840), (.fVowelU, 300, 870)],
    ∀ s : State,
      let rc := (s.variant params).resonance.clamp .zero (dec 95 100)
      let x1 := s.wires.x1
      let m := s.voice.fmt
      let coeff (f : Nat) := ((lit f).div (s.fs.div (lit 2))).min (dec 99 100)
      let first (g a b : NUM) := a.add (g.mul ((x1.sub a).add ((rc.add (rc.div (NUM.one.sub g))).mul (a.sub b))))
      let second (g a b : NUM) := b.add (g.mul (a.sub b))
      let g0 := coeff c.2.1
      let g1 := coeff c.2.2
      let m0 := first g0 m.v0 m.v1
      let m1 := second g0 m0 m.v1
      let m2 := first g1 m.v2 m.v3
      let m3 := second g1 m2 m.v3
      exec c.1 s = .next { s with
        voice := { s.voice with fmt := ⟨m0, m1, m2, m3⟩ }
        wires := { s.wires with x2 := ((lit 1).mul (m0.sub m1)).add ((dec 1 2).mul (m2.sub m3)) } }

/-- R264: the phaser's four all-pass stages in a row at the swept and capped break frequency, mixed half and half with the input. -/
def Obligations.PhaserFilter : Prop :=
  ∀ s : State,
    let c := (s.variant params).cutoff
    let fsw := c.mul (NUM.one.add ((dec 9 10).mul (params.trig.sin (NUM.twoPi.mul s.voice.flfoPh))))
    let fcl := fsw.min ((dec 45 100).mul s.fs)
    let t := params.trig.tan ((NUM.pi.mul fcl).div s.fs)
    let al := (t.sub .one).div (t.add .one)
    let u := s.wires.x1
    let z := s.voice.phs
    let v0 := (al.mul u).add z.v0
    let v1 := (al.mul v0).add z.v1
    let v2 := (al.mul v1).add z.v2
    let v3 := (al.mul v2).add z.v3
    exec .fPhaser s = .next { s with
      voice := { s.voice with
        phs := ⟨u.sub (al.mul v0), v0.sub (al.mul v1), v1.sub (al.mul v2), v2.sub (al.mul v3)⟩
        flfoPh := (s.voice.flfoPh.add ((dec 1 2).div s.fs)).wrap }
      wires := { s.wires with x2 := ((dec 1 2).mul u).add ((dec 1 2).mul v3) } }

/-- R265: the ring-modulation filter's swept carrier, the one-pole on the product, and the two phases advanced after they are read. -/
def Obligations.RingFilter : Prop :=
  ∀ s : State,
    let c := (s.variant params).cutoff
    let fg := ((c.div (s.fs.div (lit 2))).clamp .zero (dec 116 100)).min (dec 99 100)
    let fcar := c.mul (NUM.one.add ((dec 1 2).mul (params.trig.sin (NUM.twoPi.mul s.voice.flfoPh))))
    let m := s.wires.x1.mul (params.trig.sin (NUM.twoPi.mul s.voice.rmfPh))
    let lp := s.voice.rmfLp.add (fg.mul (m.sub s.voice.rmfLp))
    exec .fRingmod s = .next { s with
      voice := { s.voice with
        rmfLp := lp
        rmfPh := (s.voice.rmfPh.add (fcar.div s.fs)).wrap
        flfoPh := (s.voice.flfoPh.add ((dec 1 2).div s.fs)).wrap }
      wires := { s.wires with x2 := lp } }

/-! ### The tick -/

/-- R291: the envelope rises by `1 ÷ (0.01 × FS)` to at most 1 in Sounding and falls by `1 ÷ (0.1 × FS)` to at least 0 otherwise, and a release that
reaches 0 ends the note. -/
def Obligations.EnvelopeStep : Prop :=
  ∀ (fs : NUM) (v : Voice),
    let up := NUM.one.min (v.env.add (NUM.one.div ((dec 1 100).mul fs)))
    let down := NUM.zero.max (v.env.sub (NUM.one.div ((dec 1 10).mul fs)))
    (v.vstate = .sounding → envelopeStep params fs v = { v with env := up }) ∧
    (v.vstate = .silent → envelopeStep params fs v = { v with env := down }) ∧
    (v.vstate = .releasing → down.isZero = false → envelopeStep params fs v = { v with env := down }) ∧
    (v.vstate = .releasing → down.isZero = true →
      envelopeStep params fs v = { v with env := down, vstate := .silent, active := none })

/-- R292: a tick that finds the voice Silent after its envelope step appends the word 0 and changes nothing else but `ENV`, `VSTATE` and `ACTIVE`. -/
def Obligations.SilentTick : Prop :=
  ∀ s : State, (envelopeStep params s.fs s.voice).vstate = .silent →
    tick params s = { s with
      voice := { s.voice with
        env := (envelopeStep params s.fs s.voice).env
        vstate := .silent
        active := (envelopeStep params s.fs s.voice).active }
      out := { s.out with words := s.out.words ++ [0x00000000] } }

/-- R290, R293 to R296: a tick that finds the voice Silent after its envelope step appends the word 0. Any other runs the wave, the effect and the filter
operation that the active note's profile selects, in that order and with `GRAIN_RESET` cleared before the effect, scales by envelope, velocity and 0.5,
advances the ten phases, and appends one word: the sample's binary32 pattern, or some NaN for a NaN. Where the three operations run, their profile is
`PROFILE[ACTIVE]` and their amount, cutoff and resonance are `KV[ACTIVE][k]` with `k` the bucket of `KNOB_SNAP`, whatever `KNOB` is; and a voice that is
not Silent has an active note. -/
def Obligations.SoundingTick : Prop :=
  (∀ s : State, (envelopeStep params s.fs s.voice).vstate = .silent → (tick params s).out.words = s.out.words ++ [0x00000000]) ∧
  ∀ s : State, (envelopeStep params s.fs s.voice).vstate ≠ .silent →
    let s1 : State := { s with voice := envelopeStep params s.fs s.voice }
    let pr := s1.profile params
    (s.VoiceInv → ∃ n, s.voice.active = some n) ∧
    ∃ (iw ie jf : Instr) (s2 s3 s4 : State),
      (∀ n, s.voice.active = some n → ∀ u ∈ [s1, s2, s3],
        u.profile params = profile params n ∧ u.variant params = knobVariant params n (knobBucket params s.knobSnap)) ∧
      decode (.bank .wave) [BitVec.ofNat 32 pr.wave.code] = .ok iw [] ∧ exec iw s1 = .next s2 ∧
      decode (.bank .effect) [BitVec.ofNat 32 pr.effect.code] = .ok ie [] ∧
        exec ie { s2 with wires := { s2.wires with grainReset := false } } = .next s3 ∧
      decode (.bank .filter) [BitVec.ofNat 32 pr.filter.code] = .ok jf [] ∧ exec jf s3 = .next s4 ∧
      (let v := s4.voice
       let adv (ph ratio : NUM) := (ph.add ((v.freq.mul ratio).div s.fs)).wrap
       let out := ((s4.wires.x2.mul v.env).mul v.vel).mul (dec 1 2)
       ∃ w : Word, (out ≠ .nan → w = NUM.bits32 0 out) ∧ (out = .nan → NUM.ofBits32 w = .nan) ∧
       tick params s = { s4 with
        voice := { v with
          ph := if s4.wires.grainReset then .zero else (v.ph.add (v.freq.div s.fs)).wrap
          phSub := adv v.phSub (dec 1 2)
          phFm := adv v.phFm (lit 2)
          phSs := ⟨adv v.phSs.v0 (dec 97 100), adv v.phSs.v1 (dec 98 100), adv v.phSs.v2 (dec 99 100),
            adv v.phSs.v3 (dec 100 100), adv v.phSs.v4 (dec 101 100), adv v.phSs.v5 (dec 102 100),
            adv v.phSs.v6 (dec 103 100)⟩ }
        out := { s.out with words := s.out.words ++ [w] }
        wires := (tick params s).wires
        draws := (tick params s).draws })

/-! ### The step -/

/-- The step performs the command at the front of a port as `exec` does, once its words are consumed: on the port that alone has something to
perform, on the port a free draw picks when both have (log entry 4), whether a command, an illegal one, which raises its port's flag, or a held RENDER
that has room; and nothing while neither has (R402). And `exec`, `step` and the state after reset are the machine with the parameters as an
argument (R9), at the spec's defaults. -/
def Obligations.StepPerforms : Prop :=
  (∀ s : State, s.handed = none →
    (∀ (i : Instr) (rest : List Word), decode (.port .cmd) s.cmd = .ok i rest → holds i s = false → s.renderLeft = 0 →
      ctlReady s = false → step s = exec i { s with cmd := rest }) ∧
    (∀ (i : Instr) (rest : List Word), decode (.port .ctl) s.ctl = .ok i rest → holds i s = false →
      cmdReady s = false → step s = exec i { s with ctl := rest }) ∧
    (cmdReady s = true → ctlReady s = true →
      let u := { s with turns := s.turns + 1 }
      if Config.ctlTurn s.turns then
        (∀ (j : Instr) (rest : List Word), decode (.port .ctl) s.ctl = .ok j rest → step s = exec j { u with ctl := rest }) ∧
        (∀ rest : List Word, decode (.port .ctl) s.ctl = .illegal rest →
          step s = .next { u with ctl := rest, err := s.err ||| 0b10000#5 })
      else
        (s.renderLeft ≠ 0 → step s = .next (renderTicks params s.renderLeft u)) ∧
        (∀ (i : Instr) (rest : List Word), s.renderLeft = 0 → decode (.port .cmd) s.cmd = .ok i rest →
          step s = exec i { u with cmd := rest }) ∧
        (∀ rest : List Word, s.renderLeft = 0 → decode (.port .cmd) s.cmd = .illegal rest →
          step s = .next { u with cmd := rest, err := s.err ||| 0b00001#5 })) ∧
    (cmdReady s = false → ctlReady s = false → step s = .next s) ∧
    (s.renderLeft ≠ 0 → s.out.full = false → ctlReady s = false → step s = .next (renderTicks params s.renderLeft s)) ∧
    (cmdReady s = true ↔ if s.renderLeft = 0 then
        (∃ rest, decode (.port .cmd) s.cmd = .illegal rest) ∨ ∃ i rest, decode (.port .cmd) s.cmd = .ok i rest ∧ holds i s = false
      else s.out.full = false) ∧
    (ctlReady s = true ↔
      (∃ rest, decode (.port .ctl) s.ctl = .illegal rest) ∨ ∃ i rest, decode (.port .ctl) s.ctl = .ok i rest ∧ holds i s = false)) ∧
  (∀ (i : Instr) (s : State), exec i s = execWith params i s) ∧ (∀ s : State, step s = stepWith params s) ∧
    State.reset = State.resetWith params

/-- A selector code can be handed to a bank (log entry 6, DESIGN CHOICE): the step runs the operation the code names, by the tables of R121 to R123, and
refuses a wave or filter code from 12 on, as R121 and R123 ask, and an effect code from 8 on, which the 3-bit field of R122 cannot hold (entry 6 again).
Nothing else is refused: every other step goes on (R360). -/
def Obligations.SelectorStep : Prop :=
  (∀ (s : State) (b : Bank) (w : Word), s.handed = some ⟨b, w⟩ →
    (∀ i, decodeSelector b w.toNat = some i → step s = exec i { s with handed := none }) ∧
    (decodeSelector b w.toNat = none → step s = .refused (.reservedSelector b w))) ∧
  (∀ c : Nat, (decodeSelector .wave c = none ↔ 12 ≤ c) ∧ (decodeSelector .effect c = none ↔ 8 ≤ c) ∧
    (decodeSelector .filter c = none ↔ 12 ≤ c)) ∧
  (∀ s : State, s.GoesOn ∨ ∃ b w, s.handed = some ⟨b, w⟩ ∧ decodeSelector b w.toNat = none)

/-! ### The tables -/

/-- R151 to R153: the seeds of a profile; its selectors, which repeat every twelve notes for wave and filter; the formula of each continuous field, one
multiply and one add; and its range. -/
def Obligations.ProfileTable : Prop :=
  ∀ n : Fin 128,
    let pr := profile params n
    let s1 := (params.trig.sin ((lit n.val).mul (dec 1234 10000))).mul (lit 1000)
    let s2 := (params.trig.cos ((lit n.val).mul (dec 5678 10000))).mul (lit 1000)
    let s3 := (params.trig.sin ((lit n.val).mul (dec 9876 10000))).mul (lit 1000)
    pr.wave.code = n.val % 12 ∧ pr.filter.code = n.val % 12 ∧ pr.effect.code = (params.truncInt s1).natAbs % 8 ∧
      (∀ m : Fin 128, m.val = n.val + 12 → (profile params m).wave = pr.wave ∧ (profile params m).filter = pr.filter) ∧
      (pr.wobbleRate = (dec 1 2).add ((lit 20).mul s1.fr) ∧ pr.wobbleRate.between (dec 1 2) (dec 205 10) = true) ∧
      (pr.glitchChance = s2.fr ∧ pr.glitchChance.between .zero .one = true) ∧
      (pr.harmonicMix = (dec 1 2).add ((dec 35 10).mul s3.fr) ∧ pr.harmonicMix.between (dec 1 2) (lit 4) = true) ∧
      (pr.ringModFreq = (lit 20).add ((lit 1980).mul ((lit 10).mul s1).fr) ∧
        pr.ringModFreq.between (lit 20) (lit 2000) = true) ∧
      (pr.filterFreq = (lit 200).add ((lit 4800).mul ((lit 10).mul s2).fr) ∧
        pr.filterFreq.between (lit 200) (lit 5000) = true) ∧
      (pr.bitDepth = (lit 2).add ((lit 14).mul ((lit 10).mul s3).fr) ∧ pr.bitDepth.between (lit 2) (lit 16) = true) ∧
      (pr.grainSize = (dec 1 100).add ((dec 9 100).mul ((lit 100).mul s1).fr) ∧
        pr.grainSize.between (dec 1 100) (dec 10 100) = true)

/-- R155: the knob variant's formulas, and the range of each field, for every note and knob position. -/
def Obligations.KnobVariantTable : Prop :=
  ∀ (n : Fin 128) (k : Nat), k < 128 →
    let m := lit (128 * n.val + k)
    let kv := knobVariant params n k
    kv.amount = ((params.trig.sin (m.mul (dec 7531 10000))).mul (lit 1000)).fr ∧
      kv.cutoff = (lit 100).add ((lit 8000).mul ((params.trig.cos (m.mul (dec 2468 10000))).mul (lit 1000)).fr) ∧
      kv.resonance = (dec 95 100).mul ((params.trig.sin (m.mul (dec 1357 10000))).mul (lit 1000)).fr ∧
      kv.amount.between .zero .one = true ∧
      kv.cutoff.between (lit 100) (lit 8100) = true ∧
      kv.resonance.between .zero (dec 95 100) = true

/-- R156, R128: the knob bucket of any pattern is 0 to 127, with the rule's corner cases; the four
pseudo-instructions expand as the table says, and SET_KNOB_POS k selects bucket k exactly, for all 128 k. -/
def Obligations.KnobBuckets : Prop :=
  (∀ w : Word,
    knobBucket params w = (params.rhaInt (((NUM.ofBits32 w).clamp .zero .one).mul (lit 127))).toNat ∧ knobBucket params w ≤ 127 ∧
    (NUM.ofBits32 w = .nan → knobBucket params w = 0) ∧
    ((NUM.ofBits32 w).lt .zero = true → knobBucket params w = 0) ∧
    (NUM.one.lt (NUM.ofBits32 w) = true → knobBucket params w = 127)) ∧
  knobBucket params 0x80000000 = 0 ∧ knobBucket params 0x7F800000 = 127 ∧ knobBucket params 0x3F000000 = 64 ∧
  knobBucket params 0x3B810204 = 0 ∧
  Pseudo.expand .tick = [.render 1] ∧ Pseudo.expand .panic = [.reset] ∧
  (∀ n v, Pseudo.expand (.retrigger n v) = [.noteOff n, .noteOn n v]) ∧
  (∀ k < 128, Pseudo.expand (.setKnobPos k) = [.setKnob (floatWord ((lit k).div (lit 127)))] ∧
    knobBucket params (floatWord ((lit k).div (lit 127))) = k)

/-! ### Arithmetic -/

/-- R13, R14: `fr` of a finite value is `x − floor(x)` unless that rounds to 1.0, and lies in [0, 1); of a NaN it is 0.0. `wrap` of a finite non-negative value
is its exact fractional part. The last clause, `wrap` of `−0.0`, is the model's reading of zero signs (log entry 11: `floor` keeps a zero's sign,
DEDUCED, and the zero sum is `+0.0`, PRESUMED). -/
def Obligations.FractionalParts : Prop :=
  NUM.nan.fr = .zero ∧
  (∀ (neg : Bool) (m : Nat), (NUM.fin neg m).wf = true →
    let u := (NUM.fin neg m).sub (NUM.fin neg m).floor
    (NUM.fin neg m).fr = (if NUM.one.le u then .zero else u) ∧ (NUM.fin neg m).fr.inUnit = true) ∧
  (∀ m : Nat, (NUM.fin false m).wf = true →
    (NUM.fin false m).wrap = .fin false (m % NUM.unit) ∧ (NUM.fin false m).wrap.inUnit = true) ∧
  (NUM.fin true 0).wrap = .zero

/-- R15: `rha` of a finite value is a nearest integer, and of two the one further from zero. Used as a NUM operand it is that integer converted exactly
(R11, R19), so that a negative value that rounds to 0 gives `+0.0` (log entry 11, DEDUCED). -/
def Obligations.RoundHalfAway : Prop :=
  ∀ (neg : Bool) (m : Nat), ∃ z : Int,
    (NUM.fin neg m).rhaInt? = some z ∧ (NUM.fin neg m).rha = NUM.ofInt z ∧
      (∀ y : Int, (z * NUM.unit - NUM.signed neg m).natAbs ≤ (y * NUM.unit - NUM.signed neg m).natAbs) ∧
      (∀ y : Int, (z * NUM.unit - NUM.signed neg m).natAbs = (y * NUM.unit - NUM.signed neg m).natAbs → y.natAbs ≤ z.natAbs)

/-- R17: `num` of a pattern is its value exactly, by sign, exponent and fraction, an infinity or a NaN; so `bits(f32(num(b)))` is `b` for every pattern that
is no NaN, and a NaN stays a NaN, in and out, whatever its free payload (R84). `f32` of a finite value below the overflow threshold is the nearest binary32
value of its sign, ties to even; from the threshold on, half a last place above the largest one, it is an infinity (R84). -/
def Obligations.Binary32RoundTrip : Prop :=
  (∀ (free : BitVec 24) (b : Word),
    let neg := b.getLsbD 31
    let e := (b.extractLsb' 23 8).toNat
    let f := (b.extractLsb' 0 23).toNat
    (e = 255 → f ≠ 0 → NUM.ofBits32 b = .nan) ∧
    (e = 255 → f = 0 → NUM.ofBits32 b = .inf neg) ∧
    (e = 0 → ∃ m, NUM.ofBits32 b = .fin neg m ∧ m * 2 ^ 149 = f * NUM.unit) ∧
    (0 < e → e < 255 → ∃ m, NUM.ofBits32 b = .fin neg m ∧ m * 2 ^ 150 = (2 ^ 23 + f) * 2 ^ e * NUM.unit) ∧
    (NUM.ofBits32 b).wf = true ∧
    (¬(e = 255 ∧ f ≠ 0) → NUM.bits32 free (NUM.ofBits32 b) = b) ∧
    NUM.ofBits32 (NUM.bits32 free .nan) = .nan) ∧
  (∀ (free : BitVec 24) (neg : Bool) (m : Nat),
    let w := NUM.bits32 free (.fin neg m)
    let overflow := 2 ^ (NUM.scale + 128) - 2 ^ (NUM.scale + 103)
    (overflow ≤ m → NUM.ofBits32 w = .inf neg) ∧
    (m < overflow → ∃ k, NUM.ofBits32 w = .fin neg k ∧ ∀ (b : Word) (n : Nat), NUM.ofBits32 b = .fin neg n →
      ((m : Int) - k).natAbs ≤ ((m : Int) - n).natAbs ∧
        (((m : Int) - k).natAbs = ((m : Int) - n).natAbs → n ≠ k → w.getLsbD 0 = false)))

/-- R11: each sum, difference, product and quotient of finite values is the binary64 value nearest to the exact one, ties to even, or from half a last place
above the largest finite one the infinity of its sign; a product or quotient has the sign of its operands. The other operands are IEEE's: a NaN gives a
NaN, a division of a finite value by zero an infinity or, of zero, a NaN, and the infinities their own results. The sign of an exact zero sum is log
entry 11 (PRESUMED). -/
def Obligations.NearestBinary64 : Prop :=
  (∀ (s t : Bool) (m n : Nat),
    let a := NUM.fin s m
    let b := NUM.fin t n
    NUM.Nearest (NUM.signed s m + NUM.signed t n) 1 (a.add b) ∧
    NUM.Nearest (NUM.signed s m - NUM.signed t n) 1 (a.sub b) ∧
    NUM.Nearest (NUM.signed s m * NUM.signed t n) NUM.unit (a.mul b) ∧
    (n ≠ 0 → NUM.Nearest (NUM.signed (s != t) (m * NUM.unit)) n (a.div b)) ∧
    (NUM.signed s m + NUM.signed t n = 0 → a.add b = .fin (s && t) 0) ∧
    (∀ u k, a.mul b = .fin u k → u = (s != t)) ∧ (∀ u k, a.div b = .fin u k → u = (s != t)) ∧
    a.div (.fin t 0) = (if m = 0 then .nan else .inf (s != t))) ∧
  (∀ a b : NUM, a = .nan ∨ b = .nan → a.add b = .nan ∧ a.sub b = .nan ∧ a.mul b = .nan ∧ a.div b = .nan) ∧
  (∀ (s t : Bool) (n : Nat),
    let i := NUM.inf s
    let j := NUM.inf t
    let x := NUM.fin t n
    i.add j = (if s = t then i else .nan) ∧ i.sub j = (if s = t then .nan else i) ∧ i.mul j = .inf (s != t) ∧ i.div j = .nan ∧
    i.add x = i ∧ x.add i = i ∧ i.sub x = i ∧ x.sub i = .inf (!s) ∧
    i.mul x = (if n = 0 then .nan else .inf (s != t)) ∧ x.mul i = (if n = 0 then .nan else .inf (s != t)) ∧
    i.div x = .inf (s != t) ∧ x.div i = .fin (s != t) 0)

/-! ### Invariants -/

/-- The machine meets every invariant right after power-on. -/
def Obligations.ResetMeetsInvariants : Prop :=
  State.reset.VoiceInv ∧ State.reset.DelayInv ∧ State.reset.CounterInv ∧ State.reset.AllPhasesInv params ∧ State.reset.Binary64 ∧
    State.reset.Silenced

/-- R70: every step keeps the envelope and the velocity in [0, 1], Silent exactly when no note is active, and the rate registers in agreement. -/
def Obligations.VoiceInvariant : Prop :=
  ∀ s t : State, s.VoiceInv → step s = .next t → t.VoiceInv

/-- R55, R70, R89: every step keeps the delay line canonical, its valid entries and its write index below `DL_LEN`, and `DL_LEN` at most `DELAY_MAX`. -/
def Obligations.DelayInvariant : Prop :=
  ∀ s t : State, s.DelayInv → step s = .next t → t.DelayInv

/-- R45, R375: every step keeps the two counters in their ranges (the crackle timer's bound is log entry 8). -/
def Obligations.CounterInvariant : Prop :=
  ∀ s t : State, s.CounterInv → step s = .next t → t.CounterInv

/-- R70, R221: every step keeps every phase register but `RMF_PH` in [0, 1), with `FREQ` between 0 and 20000 Hz, whatever the sine is (for the bound on
the power in `FREQ`, which R12 gives, see log entry 1). -/
def Obligations.LfoInvariant : Prop :=
  ∀ s t : State, s.PhaseInv params → step s = .next t → t.PhaseInv params

/-- R11, R30: every step keeps every NUM register a binary64 value. -/
def Obligations.Binary64Invariant : Prop :=
  ∀ s t : State, s.Binary64 → step s = .next t → t.Binary64

/-! ### Whole-machine rules -/

/-- From R301 and R84: `NOTE_ON n, v; RENDER m` from any two states with a valid rate, the same `FS` and the same knob appends the same words, but for the free sign and payload
of a NaN, which R84 leaves open (log entry 3). `DL_LEN` and `GP` agree because both states keep the rate registers in agreement. -/
def Obligations.RetriggerDeterminism : Prop :=
  ∀ (s t : State) (n m : Nat) (v : Word),
    s.RateInv → t.RateInv → s.rateValid = true → t.rateValid = true → s.fs = t.fs → s.knob = t.knob →
    s.out.depth = none → t.out.depth = none →
    ∃ (s1 s2 t1 t2 : State) (ws us : List Word),
      exec (.noteOn n v) s = .next s1 ∧ exec (.render m) s1 = .next s2 ∧
      exec (.noteOn n v) t = .next t1 ∧ exec (.render m) t1 = .next t2 ∧
      s2.out.words = s.out.words ++ ws ∧ t2.out.words = t.out.words ++ us ∧ ws.length = m ∧ us.length = m ∧
      ∀ p ∈ ws.zip us, p.1 = p.2 ∨ (NUM.ofBits32 p.1 = .nan ∧ NUM.ofBits32 p.2 = .nan)

/-- R302: from power-on, and from RESET, the voice is silent; only an accepted NOTE_ON ends that; and while it lasts every tick appends +0.0. -/
def Obligations.SilenceInvariant : Prop :=
  State.reset.Silenced ∧
  (∀ s t : State, exec .reset s = .next t → t.Silenced) ∧
  (∀ (i : Instr) (s t : State), s.Silenced → (∀ n v, i = .noteOn n v → 128 ≤ n) → exec i s = .next t → t.Silenced) ∧
  (∀ (m : Nat) (s : State), s.Silenced → s.rateValid = true → s.out.depth = none →
    ∃ t, exec (.render m) s = .next t ∧ t.out.words = s.out.words ++ List.replicate m 0x00000000)

/-- R63, R367, R368: a step raises at most one flag and clears none, but for CLEAR_ERR and RESET, which clear all five. -/
def Obligations.StickyFlags : Prop :=
  ∀ s t : State, step s = .next t →
    t.err = s.err ∨ (∃ f : ErrFlag, t.err = s.err ||| f.mask) ∨
      (t.err = 0 ∧ ∃ rest, decode (.port .cmd) s.cmd = .ok .clearErr rest ∨ decode (.port .cmd) s.cmd = .ok .reset rest)

/-- R67, R93, R334, R374: which command writes which register. A `CTL` command reaches `KNOB` and `CRSP` alone. -/
def Obligations.WhoWrites : Prop :=
  ∀ (i : Instr) (p : Port) (s t : State), i.source = .port p → exec i s = .next t →
    ((t.fs = s.fs ∧ t.rateValid = s.rateValid ∧ t.dlLen = s.dlLen ∧ t.gp = s.gp) ∨ (∃ d, i = .setRate d) ∨ i = .reset) ∧
    (t.knob = s.knob ∨ (∃ d, i = .setKnob d) ∨ i = .reset) ∧
    (t.knobSnap = s.knobSnap ∨ (∃ m, i = .render m) ∨ i = .reset) ∧
    ((t.voice.vel = s.voice.vel ∧ t.voice.freq = s.voice.freq) ∨ (∃ n d, i = .noteOn n d) ∨ (∃ d, i = .setRate d) ∨ i = .reset) ∧
    (t.voice = s.voice ∨ (∃ n d, i = .noteOn n d) ∨ (∃ n, i = .noteOff n) ∨ (∃ d, i = .setRate d) ∨ (∃ m, i = .render m) ∨
      i = .reset) ∧
    (∀ n, i = .noteOff n → t.voice = { s.voice with vstate := t.voice.vstate }) ∧
    (t.out = s.out ∨ ∃ m, i = .render m) ∧
    (t.rsp = s.rsp ∨ i ∈ [Instr.getActiveNote, .getWaveType, .getWeirdType, .getFilterType, .getStatus]) ∧
    (t.crsp = s.crsp ∨ i = .getKnob) ∧
    (t.err = s.err ∨ (∃ n d, i = .noteOn n d) ∨ (∃ n, i = .noteOff n) ∨ (∃ d, i = .setRate d) ∨ (∃ m, i = .render m) ∨
      i = .clearErr ∨ i = .reset) ∧
    t.cmd = s.cmd ∧ t.ctl = s.ctl ∧ t.handed = s.handed ∧
    (p = .ctl → t = { s with knob := t.knob, crsp := t.crsp })

/-- R297: the only changes of `VSTATE`, and where each leads. -/
def Obligations.VoiceTransitions : Prop :=
  ∀ (i : Instr) (p : Port) (s t : State), i.source = .port p → exec i s = .next t → t.voice.vstate ≠ s.voice.vstate →
    (∃ n d, i = .noteOn n d ∧ t.voice.vstate = if n < 128 then .sounding else .silent) ∨
    (∃ n : Fin 128, i = .noteOff n.val ∧ s.voice.vstate = .sounding ∧ s.voice.active = some n ∧ t.voice.vstate = .releasing) ∨
    (∃ m, i = .render m ∧ s.voice.vstate = .releasing ∧ t.voice.vstate = .silent ∧ t.voice.active = none) ∨
    (∃ d, i = .setRate d ∧ t.voice.vstate = .silent) ∨
    (i = .reset ∧ t.voice.vstate = .silent)

/-- R298: over a tick the envelope stays in [0, 1], does not fall while the note sounds and does not rise otherwise. -/
def Obligations.EnvelopeMonotone : Prop :=
  ∀ s : State, s.VoiceInv → s.Binary64 → s.rateValid = true →
    (tick params s).voice.env.inClosedUnit = true ∧
    (s.voice.vstate = .sounding → s.voice.env.le (tick params s).voice.env = true) ∧
    (s.voice.vstate ≠ .sounding → (tick params s).voice.env.le s.voice.env = true)

/-- R71, R180, R220, R250: a tick leaves the registers of every algorithm that the profile does not select as they were, and the note's own registers too. -/
def Obligations.SelectedOnly : Prop :=
  ∀ s : State,
    let pr := s.profile params
    let v := s.voice
    let u := (tick params s).voice
    u.vel = v.vel ∧ u.freq = v.freq ∧
    (u.prng = v.prng ∨ pr.wave.code ∈ [6, 7, 11]) ∧
    (u.pink = v.pink ∨ pr.wave.code = 7) ∧
    (u.crackleT = v.crackleT ∨ pr.wave.code = 11) ∧
    (u.wobPh = v.wobPh ∨ pr.effect.code ∈ [0, 7]) ∧
    (u.glitchCnt = v.glitchCnt ∨ pr.effect.code = 1) ∧
    (u.harmPh = v.harmPh ∨ pr.effect.code = 2) ∧
    (u.ringPh = v.ringPh ∨ pr.effect.code = 5) ∧
    (u.grainPh = v.grainPh ∨ pr.effect.code = 6) ∧
    (u.sweepLp = v.sweepLp ∨ pr.effect.code = 7) ∧
    (u.lad = v.lad ∨ pr.filter.code ∈ [0, 1, 2, 3]) ∧
    ((u.dl = v.dl ∧ u.dlW = v.dlW) ∨ pr.filter.code = 4) ∧
    (u.fmt = v.fmt ∨ pr.filter.code ∈ [5, 6, 7, 8, 9]) ∧
    (u.phs = v.phs ∨ pr.filter.code = 10) ∧
    (u.flfoPh = v.flfoPh ∨ pr.filter.code ∈ [10, 11]) ∧
    ((u.rmfPh = v.rmfPh ∧ u.rmfLp = v.rmfLp) ∨ pr.filter.code = 11)

/-- R70, R296: at a valid rate and a frequency from 0 to 20000 Hz the phase advance keeps the ten phases of the bank in [0, 1), even above the rate. And for
TRIG functions in the range of the mathematical ones, every step of the machine with them keeps every phase register in [0, 1), `RMF_PH` too. (R12 lets a
model assume no range of TRIG, so the range is a premise, and the machine is the one that takes TRIG as an argument.) -/
def Obligations.PhasesStayInUnit : Prop :=
  (∀ (s : State) (grainReset : Bool), s.RateInv → s.rateValid = true → NUM.zero.le s.voice.freq = true → s.voice.freq.le (lit 20000) = true →
    (∀ x ∈ [s.voice.ph, s.voice.phSub, s.voice.phFm] ++ s.voice.phSs.nums, x.inUnit = true) →
    let v := phaseAdvance params s.fs grainReset s.voice
    ∀ x ∈ [v.ph, v.phSub, v.phFm] ++ v.phSs.nums, x.inUnit = true) ∧
  (∀ (T : Trig) (nonFinite : NUM → Int) (nanBits : Nat → BitVec 24) (ctlTurn : Nat → Bool), T.InRange →
    let P := defaults binary64 T nonFinite nanBits ctlTurn
    ∀ s t : State, s.AllPhasesInv P → stepWith P s = .next t → t.AllPhasesInv P)
end

