-- ==== Sys2Proof/Laws/Num.lean ====
section
/-!
SUPPORT. What rounding does (R11): its result is representable, it leaves a representable value alone, and no representable value lies between a value
and its rounding; and from that, that every operation gives a binary64 value.
-/

namespace Sys2Proof

/-! ### The default format -/

@[simp] theorem binary64_unit : binary64.unit = NUM.unit := by rw [binary64]

@[simp] theorem binary64_round : binary64.round = NUM.finish := by rw [binary64]

@[simp] theorem binary64_one : binary64.one = .fin false NUM.unit := by rw [Format.one, binary64_unit]

/-! ### Rounding -/

theorem NUM.unit_pos : 0 < NUM.unit := by
  rw [NUM.unit]
  exact Nat.two_pow_pos _

/-- The last place of a value grows with it. -/
theorem NUM.ulp_mono {prec a b : Nat} (h : a ≤ b) : 2 ^ (Nat.log2 a + 1 - prec) ∣ 2 ^ (Nat.log2 b + 1 - prec) := by
  apply Nat.pow_dvd_pow
  have : Nat.log2 a ≤ Nat.log2 b := by
    by_cases ha : a = 0
    · simp [ha]
    · by_contra hc
      have h1 := (Nat.log2_lt (by omega : b ≠ 0)).mp (Nat.lt_of_not_le hc)
      have h2 := Nat.log2_self_le ha
      omega
  omega

/-- A multiple of the last place, not more than one unit above the quotient: the shape of every rounding. -/
theorem NUM.roundTo_eq (prec p q : Nat) :
    ∃ k, NUM.roundTo prec p q = k * 2 ^ (Nat.log2 (p / q) + 1 - prec) ∧
      (k = p / (q * 2 ^ (Nat.log2 (p / q) + 1 - prec)) ∨
        k = p / (q * 2 ^ (Nat.log2 (p / q) + 1 - prec)) + 1 ∧ p % (q * 2 ^ (Nat.log2 (p / q) + 1 - prec)) ≠ 0) := by
  unfold NUM.roundTo
  dsimp only
  split
  · rename_i h
    refine ⟨_, rfl, .inr ⟨rfl, ?_⟩⟩
    intro h0
    rw [h0] at h
    rcases h with h | ⟨h, h2⟩
    · omega
    · rw [show q * 2 ^ (Nat.log2 (p / q) + 1 - prec) = 0 by omega, Nat.div_zero] at h2
      omega
  · exact ⟨_, rfl, .inl rfl⟩

/-- Rounding leaves exactly the multiples of their own last place alone. -/
theorem NUM.roundTo_self {prec n : Nat} : NUM.roundTo prec n 1 = n ↔ 2 ^ (Nat.log2 n + 1 - prec) ∣ n := by
  obtain ⟨k, hk, h⟩ := NUM.roundTo_eq prec n 1
  rw [Nat.div_one] at hk h
  constructor
  · intro e
    rw [e] at hk
    exact ⟨k, by rw [Nat.mul_comm]; exact hk⟩
  · intro hd
    rw [hk]
    rcases h with h | ⟨-, h⟩
    · rw [h, Nat.one_mul, Nat.div_mul_cancel hd]
    · rw [Nat.one_mul] at h
      exact absurd (Nat.mod_eq_zero_of_dvd hd) h

/-- A representable value that is not above the exact one is not above the multiple of the last place below the exact one. -/
theorem NUM.le_floor {prec p q n : Nat} (hp : 0 < prec) (hq : 0 < q) (hn : NUM.roundTo prec n 1 = n) (h : n * q ≤ p) :
    n ≤ p / (q * 2 ^ (Nat.log2 (p / q) + 1 - prec)) * 2 ^ (Nat.log2 (p / q) + 1 - prec) := by
  rw [NUM.roundTo_self] at hn
  set u := 2 ^ (Nat.log2 (p / q) + 1 - prec) with hu
  have hu0 : 0 < u := Nat.two_pow_pos _
  have hn2 : n ≤ p / q := (Nat.le_div_iff_mul_le hq).mpr h
  by_cases hd : u ∣ n
  · obtain ⟨j, rfl⟩ := hd
    rw [Nat.mul_comm u j]
    apply Nat.mul_le_mul_right
    rw [Nat.le_div_iff_mul_le (by positivity)]
    calc j * (q * u) = u * j * q := by ring
      _ ≤ p := h
  · have hpq : p / q ≠ 0 := by
      intro h0
      rw [h0] at hn2
      apply hd
      simp [Nat.le_zero.mp hn2]
    have hlt : n < 2 ^ Nat.log2 (p / q) := by
      by_contra hc
      apply hd
      refine dvd_trans ?_ hn
      apply Nat.pow_dvd_pow
      have : Nat.log2 (p / q) ≤ Nat.log2 n := by
        by_contra hc2
        have := (Nat.log2_lt (n := n) (k := Nat.log2 (p / q)) (by
          have := Nat.two_pow_pos (Nat.log2 (p / q)); omega)).mp (by omega)
        omega
      omega
    have hself := Nat.log2_self_le hpq
    have he : Nat.log2 (p / q) + 1 - prec ≤ Nat.log2 (p / q) := by omega
    have h3 : 2 ^ Nat.log2 (p / q) = 2 ^ (Nat.log2 (p / q) - (Nat.log2 (p / q) + 1 - prec)) * u := by
      rw [hu, ← Nat.pow_add]
      congr 1
      omega
    have h4 : 2 ^ (Nat.log2 (p / q) - (Nat.log2 (p / q) + 1 - prec)) ≤ p / (q * u) := by
      rw [← Nat.div_div_eq_div_mul, Nat.le_div_iff_mul_le hu0, ← h3]
      exact hself
    calc n ≤ 2 ^ Nat.log2 (p / q) := hlt.le
      _ = _ := h3
      _ ≤ p / (q * u) * u := Nat.mul_le_mul_right u h4

/-- A representable value that is not above the exact one is not above its rounding. -/
theorem NUM.le_roundTo {prec p q n : Nat} (hp : 0 < prec) (hq : 0 < q) (hn : NUM.roundTo prec n 1 = n) (h : n * q ≤ p) :
    n ≤ NUM.roundTo prec p q := by
  obtain ⟨k, hk, hlo⟩ := NUM.roundTo_eq prec p q
  rw [hk]
  exact (NUM.le_floor hp hq hn h).trans (Nat.mul_le_mul_right _ (by rcases hlo with h | ⟨h, -⟩ <;> omega))

/-- A representable value that is not below the exact one is not below its rounding. -/
theorem NUM.roundTo_le {prec p q n : Nat} (hq : 0 < q) (hn : NUM.roundTo prec n 1 = n) (h : p ≤ n * q) :
    NUM.roundTo prec p q ≤ n := by
  rw [NUM.roundTo_self] at hn
  obtain ⟨k, hk, hlo⟩ := NUM.roundTo_eq prec p q
  have hle : p / q ≤ n := by
    rw [Nat.div_le_iff_le_mul_add_pred hq]
    nlinarith
  have hd : 2 ^ (Nat.log2 (p / q) + 1 - prec) ∣ n := dvd_trans (NUM.ulp_mono hle) hn
  set u := 2 ^ (Nat.log2 (p / q) + 1 - prec)
  have hu0 : 0 < u := Nat.two_pow_pos _
  rw [hk]
  obtain ⟨j, rfl⟩ := hd
  rw [Nat.mul_comm u j]
  apply Nat.mul_le_mul_right
  have hp : p ≤ j * (q * u) := by calc p ≤ u * j * q := h
    _ = j * (q * u) := by ring
  have hpos : 0 < q * u := by positivity
  rcases hlo with h1 | ⟨h1, h2⟩
  · rw [h1]
    exact Nat.div_le_of_le_mul (by rw [Nat.mul_comm]; exact hp)
  · rw [h1, Nat.succ_le_iff, Nat.div_lt_iff_lt_mul hpos]
    refine lt_of_le_of_ne hp fun e => h2 ?_
    rw [e]
    exact Nat.mul_mod_left _ _

/-- The result of a rounding is representable. -/
theorem NUM.roundTo_idem {prec : Nat} (hp : 0 < prec) (p q : Nat) :
    NUM.roundTo prec (NUM.roundTo prec p q) 1 = NUM.roundTo prec p q := by
  rw [NUM.roundTo_self]
  obtain ⟨k, hk, hlo⟩ := NUM.roundTo_eq prec p q
  set e := Nat.log2 (p / q) + 1 - prec with he
  have hu0 : 0 < 2 ^ e := Nat.two_pow_pos _
  have hlo2 : p / (q * 2 ^ e) < 2 ^ prec := by
    rw [← Nat.div_div_eq_div_mul, Nat.div_lt_iff_lt_mul hu0, ← Nat.pow_add]
    refine lt_of_lt_of_le Nat.lt_log2_self (Nat.pow_le_pow_right (by omega) (by omega))
  have hk2 : k ≤ 2 ^ prec := by rcases hlo with h | ⟨h, -⟩ <;> omega
  rw [hk]
  rcases Nat.lt_or_ge k (2 ^ prec) with h | h
  · apply dvd_mul_of_dvd_right
    apply Nat.pow_dvd_pow
    by_cases h0 : k * 2 ^ e = 0
    · rw [h0]; simp; omega
    · have := (Nat.log2_lt (k := prec + e) h0).mpr (by
        rw [Nat.pow_add]; exact Nat.mul_lt_mul_of_pos_right h hu0)
      omega
  · have : k = 2 ^ prec := le_antisymm hk2 h
    rw [this, ← Nat.pow_add, Nat.log2_two_pow]
    exact Nat.pow_dvd_pow _ (by omega)

/-- A representable value that is not below the exact one is a multiple of the exact one's last place. -/
theorem NUM.ulp_dvd {prec p q n : Nat} (hq : 0 < q) (hn : NUM.roundTo prec n 1 = n) (h : p ≤ n * q) :
    2 ^ (Nat.log2 (p / q) + 1 - prec) ∣ n := by
  refine (NUM.ulp_mono ?_).trans (NUM.roundTo_self.mp hn)
  rw [Nat.div_le_iff_le_mul_add_pred hq]
  nlinarith

/-- Rounding answers a nearest representable value, and of two that are as near the one whose last place is even (R11, R17). -/
theorem NUM.roundTo_nearest {prec p q n : Nat} (hp : 1 < prec) (hq : 0 < q) (hn : NUM.roundTo prec n 1 = n) :
    ((p : Int) - NUM.roundTo prec p q * q).natAbs ≤ ((p : Int) - n * q).natAbs ∧
      (((p : Int) - NUM.roundTo prec p q * q).natAbs = ((p : Int) - n * q).natAbs → n ≠ NUM.roundTo prec p q →
        NUM.roundTo prec p q / 2 ^ (Nat.log2 (NUM.roundTo prec p q) + 1 - prec) % 2 = 0) := by
  have hbelow := fun h => NUM.le_floor (p := p) (by omega : 0 < prec) hq hn h
  have habove := fun h => NUM.ulp_dvd (p := p) hq hn h
  have hidem := NUM.roundTo_idem (by omega : 0 < prec) p q
  rw [NUM.roundTo_self] at hidem
  have hup : NUM.roundTo prec p q ≤ 2 ^ (prec + (Nat.log2 (p / q) + 1 - prec)) := by
    refine NUM.roundTo_le hq ?_ ?_
    · rw [NUM.roundTo_self, Nat.log2_two_pow]
      exact Nat.pow_dvd_pow _ (by omega)
    · have h1 : p / q < 2 ^ (prec + (Nat.log2 (p / q) + 1 - prec)) :=
        lt_of_lt_of_le Nat.lt_log2_self (Nat.pow_le_pow_right (by omega) (by omega))
      exact ((Nat.div_lt_iff_lt_mul hq).mp h1).le
  have hr : ∃ k, NUM.roundTo prec p q = k * 2 ^ (Nat.log2 (p / q) + 1 - prec) ∧
      ((k = p / (q * 2 ^ (Nat.log2 (p / q) + 1 - prec)) ∧
          2 * (p % (q * 2 ^ (Nat.log2 (p / q) + 1 - prec))) ≤ q * 2 ^ (Nat.log2 (p / q) + 1 - prec) ∧
          (2 * (p % (q * 2 ^ (Nat.log2 (p / q) + 1 - prec))) = q * 2 ^ (Nat.log2 (p / q) + 1 - prec) → k % 2 = 0)) ∨
        (k = p / (q * 2 ^ (Nat.log2 (p / q) + 1 - prec)) + 1 ∧
          q * 2 ^ (Nat.log2 (p / q) + 1 - prec) ≤ 2 * (p % (q * 2 ^ (Nat.log2 (p / q) + 1 - prec))) ∧
          (2 * (p % (q * 2 ^ (Nat.log2 (p / q) + 1 - prec))) = q * 2 ^ (Nat.log2 (p / q) + 1 - prec) → k % 2 = 0))) := by
    unfold NUM.roundTo
    dsimp only
    split
    · exact ⟨_, rfl, .inr ⟨rfl, by omega, fun h => by omega⟩⟩
    · exact ⟨_, rfl, .inl ⟨rfl, by omega, fun h => by omega⟩⟩
  have hmod := Nat.div_add_mod p (q * 2 ^ (Nat.log2 (p / q) + 1 - prec))
  have hlt := Nat.mod_lt p (show 0 < q * 2 ^ (Nat.log2 (p / q) + 1 - prec) from by positivity)
  obtain ⟨k, hk, hr⟩ := hr
  rw [hk] at hidem hup ⊢
  set e := Nat.log2 (p / q) + 1 - prec with he
  have hu0 : 0 < 2 ^ e := Nat.two_pow_pos _
  -- the last place of the result, when it is even in units of the exact value's last place
  have heven : k % 2 = 0 → k * 2 ^ e / 2 ^ (Nat.log2 (k * 2 ^ e) + 1 - prec) % 2 = 0 := by
    intro h2
    by_cases hk0 : k * 2 ^ e = 0
    · rw [hk0]; simp
    · rcases Nat.lt_or_ge (k * 2 ^ e) (2 ^ (prec + e)) with h | h
      · have hlog : Nat.log2 (k * 2 ^ e) + 1 - prec ≤ e := by
          have := (Nat.log2_lt hk0).mpr h
          omega
        obtain ⟨d, hd⟩ := Nat.exists_eq_add_of_le hlog
        set f := Nat.log2 (k * 2 ^ e) + 1 - prec
        rw [hd, Nat.pow_add, ← Nat.mul_assoc, Nat.mul_right_comm, Nat.mul_div_cancel _ (Nat.two_pow_pos _), Nat.mul_mod, h2]
        simp
      · have heq : k * 2 ^ e = 2 ^ (prec + e) := le_antisymm hup h
        rw [heq, Nat.log2_two_pow, Nat.pow_div (by omega) (by omega)]
        have : prec + e - (prec + e + 1 - prec) = prec - 2 + 1 := by omega
        rw [this, Nat.pow_succ, Nat.mul_mod_left]
  set b := q * 2 ^ e with hb
  set lo := p / b
  set rem := p % b
  have hkb : ((k * 2 ^ e : Nat) : Int) * q = (k : Int) * b := by rw [hb]; push_cast; ring
  have hp' : (p : Int) = lo * b + rem := by rw [← hmod]; push_cast; ring
  rw [show ((k * 2 ^ e : Nat) : Int) * q = (k : Int) * b from hkb]
  have hn' : (n : Int) * q ≤ lo * b ∨ ((lo : Int) + 1) * b ≤ n * q ∨ (n : Int) * q = lo * b := by
    rcases Nat.le_total (n * q) p with h | h
    · left
      have := Nat.mul_le_mul_right q (hbelow h)
      have h2 : lo * 2 ^ e * q = lo * b := by rw [hb]; ring
      have : n * q ≤ lo * b := by rw [← h2]; exact this
      exact_mod_cast this
    · right
      obtain ⟨j, hj⟩ := habove h
      have h2 : n * q = j * b := by rw [hj, hb]; ring
      have h3 : lo ≤ j := by
        by_contra hc
        have : j * b + b ≤ lo * b := by nlinarith
        nlinarith
      rcases Nat.eq_or_lt_of_le h3 with h4 | h4
      · right
        rw [h4]
        exact_mod_cast h2
      · left
        have : (lo + 1) * b ≤ n * q := by
          rw [h2]
          exact Nat.mul_le_mul_right _ h4
        exact_mod_cast this
  have hne : n ≠ k * 2 ^ e → (n : Int) * q ≠ k * b := by
    intro h1 h2
    apply h1
    have h3 : n * q = k * 2 ^ e * q := by
      have : (n : Int) * q = ((k * 2 ^ e : Nat) : Int) * q := by rw [h2, hkb]
      exact_mod_cast this
    exact Nat.eq_of_mul_eq_mul_right hq h3
  generalize (n : Int) * q = N at *
  have hlob : ((lo : Int) + 1) * b = lo * b + b := by ring
  rw [hlob] at hn'
  generalize hLB : (lo : Int) * b = LB at *
  rcases hr with ⟨rfl, h1, h2⟩ | ⟨rfl, h1, h2⟩
  · rw [hLB] at *
    refine ⟨by omega, fun h3 h4 => heven (h2 ?_)⟩
    have := hne h4
    omega
  · have hKB : (((lo + 1 : Nat)) : Int) * b = LB + b := by push_cast; rw [hlob]
    rw [hKB]
    rw [hKB] at hne
    refine ⟨by omega, fun h3 h4 => heven (h2 ?_)⟩
    have := hne h4
    omega

theorem NUM.unit_eq : NUM.unit = 2 ^ NUM.scale := by rw [NUM.unit]

theorem NUM.scale_eq : NUM.scale = 1074 := by decide +kernel

theorem NUM.top_eq : NUM.top = 2 ^ NUM.topScale := by rw [NUM.top]

theorem NUM.topScale_eq : NUM.topScale = 2098 := by decide +kernel

/-- A finite value is a binary64 number: said of its magnitude. -/
theorem NUM.wf_fin {s : Bool} {m : Nat} : (NUM.fin s m).wf = true ↔ NUM.roundTo 53 m 1 = m ∧ m < NUM.top := by
  simp [NUM.wf]

/-- A power of two is representable. -/
theorem NUM.roundTo_pow {prec : Nat} (hp : 0 < prec) (k : Nat) : NUM.roundTo prec (2 ^ k) 1 = 2 ^ k := by
  rw [NUM.roundTo_self, Nat.log2_two_pow]
  exact Nat.pow_dvd_pow _ (by omega)

theorem NUM.wf_zero : NUM.zero.wf = true := by decide +kernel

theorem NUM.wf_one : NUM.one.wf = true := by decide +kernel

/-- What `finish` answers: the rounded magnitude, or an infinity from `2^1024` on. -/
theorem NUM.finish_cases (neg : Bool) (p q : Nat) :
    (NUM.roundTo 53 p q < NUM.top ∧ NUM.finish neg p q = .fin neg (NUM.roundTo 53 p q)) ∨
      (NUM.top ≤ NUM.roundTo 53 p q ∧ NUM.finish neg p q = .inf neg) := by
  rw [NUM.finish]
  split
  · exact .inr ⟨‹_›, rfl⟩
  · exact .inl ⟨by omega, rfl⟩

/-- Every rounding result is a binary64 value. -/
theorem NUM.finish_wf (neg : Bool) (p q : Nat) : (NUM.finish neg p q).wf = true := by
  rcases NUM.finish_cases neg p q with ⟨h, e⟩ | ⟨-, e⟩ <;> rw [e]
  · exact NUM.wf_fin.mpr ⟨NUM.roundTo_idem (by omega) p q, h⟩
  · rfl

/-- Below a binary64 bound the result is finite and not above the bound. -/
theorem NUM.finish_le {p q n : Nat} (neg : Bool) (hq : 0 < q) (hn : (NUM.fin false n).wf = true) (h : p ≤ n * q) :
    ∃ m, NUM.finish neg p q = .fin neg m ∧ m ≤ n := by
  obtain ⟨h1, h2⟩ := NUM.wf_fin.mp hn
  have := NUM.roundTo_le hq h1 h
  rcases NUM.finish_cases neg p q with ⟨-, e⟩ | ⟨h3, -⟩
  · exact ⟨_, e, this⟩
  · omega

/-- Above a binary64 bound the result is not below the bound, or is an infinity. -/
theorem NUM.le_finish {p q n : Nat} (neg : Bool) (hq : 0 < q) (hn : (NUM.fin false n).wf = true) (h : n * q ≤ p) :
    NUM.finish neg p q = .inf neg ∨ ∃ m, NUM.finish neg p q = .fin neg m ∧ n ≤ m := by
  have := NUM.le_roundTo (by omega) hq (NUM.wf_fin.mp hn).1 h
  rcases NUM.finish_cases neg p q with ⟨-, e⟩ | ⟨-, e⟩
  · exact .inr ⟨_, e, this⟩
  · exact .inl e

/-- A binary64 magnitude is its own rounding. -/
theorem NUM.finish_self {m : Nat} (neg : Bool) (h : (NUM.fin false m).wf = true) : NUM.finish neg m 1 = .fin neg m := by
  obtain ⟨h1, h2⟩ := NUM.wf_fin.mp h
  rcases NUM.finish_cases neg m 1 with ⟨-, e⟩ | ⟨h3, -⟩
  · rw [e, h1]
  · omega

/-! ### Every operation gives a binary64 value -/

theorem NUM.neg_wf {x : NUM} (h : x.wf = true) : x.neg.wf = true := by
  cases x <;> simp_all [NUM.neg, NUM.wf]

theorem NUM.abs_wf {x : NUM} (h : x.wf = true) : x.abs.wf = true := by
  cases x <;> simp_all [NUM.abs, NUM.wf]

theorem NUM.add_wf (a b : NUM) : (a.add b).wf = true := by
  cases a <;> cases b <;> simp only [NUM.add, Format.add, binary64_round]
  all_goals first
    | rfl
    | (split <;> first | rfl | exact NUM.wf_zero | exact NUM.finish_wf ..)

theorem NUM.sub_wf (a b : NUM) : (a.sub b).wf = true := by
  rw [NUM.sub, Format.sub]
  exact NUM.add_wf _ _

theorem NUM.mul_wf (a b : NUM) : (a.mul b).wf = true := by
  cases a <;> cases b <;> simp only [NUM.mul, Format.mul, binary64_round, binary64_unit]
  all_goals first
    | rfl
    | exact NUM.finish_wf ..
    | (split <;> rfl)

theorem NUM.div_wf (a b : NUM) : (a.div b).wf = true := by
  cases a <;> cases b <;> simp only [NUM.div, Format.div, binary64_round, binary64_unit]
  all_goals first
    | rfl
    | exact NUM.wf_zero
    | (split
       · split <;> rfl
       · exact NUM.finish_wf ..)

theorem NUM.min_wf {a b : NUM} (ha : a.wf = true) (hb : b.wf = true) : (a.min b).wf = true := by
  rw [NUM.min]
  repeat' split
  all_goals assumption

theorem NUM.max_wf {a b : NUM} (ha : a.wf = true) (hb : b.wf = true) : (a.max b).wf = true := by
  rw [NUM.max]
  repeat' split
  all_goals assumption

theorem NUM.clamp_wf {x lo hi : NUM} (hx : x.wf = true) (hlo : lo.wf = true) (hhi : hi.wf = true) :
    (x.clamp lo hi).wf = true := by
  rw [NUM.clamp]
  repeat' split
  all_goals assumption

theorem NUM.ofInt_wf (z : Int) : (NUM.ofInt z).wf = true := by
  rw [NUM.ofInt, Format.ofInt]
  exact NUM.finish_wf ..

theorem NUM.ofRatio_wf (p q : Nat) : (NUM.ofRatio p q).wf = true := by
  rw [NUM.ofRatio, Format.ofRatio]
  exact NUM.finish_wf ..

theorem NUM.wrap_wf (x : NUM) : x.wrap.wf = true := by
  rw [NUM.wrap, Format.wrap]
  exact NUM.sub_wf _ _

theorem NUM.fr_wf (x : NUM) : x.fr.wf = true := by
  rw [NUM.fr, Format.fr]
  split
  · exact NUM.wf_zero
  · exact NUM.sub_wf _ _

theorem NUM.floor_wf (x : NUM) : x.floor.wf = true := by
  cases x <;> simp only [NUM.floor, Format.floor, binary64_unit]
  case fin s m =>
    split
    · cases s <;> exact NUM.wf_zero
    · exact NUM.ofInt_wf _
  all_goals rfl

theorem NUM.rha_wf (x : NUM) : x.rha.wf = true := by
  rw [NUM.rha, Format.rha]
  split
  · exact NUM.ofInt_wf _
  · cases x <;> simp_all [Format.rhaInt?, NUM.wf]

/-- A number of fewer than `prec` bits, shifted, is representable. -/
theorem NUM.roundTo_mul_pow {prec f k : Nat} (hf : f < 2 ^ prec) :
    NUM.roundTo prec (f * 2 ^ k) 1 = f * 2 ^ k := by
  rw [NUM.roundTo_self]
  by_cases h0 : f * 2 ^ k = 0
  · simp [h0]
  · apply dvd_mul_of_dvd_right
    apply Nat.pow_dvd_pow
    have := (Nat.log2_lt (k := prec + k) h0).mpr (by
      rw [Nat.pow_add]; exact Nat.mul_lt_mul_of_pos_right hf (Nat.two_pow_pos k))
    omega

/-- Every pattern of binary64 gives a binary64 value. -/
theorem NUM.ofBits64_wf (b : BitVec 64) : (NUM.ofBits64 b).wf = true := by
  rw [NUM.ofBits64]
  have hf : b.toNat % 2 ^ 52 < 2 ^ 52 := Nat.mod_lt _ (Nat.two_pow_pos 52)
  have he : b.toNat / 2 ^ 52 % 2 ^ 11 < 2 ^ 11 := Nat.mod_lt _ (Nat.two_pow_pos 11)
  generalize b.toNat % 2 ^ 52 = f at *
  generalize b.toNat / 2 ^ 52 % 2 ^ 11 = e at *
  split
  · split <;> rfl
  · split
    · refine NUM.wf_fin.mpr ⟨?_, ?_⟩
      · have := NUM.roundTo_mul_pow (prec := 53) (f := f) (k := 0) (by omega)
        simpa using this
      · rw [NUM.top_eq]
        exact lt_trans hf (Nat.pow_lt_pow_right (by omega) (by rw [NUM.topScale_eq]; omega))
    · refine NUM.wf_fin.mpr ⟨NUM.roundTo_mul_pow (by omega), ?_⟩
      rw [NUM.top_eq]
      calc (2 ^ 52 + f) * 2 ^ (e - 1) < 2 ^ 53 * 2 ^ (e - 1) :=
            Nat.mul_lt_mul_of_pos_right (by omega) (Nat.two_pow_pos _)
        _ = 2 ^ (53 + (e - 1)) := (Nat.pow_add 2 53 (e - 1)).symm
        _ ≤ 2 ^ NUM.topScale := Nat.pow_le_pow_right (by omega) (by rw [NUM.topScale_eq]; omega)

/-- A binary64 magnitude that is the exact value is the result. -/
theorem NUM.finish_exact {p q m : Nat} (neg : Bool) (hq : 0 < q) (hm : (NUM.fin false m).wf = true) (h : p = m * q) :
    NUM.finish neg p q = .fin neg m := by
  obtain ⟨k, hk, hle⟩ := NUM.finish_le neg hq hm h.le
  rcases NUM.le_finish neg hq hm h.ge with e | ⟨k', hk', hle'⟩
  · rw [hk] at e; cases e
  · rw [hk] at hk' ⊢
    cases hk'
    rw [Nat.le_antisymm hle hle']

/-- 1.0 in units of `2^−149`, the unit of binary32. -/
theorem NUM.unit_split : NUM.unit = 2 ^ (NUM.scale - 149) * 2 ^ 149 := by
  rw [NUM.unit_eq, ← Nat.pow_add, Nat.sub_add_cancel (by rw [NUM.scale_eq]; omega)]

/-- The binary64 value of a binary32 pattern: the rounding of R17's `num` changes nothing. -/
theorem NUM.ofBits32_exact (b : Word) :
    let e := b.toNat / 2 ^ 23 % 2 ^ 8
    let f := b.toNat % 2 ^ 23
    NUM.ofBits32 b =
      if e = 255 then (if f = 0 then .inf b.msb else .nan)
      else if e = 0 then .fin b.msb (f * 2 ^ (NUM.scale - 149))
      else .fin b.msb ((2 ^ 23 + f) * 2 ^ (e - 1) * 2 ^ (NUM.scale - 149)) := by
  have hs := NUM.scale_eq
  have ht := NUM.topScale_eq
  have hf : b.toNat % 2 ^ 23 < 2 ^ 23 := Nat.mod_lt _ (Nat.two_pow_pos 23)
  have he : b.toNat / 2 ^ 23 % 2 ^ 8 < 2 ^ 8 := Nat.mod_lt _ (Nat.two_pow_pos 8)
  have hu := NUM.unit_split
  have hmag : ∀ g k, g < 2 ^ 24 → k ≤ 2000 → (NUM.fin false (g * 2 ^ k)).wf = true := by
    intro g k hg hk
    refine NUM.wf_fin.mpr ⟨NUM.roundTo_mul_pow (by omega), ?_⟩
    rw [NUM.top_eq]
    calc g * 2 ^ k < 2 ^ 24 * 2 ^ k := Nat.mul_lt_mul_of_pos_right hg (Nat.two_pow_pos _)
      _ = 2 ^ (24 + k) := (Nat.pow_add 2 24 k).symm
      _ ≤ 2 ^ NUM.topScale := Nat.pow_le_pow_right (by omega) (by omega)
  dsimp only
  rw [NUM.ofBits32, Format.ofBits32]
  simp only [binary64_round, binary64_unit]
  generalize b.toNat % 2 ^ 23 = f at *
  generalize b.toNat / 2 ^ 23 % 2 ^ 8 = e at *
  split
  · rfl
  · split
    · exact NUM.finish_exact _ (Nat.two_pow_pos _) (hmag f _ (by omega) (by omega)) (by rw [hu, Nat.mul_assoc])
    · refine NUM.finish_exact _ (Nat.two_pow_pos _) ?_ (by rw [hu]; simp only [Nat.mul_assoc])
      rw [Nat.mul_assoc, ← Nat.pow_add]
      exact hmag (2 ^ 23 + f) _ (by omega) (by omega)

/-- Every pattern of binary32 gives a binary64 value (R17). -/
theorem NUM.ofBits32_wf (b : Word) : (NUM.ofBits32 b).wf = true := by
  rw [NUM.ofBits32, Format.ofBits32]
  simp only [binary64_round]
  split
  · split <;> rfl
  · split <;> exact NUM.finish_wf ..

/-- A common factor changes no rounding. -/
theorem NUM.roundTo_scale (prec p q c : Nat) (hc : 0 < c) : NUM.roundTo prec (p * c) (q * c) = NUM.roundTo prec p q := by
  unfold NUM.roundTo
  dsimp only
  rw [Nat.mul_div_mul_right _ _ hc]
  set u := 2 ^ (Nat.log2 (p / q) + 1 - prec)
  rw [show q * c * u = q * u * c by ring, Nat.mul_div_mul_right _ _ hc, Nat.mul_mod_mul_right]
  have h1 : q * u * c < 2 * (p % (q * u) * c) ↔ q * u < 2 * (p % (q * u)) := by
    rw [← Nat.mul_assoc]; exact Nat.mul_lt_mul_right hc
  have h2 : 2 * (p % (q * u) * c) = q * u * c ↔ 2 * (p % (q * u)) = q * u := by
    rw [← Nat.mul_assoc]; exact Nat.mul_left_inj (by omega)
  simp only [h1, h2]

/-- The binary32 word of a finite binary64 value: its magnitude in units of `2^−149`, rounded once (R17). -/
theorem NUM.bits32_fin (free : BitVec 24) (s : Bool) (m : Nat) :
    NUM.bits32 free (.fin s m) = NUM.pattern32 s (NUM.roundTo 24 m (2 ^ (NUM.scale - 149))) := by
  have hs := NUM.scale_eq
  have hu := NUM.unit_split
  rw [NUM.bits32, Format.bits32]
  simp only [binary64_unit]
  rw [hu, NUM.roundTo_scale _ _ _ _ (Nat.two_pow_pos _)]

/-- A clamp between a value and itself is that value. -/
theorem NUM.clamp_self {m : Nat} (h : m ≠ 0) (x : NUM) : x.clamp (.fin false m) (.fin false m) = .fin false m := by
  rw [NUM.clamp]
  rcases x with _ | s | ⟨s, k⟩
  · rfl
  · cases s <;> simp [NUM.lt]
  · simp only [NUM.lt, NUM.signed, Bool.or_eq_true, decide_eq_true_eq]
    cases s <;> simp <;> omega

end Sys2Proof
end

