-- ==== Sys2Proof/Laws/Params.lean ====
section
/-!
SUPPORT. The parameters the machine runs with, one lemma per field: the spec's defaults (R9).
-/

namespace Sys2Proof.Machine

@[simp] theorem params_num : params.num = binary64 := rfl
@[simp] theorem params_sin (x : NUM) : params.trig.sin x = NUM.ofBits64 (Config.sinBits x) := rfl
@[simp] theorem params_cos (x : NUM) : params.trig.cos x = NUM.ofBits64 (Config.cosBits x) := rfl
@[simp] theorem params_tan (x : NUM) : params.trig.tan x = NUM.ofBits64 (Config.tanBits x) := rfl
@[simp] theorem params_pow2 (x : NUM) : params.trig.pow2 x = NUM.betweenPowers x (NUM.ofBits64 (Config.pow2Bits x)) := rfl
@[simp] theorem params_nonFinite : params.nonFinite = Config.integerOfNonFinite := rfl
@[simp] theorem params_nanBits : params.nanBits = Config.nanBits := rfl
@[simp] theorem params_ctlTurn : params.ctlTurn = Config.ctlTurn := rfl
@[simp] theorem params_outDepth : params.outDepth = none := rfl
@[simp] theorem params_rspDepth : params.rspDepth = none := rfl
@[simp] theorem params_crspDepth : params.crspDepth = none := rfl
@[simp] theorem params_portMap : params.portMap = PortMap.unmapped := rfl
@[simp] theorem params_delayMax : params.delayMax = 192000 := rfl
@[simp] theorem params_rateMin : params.rateMin = lit 1 := rfl
@[simp] theorem params_profileMap : params.profileMap = defaultProfileMap binary64 := rfl
@[simp] theorem params_kvMap : params.kvMap = defaultKvMap binary64 := rfl
@[simp] theorem params_releaseS : params.releaseS = dec 1 10 := rfl
@[simp] theorem params_masterAmp : params.masterAmp = dec 1 2 := rfl
@[simp] theorem params_prng : params.prng = lcg binary64 := rfl
@[simp] theorem params_ssDetune :
    params.ssDetune = ⟨dec 97 100, dec 98 100, dec 99 100, dec 100 100, dec 101 100, dec 102 100, dec 103 100⟩ := rfl
@[simp] theorem params_fmIndex : params.fmIndex = lit 2 := rfl
@[simp] theorem params_fmRatio : params.fmRatio = lit 2 := rfl
@[simp] theorem params_subRatio : params.subRatio = dec 1 2 := rfl
@[simp] theorem params_glitchSplit : params.glitchSplit = dec 1 2 := rfl
@[simp] theorem params_sweepDepth : params.sweepDepth = dec 1 2 := rfl
@[simp] theorem params_fGuard : params.fGuard = dec 99 100 := rfl
@[simp] theorem params_vowelA : params.vowelA = ⟨lit 730, lit 1090⟩ := rfl
@[simp] theorem params_vowelE : params.vowelE = ⟨lit 530, lit 1840⟩ := rfl
@[simp] theorem params_vowelI : params.vowelI = ⟨lit 270, lit 2290⟩ := rfl
@[simp] theorem params_vowelO : params.vowelO = ⟨lit 570, lit 840⟩ := rfl
@[simp] theorem params_vowelU : params.vowelU = ⟨lit 300, lit 870⟩ := rfl
@[simp] theorem params_vowelW0 : params.vowelW0 = lit 1 := rfl
@[simp] theorem params_vowelW1 : params.vowelW1 = dec 1 2 := rfl
@[simp] theorem params_phaserDepth : params.phaserDepth = dec 9 10 := rfl
@[simp] theorem params_rmfSweepHz : params.rmfSweepHz = dec 1 2 := rfl
@[simp] theorem params_rmfDepth : params.rmfDepth = dec 1 2 := rfl

end Sys2Proof.Machine
end

