-- ==== Sys2Proof/Laws/Bounds.lean ====
section
/-!
SUPPORT. Bounds through the operations: from bounds of the operands, a binary64 bound of the exact result is a bound of the rounded one. With these an
invariant about a phase, an envelope or a counter is a chain of bounds, and no proof unfolds an operation.
-/

namespace Sys2Proof

/-- A finite value from `lo` to `hi` units. -/
def NUM.Within (lo hi : Nat) (x : NUM) : Prop :=
  ∃ s m, x = .fin s m ∧ (lo : Int) ≤ NUM.signed s m ∧ NUM.signed s m ≤ hi

/-- Is it the magnitude of a binary64 value? -/
abbrev NUM.Mag (n : Nat) : Prop := (NUM.fin false n).wf = true

theorem NUM.mag_zero : NUM.Mag 0 := NUM.wf_zero

theorem NUM.mag_unit : NUM.Mag NUM.unit := NUM.wf_one

theorem NUM.Within.mono {lo hi lo' hi' : Nat} {x : NUM} (h : NUM.Within lo hi x) (hl : lo' ≤ lo) (hh : hi ≤ hi') :
    NUM.Within lo' hi' x := by
  obtain ⟨s, m, rfl, h1, h2⟩ := h
  exact ⟨s, m, rfl, by omega, by omega⟩

/-- The magnitude behind a bound: of positive sign, or zero. -/
theorem NUM.Within.mag {lo hi : Nat} {x : NUM} (h : NUM.Within lo hi x) :
    ∃ s m, x = .fin s m ∧ lo ≤ m ∧ m ≤ hi ∧ (s = true → m = 0) ∧ NUM.signed s m = m := by
  obtain ⟨s, m, rfl, h1, h2⟩ := h
  cases s <;> simp only [NUM.signed, Bool.false_eq_true, if_false, if_true] at * <;>
    exact ⟨_, m, rfl, by omega, by omega, by simp; try omega, by simp; try omega⟩

theorem NUM.within_fin {lo hi m : Nat} (s : Bool) (h : s = true → m = 0) (hl : lo ≤ m) (hh : m ≤ hi) :
    NUM.Within lo hi (.fin s m) := by
  refine ⟨s, m, rfl, ?_⟩
  cases s
  · simp [NUM.signed]; omega
  · simp [NUM.signed, h rfl]; have := h rfl; omega

/-- What is below a bound in the order of NUM. -/
theorem NUM.within_iff_le {lo hi : Nat} {x : NUM} :
    NUM.Within lo hi x ↔ (NUM.fin false lo).le x = true ∧ x.le (.fin false hi) = true := by
  constructor
  · rintro ⟨s, m, rfl, h1, h2⟩
    simp [NUM.le, NUM.signed] at *
    exact ⟨h1, h2⟩
  · rintro ⟨h1, h2⟩
    cases x with
    | nan => simp [NUM.le] at h1
    | inf b => cases b <;> simp [NUM.le] at h1 h2
    | fin s m =>
      refine ⟨s, m, rfl, ?_⟩
      simp [NUM.le, NUM.signed] at *
      exact ⟨h1, h2⟩

/-- From 0 to 1. -/
theorem NUM.inClosedUnit_iff {x : NUM} : x.inClosedUnit = true ↔ NUM.Within 0 NUM.unit x := by
  rw [NUM.within_iff_le]
  simp [NUM.inClosedUnit, NUM.zero, NUM.one]

/-- From 0 to below 1. -/
theorem NUM.inUnit_iff {x : NUM} : x.inUnit = true ↔ NUM.Within 0 (NUM.unit - 1) x := by
  have := NUM.unit_pos
  simp only [NUM.inUnit, NUM.zero, NUM.one, binary64_one, Bool.and_eq_true]
  generalize NUM.unit = u at *
  cases x with
  | nan => simp [NUM.le, NUM.Within]
  | inf b => cases b <;> simp [NUM.le, NUM.lt, NUM.Within]
  | fin s m =>
    simp only [NUM.le, NUM.lt, NUM.Within, decide_eq_true_eq]
    constructor
    · rintro ⟨h1, h2⟩
      refine ⟨s, m, rfl, ?_, ?_⟩
      · simpa [NUM.signed] using h1
      · simp only [NUM.signed, Bool.false_eq_true, if_false] at h2
        rw [show NUM.signed s m = if s = true then -(m : Int) else m from rfl]
        omega
    · rintro ⟨s', m', he, h1, h2⟩
      cases he
      refine ⟨by simpa [NUM.signed] using h1, ?_⟩
      rw [show NUM.signed false u = (u : Int) from rfl]
      omega

/-- A result that `finish` rounds lies in the bounds of the exact value, and is a binary64 value. -/
theorem NUM.within_finish {lo hi p q : Nat} (s : Bool) (hs : s = true → p = 0) (hq : 0 < q) (hlo : NUM.Mag lo) (hhi : NUM.Mag hi)
    (h1 : lo * q ≤ p) (h2 : p ≤ hi * q) : NUM.Within lo hi (NUM.finish s p q) := by
  obtain ⟨m, hm, hle⟩ := NUM.finish_le s hq hhi h2
  rw [hm]
  refine NUM.within_fin s (fun h => ?_) ?_ hle
  · obtain ⟨m', hm', hle'⟩ := NUM.finish_le (p := p) (q := q) s hq NUM.mag_zero (by rw [hs h]; omega)
    rw [hm'] at hm
    cases hm
    omega
  · rcases NUM.le_finish s hq hlo h1 with h | ⟨m', hm', hle'⟩
    · rw [h] at hm; cases hm
    · rw [hm'] at hm; cases hm; exact hle'

theorem NUM.within_add {l1 h1 l2 h2 lo hi : Nat} {a b : NUM} (ha : NUM.Within l1 h1 a) (hb : NUM.Within l2 h2 b)
    (hlo : NUM.Mag lo) (hhi : NUM.Mag hi) (hl : lo ≤ l1 + l2) (hh : h1 + h2 ≤ hi) : NUM.Within lo hi (a.add b) := by
  obtain ⟨s, m, rfl, ha1, ha2, -, ha4⟩ := ha.mag
  obtain ⟨t, n, rfl, hb1, hb2, -, hb4⟩ := hb.mag
  simp only [NUM.add, Format.add, binary64_round, ha4, hb4]
  split
  · exact NUM.within_fin _ (fun _ => rfl) (by omega) (by omega)
  · refine NUM.within_finish _ (fun h => ?_) (by omega) hlo hhi ?_ ?_
    · simp only [decide_eq_true_eq] at h; omega
    · omega
    · omega

theorem NUM.within_mul {l1 h1 l2 h2 lo hi : Nat} {a b : NUM} (ha : NUM.Within l1 h1 a) (hb : NUM.Within l2 h2 b)
    (hlo : NUM.Mag lo) (hhi : NUM.Mag hi) (hl : lo * NUM.unit ≤ l1 * l2) (hh : h1 * h2 ≤ hi * NUM.unit) :
    NUM.Within lo hi (a.mul b) := by
  obtain ⟨s, m, rfl, ha1, ha2, ha3, -⟩ := ha.mag
  obtain ⟨t, n, rfl, hb1, hb2, hb3, -⟩ := hb.mag
  simp only [NUM.mul, Format.mul, binary64_round, binary64_unit]
  refine NUM.within_finish _ (fun h => ?_) NUM.unit_pos hlo hhi (hl.trans (Nat.mul_le_mul ha1 hb1))
    ((Nat.mul_le_mul ha2 hb2).trans hh)
  cases s <;> cases t <;> simp_all

theorem NUM.within_div {l1 h1 l2 h2 lo hi : Nat} {a b : NUM} (ha : NUM.Within l1 h1 a) (hb : NUM.Within l2 h2 b)
    (hpos : 0 < l2) (hlo : NUM.Mag lo) (hhi : NUM.Mag hi) (hl : lo * h2 ≤ l1 * NUM.unit) (hh : h1 * NUM.unit ≤ hi * l2) :
    NUM.Within lo hi (a.div b) := by
  obtain ⟨s, m, rfl, ha1, ha2, ha3, -⟩ := ha.mag
  obtain ⟨t, n, rfl, hb1, hb2, hb3, -⟩ := hb.mag
  have hn : n ≠ 0 := by omega
  simp only [NUM.div, Format.div, binary64_round, binary64_unit, if_neg hn]
  refine NUM.within_finish _ (fun h => ?_) (by omega) hlo hhi ?_ ?_
  · have : t = false := by
      cases t
      · rfl
      · exact absurd (hb3 rfl) hn
    subst this
    cases s <;> simp_all
  · calc lo * n ≤ lo * h2 := Nat.mul_le_mul_left _ hb2
      _ ≤ l1 * NUM.unit := hl
      _ ≤ m * NUM.unit := Nat.mul_le_mul_right _ ha1
  · calc m * NUM.unit ≤ h1 * NUM.unit := Nat.mul_le_mul_right _ ha2
      _ ≤ hi * l2 := hh
      _ ≤ hi * n := Nat.mul_le_mul_left _ hb1

/-! ### Overflow -/

/-- The largest binary64 magnitude is one last place below `2^1024`, and its count of last places is odd. -/
theorem NUM.le_largest {r : Nat} (hr : NUM.roundTo 53 r 1 = r) (hlt : r < NUM.top) :
    r ≤ NUM.top - 2 * 2 ^ (NUM.topScale - 54) := by
  obtain ⟨w, hw⟩ : ∃ w, NUM.topScale = 54 + w := ⟨NUM.topScale - 54, by rw [NUM.topScale_eq]⟩
  rw [NUM.roundTo_self] at hr
  rw [NUM.top_eq, hw] at hlt ⊢
  rw [Nat.add_sub_cancel_left, show 2 * 2 ^ w = 2 ^ (w + 1) by ring]
  have h1 : 2 ^ (54 + w) = 2 ^ 53 * 2 ^ (w + 1) := by rw [show 54 + w = 53 + (w + 1) by omega, pow_add 2 53 (w + 1)]
  rcases Nat.lt_or_ge r (2 ^ (53 + w)) with h | h
  · have : 2 ^ (53 + w) = 2 ^ 52 * 2 ^ (w + 1) := by rw [show 53 + w = 52 + (w + 1) by omega, pow_add 2 52 (w + 1)]
    generalize 2 ^ (w + 1) = u at *
    omega
  · have hlog : Nat.log2 r = 53 + w := by
      have hr0 : r ≠ 0 := by have := Nat.two_pow_pos (53 + w); omega
      have h2 := (Nat.log2_lt hr0).mpr (show r < 2 ^ (53 + w + 1) by rw [show 53 + w + 1 = 54 + w by omega]; exact hlt)
      have h3 : ¬Nat.log2 r < 53 + w := fun h4 => by have := (Nat.log2_lt hr0).mp h4; omega
      omega
    rw [hlog, show 53 + w + 1 - 53 = w + 1 by omega] at hr
    obtain ⟨k, rfl⟩ := hr
    rw [h1, Nat.mul_comm (2 ^ (w + 1)) k] at *
    have : k < 2 ^ 53 := Nat.lt_of_mul_lt_mul_right hlt
    rw [← Nat.sub_one_mul]
    exact Nat.mul_le_mul_right _ (by omega)

/-- Rounding reaches `2^1024` exactly from half a last place above the largest finite value on. -/
theorem NUM.overflow_iff {p q : Nat} (hq : 0 < q) :
    NUM.top ≤ NUM.roundTo 53 p q ↔ (NUM.top - 2 ^ (NUM.topScale - 54)) * q ≤ p := by
  obtain ⟨w, hw⟩ : ∃ w, NUM.topScale = 54 + w := ⟨NUM.topScale - 54, by rw [NUM.topScale_eq]⟩
  have htop : NUM.top = 2 ^ 53 * (2 * 2 ^ w) := by
    rw [NUM.top_eq, hw, show 54 + w = 53 + 1 + w by omega, Nat.pow_add, Nat.pow_add]; ring
  have hrt : NUM.roundTo 53 NUM.top 1 = NUM.top := by rw [NUM.top_eq]; exact NUM.roundTo_pow (by omega) _
  have hlarge : NUM.roundTo 53 (NUM.top - 2 * 2 ^ w) 1 = NUM.top - 2 * 2 ^ w ∧
      (NUM.top - 2 * 2 ^ w) / 2 ^ (Nat.log2 (NUM.top - 2 * 2 ^ w) + 1 - 53) % 2 = 1 := by
    have h1 : NUM.top - 2 * 2 ^ w = (2 ^ 53 - 1) * 2 ^ (w + 1) := by rw [htop, pow_succ' 2 w]; omega
    have h2 : Nat.log2 ((2 ^ 53 - 1) * 2 ^ (w + 1)) = 53 + w := by
      have h0 : (2 ^ 53 - 1) * 2 ^ (w + 1) ≠ 0 := by positivity
      have h3 : Nat.log2 ((2 ^ 53 - 1) * 2 ^ (w + 1)) < 53 + w + 1 := (Nat.log2_lt h0).mpr (by
        rw [show 53 + w + 1 = 53 + (w + 1) by omega, Nat.pow_add 2 53 (w + 1)]
        exact Nat.mul_lt_mul_of_pos_right (by omega) (Nat.two_pow_pos _))
      have h4 : ¬Nat.log2 ((2 ^ 53 - 1) * 2 ^ (w + 1)) < 53 + w := fun h => by
        have := (Nat.log2_lt h0).mp h
        rw [show 53 + w = 52 + (w + 1) by omega, Nat.pow_add 2 52 (w + 1)] at this
        have := Nat.lt_of_mul_lt_mul_right this
        omega
      omega
    rw [h1]
    refine ⟨NUM.roundTo_mul_pow (by omega), ?_⟩
    rw [h2, show 53 + w + 1 - 53 = w + 1 by omega, Nat.mul_div_cancel _ (Nat.two_pow_pos _)]
    norm_num
  have hn1 := NUM.roundTo_nearest (p := p) (by omega : 1 < 53) hq hrt
  have hn2 := NUM.roundTo_nearest (p := p) (by omega : 1 < 53) hq hlarge.1
  have hidem := NUM.roundTo_idem (prec := 53) (by omega) p q
  have hle := fun h => NUM.le_largest hidem h
  have hodd := hlarge.2
  rw [hw, Nat.add_sub_cancel_left] at *
  have hu : 0 < 2 ^ w := Nat.two_pow_pos w
  have hu2 : 2 * 2 ^ w ≤ NUM.top := by rw [htop]; omega
  generalize hr : NUM.roundTo 53 p q = r at *
  have hpar : r = NUM.top - 2 * 2 ^ w → r / 2 ^ (Nat.log2 r + 1 - 53) % 2 = 0 → False := by
    rintro rfl h; omega
  clear hodd hlarge htop hw hidem hr
  generalize 2 ^ w = u at *
  have e1 : ((NUM.top - 2 * u : Nat) : Int) * q = (NUM.top : Int) * q - 2 * ((u : Int) * q) := by rw [Nat.cast_sub hu2]; push_cast; ring
  have e2 : (((NUM.top - u) * q : Nat) : Int) = (NUM.top : Int) * q - (u : Int) * q := by
    rw [Nat.cast_mul, Nat.cast_sub (by omega)]; ring
  have hU : 0 < (u : Int) * q := by positivity
  rw [e1] at hn2
  constructor
  · intro h
    by_contra hc
    have hR : (NUM.top : Int) * q ≤ (r : Int) * q := by exact_mod_cast Nat.mul_le_mul_right q h
    have hc' : (p : Int) < (NUM.top : Int) * q - (u : Int) * q := by rw [← e2]; exact_mod_cast Nat.lt_of_not_le hc
    generalize (r : Int) * q = R at *
    omega
  · intro h
    by_contra hc
    have h1 := hle (Nat.lt_of_not_le hc)
    have hR : (r : Int) * q ≤ (NUM.top : Int) * q - 2 * ((u : Int) * q) := by
      rw [← e1]; exact_mod_cast Nat.mul_le_mul_right q h1
    have h' : (NUM.top : Int) * q - (u : Int) * q ≤ p := by rw [← e2]; exact_mod_cast h
    have htie : ((p : Int) - r * q).natAbs = ((p : Int) - NUM.top * q).natAbs ∧ (r : Int) * q = (NUM.top : Int) * q - 2 * ((u : Int) * q) := by
      have := hn1.1
      generalize (r : Int) * q = R at *
      omega
    refine hpar ?_ (hn1.2 htie.1 (by omega))
    have := htie.2
    rw [← e1] at this
    have hq' : (q : Int) ≠ 0 := by omega
    have := mul_right_cancel₀ hq' this
    exact_mod_cast this

/-- What `finish` answers is the nearest binary64 value, of the sign asked for. -/
theorem NUM.nearest_finish {z : Int} {p q : Nat} {neg : Bool} (hq : 0 < q) (hp : z.natAbs = p)
    (hs : p ≠ 0 → (neg = true ↔ z < 0)) : NUM.Nearest z q (NUM.finish neg p q) := by
  subst hp
  have hover := NUM.overflow_iff (p := z.natAbs) hq
  rcases NUM.finish_cases neg z.natAbs q with ⟨h, e⟩ | ⟨h, e⟩
  · have hwf := NUM.finish_wf neg z.natAbs q
    rw [e] at hwf ⊢
    refine ⟨hwf, fun h0 => hs fun hz => h0 ?_, ?_, fun n hn => ?_⟩
    · have := NUM.roundTo_le (p := z.natAbs) hq (NUM.wf_fin.mp NUM.wf_zero).1 (by omega)
      omega
    · exact Nat.lt_of_not_le fun h' => absurd (hover.mpr h') (by omega)
    · exact NUM.roundTo_nearest (by omega) hq (NUM.wf_fin.mp hn).1
  · rw [e]
    have hle := hover.mp h
    refine ⟨hs ?_, hle⟩
    intro h0
    rw [h0] at h
    have := NUM.roundTo_le (p := 0) hq (NUM.wf_fin.mp NUM.wf_zero).1 (by omega)
    have : 0 < NUM.top := by rw [NUM.top_eq]; exact Nat.two_pow_pos _
    omega

end Sys2Proof
end

