-- ==== Sys2Proof/Laws/Memory.lean ====
section
/-!
SUPPORT. The laws of the delay line (R88): what a read gives after a write and after an invalidation, and that every operation keeps the canonical form.
-/

namespace Sys2Proof.Machine

/-- A read after a write to the same entry gives the value written, and the entry is valid. -/
theorem Memory.read_write_same (i : Nat) (v : NUM) (m : Memory) :
    Memory.read i (Memory.write i v m) = v ∧ Memory.validAt i (Memory.write i v m) = true := by
  induction m with
  | nil => simp [Memory.write, Memory.read, Memory.validAt]
  | cons c m ih =>
    simp only [Memory.write]
    split
    · simp [Memory.read, Memory.validAt]
    · split
      · simp [Memory.read, Memory.validAt]
      · rename_i h
        simpa [Memory.read, Memory.validAt, h] using ih

/-- A write leaves every other entry as it was. -/
theorem Memory.read_write_other {i j : Nat} (h : j ≠ i) (v : NUM) (m : Memory) :
    Memory.read j (Memory.write i v m) = Memory.read j m ∧ Memory.validAt j (Memory.write i v m) = Memory.validAt j m := by
  have hij : i ≠ j := fun e => h e.symm
  induction m with
  | nil => simp [Memory.write, Memory.read, Memory.validAt, hij]
  | cons c m ih =>
    simp only [Memory.write]
    split
    · simp [Memory.read, Memory.validAt, hij]
    · split
      · rename_i hc
        simp [Memory.read, Memory.validAt, hij, hc]
      · simp [Memory.read, Memory.validAt, ih]

/-- After an invalidation no entry is valid and every read gives 0.0. -/
theorem Memory.read_invalidate (i : Nat) (m : Memory) :
    Memory.read i (Memory.invalidate m) = .zero ∧ Memory.validAt i (Memory.invalidate m) = false := by
  induction m with
  | nil => exact ⟨rfl, rfl⟩
  | cons c m ih =>
    simp only [Memory.invalidate, List.map_cons, Memory.read, Memory.validAt] at *
    split <;> simp_all

/-- A read of an entry that is not valid gives 0.0. -/
theorem Memory.read_of_not_valid {i : Nat} {m : Memory} (h : Memory.validAt i m = false) : Memory.read i m = .zero := by
  induction m with
  | nil => rfl
  | cons c m ih =>
    simp only [Memory.read, Memory.validAt] at *
    split at h <;> simp_all

/-- The canonical form, said of the head and the tail. -/
theorem Memory.wf_cons {d : Nat} {c : DelayCell} {m : Memory} :
    Memory.wf d (c :: m) = true ↔ (∀ b ∈ m, c.index < b.index) ∧ c.index < d ∧ Memory.wf d m = true := by
  simp only [Memory.wf, List.pairwise_cons, List.all_cons, Bool.and_eq_true, decide_eq_true_eq]
  tauto

/-- Every index after a write is the one written or one that was there. -/
theorem Memory.mem_write {i : Nat} {v : NUM} {m : Memory} {c : DelayCell} (h : c ∈ Memory.write i v m) :
    c = ⟨i, v, true⟩ ∨ c ∈ m := by
  induction m with
  | nil => simpa [Memory.write] using h
  | cons b m ih =>
    simp only [Memory.write] at h
    split at h
    · simpa using h
    · split at h
      · rcases List.mem_cons.mp h with h | h
        · exact .inl h
        · exact .inr (List.mem_cons_of_mem _ h)
      · rcases List.mem_cons.mp h with h | h
        · exact .inr (h ▸ List.mem_cons_self)
        · exact (ih h).imp_right (List.mem_cons_of_mem _)

/-- A write below the bound keeps the canonical form. -/
theorem Memory.write_wf {d i : Nat} {m : Memory} (h : Memory.wf d m = true) (hi : i < d) (v : NUM) :
    Memory.wf d (Memory.write i v m) = true := by
  induction m with
  | nil => simp [Memory.write, Memory.wf, hi]
  | cons c m ih =>
    obtain ⟨hlt, hc, hm⟩ := Memory.wf_cons.mp h
    simp only [Memory.write]
    split
    · rename_i hic
      refine Memory.wf_cons.mpr ⟨fun b hb => ?_, hi, h⟩
      rcases List.mem_cons.mp hb with rfl | hb
      · exact hic
      · exact hic.trans (hlt b hb)
    · split
      · rename_i hci
        exact Memory.wf_cons.mpr ⟨fun b hb => hci ▸ hlt b hb, hi, hm⟩
      · refine Memory.wf_cons.mpr ⟨fun b hb => ?_, hc, ih hm⟩
        rcases Memory.mem_write hb with rfl | hb
        · simp only; omega
        · exact hlt b hb

/-- An invalidation keeps the canonical form. -/
theorem Memory.invalidate_wf {d : Nat} {m : Memory} (h : Memory.wf d m = true) : Memory.wf d (Memory.invalidate m) = true := by
  induction m with
  | nil => exact h
  | cons c m ih =>
    obtain ⟨hlt, hc, hm⟩ := Memory.wf_cons.mp h
    refine Memory.wf_cons.mpr ⟨fun b hb => ?_, hc, ih hm⟩
    obtain ⟨a, ha, rfl⟩ := List.mem_map.mp hb
    exact hlt a ha

/-- An invalidation leaves no entry valid, whatever its index. -/
theorem Memory.invalidate_valid {m : Memory} {c : DelayCell} (h : c ∈ Memory.invalidate m) : c.valid = false := by
  obtain ⟨a, -, rfl⟩ := List.mem_map.mp h
  rfl

/-- The delay line after power-on is in canonical form. -/
theorem Memory.reset_wf (d : Nat) : Memory.wf d State.reset.voice.dl = true := by
  simp [State.reset, Voice.silentWith, Memory.wf]

end Sys2Proof.Machine
end

