-- ==== Sys2Proof/Laws/Noise.lean ====
section
/-!
SUPPORT. The three noise waves as updates of the state, for any parameters: with the parameters a variable, no checker unfolds the generator's
arithmetic on large literals. Rewrite with these (they are not proved by `rfl` alone, so that `simp` keeps the rewriting step).
-/

namespace Sys2Proof.Machine

theorem prngNext_eq (P : Params) (r : BitVec 32) : prngNext P r = P.prng.next r := by rw [prngNext]

theorem drawValue_eq (P : Params) (r : BitVec 32) : drawValue P r = P.prng.draw r := by rw [drawValue]

/-- The default generator's step (R188). -/
theorem lcg_next (F : Format) (r : BitVec 32) : (lcg F).next r = 1013904223 + 1664525 * r := rfl

/-- The default generator's draw (R188). -/
theorem lcg_draw (F : Format) (r : BitVec 32) : (lcg F).draw r = F.ofRatio (r >>> 8).toNat (2 ^ 24) := by
  rw [lcg]
  simp only [lcgDraw]

theorem waveWhite_eq (P : Params) (s : State) : waveWhite P s = { s with
    voice := { s.voice with prng := prngNext P s.voice.prng }
    wires := { s.wires with x0 := ramp P.num (drawValue P (prngNext P s.voice.prng)) } } := by
  rw [waveWhite]
  rfl

theorem wavePink_eq (P : Params) (s : State) : wavePink P s = { s with
    voice := { s.voice with
      prng := prngNext P s.voice.prng
      pink := pinkNext P s.voice.pink (drawValue P (prngNext P s.voice.prng)) }
    wires := { s.wires with x0 := pinkNext P s.voice.pink (drawValue P (prngNext P s.voice.prng)) } } := by
  rw [wavePink]
  rfl

theorem waveCrackle_running (P : Params) (s : State) (h : 0 < s.voice.crackleT) : waveCrackle P s = { s with
    voice := { s.voice with crackleT := s.voice.crackleT - 1 }
    wires := { s.wires with x0 := .zero } } := by
  simp only [waveCrackle, if_pos h]
  rfl

theorem waveCrackle_impulse (P : Params) (s : State) (h : s.voice.crackleT = 0) : waveCrackle P s = { s with
    voice := { s.voice with
      prng := prngNext P (prngNext P s.voice.prng)
      crackleT := crackleGap P s.fs (drawValue P (prngNext P (prngNext P s.voice.prng))) }
    wires := { s.wires with x0 := P.num.mul (crackleAmp P.num) (ramp P.num (drawValue P (prngNext P s.voice.prng))) } } := by
  simp only [waveCrackle, if_neg (show ¬0 < s.voice.crackleT by omega)]
  rfl

end Sys2Proof.Machine
end

