-- ==== Sys2Proof/Laws/State.lean ====
section
/-!
SUPPORT. One lemma per field per update of the state, all true by definition, so that no later proof unfolds a record update.
-/

namespace Sys2Proof.Machine

/-! ### Another voice state -/

@[simp] theorem State.setVoice_voice (v : Voice) (s : State) : (s.setVoice v).voice = v := rfl
@[simp] theorem State.setVoice_fs (v : Voice) (s : State) : (s.setVoice v).fs = s.fs := rfl
@[simp] theorem State.setVoice_rateValid (v : Voice) (s : State) : (s.setVoice v).rateValid = s.rateValid := rfl
@[simp] theorem State.setVoice_dlLen (v : Voice) (s : State) : (s.setVoice v).dlLen = s.dlLen := rfl
@[simp] theorem State.setVoice_gp (v : Voice) (s : State) : (s.setVoice v).gp = s.gp := rfl
@[simp] theorem State.setVoice_knob (v : Voice) (s : State) : (s.setVoice v).knob = s.knob := rfl
@[simp] theorem State.setVoice_knobSnap (v : Voice) (s : State) : (s.setVoice v).knobSnap = s.knobSnap := rfl
@[simp] theorem State.setVoice_err (v : Voice) (s : State) : (s.setVoice v).err = s.err := rfl
@[simp] theorem State.setVoice_out (v : Voice) (s : State) : (s.setVoice v).out = s.out := rfl
@[simp] theorem State.setVoice_rsp (v : Voice) (s : State) : (s.setVoice v).rsp = s.rsp := rfl
@[simp] theorem State.setVoice_crsp (v : Voice) (s : State) : (s.setVoice v).crsp = s.crsp := rfl
@[simp] theorem State.setVoice_cmd (v : Voice) (s : State) : (s.setVoice v).cmd = s.cmd := rfl
@[simp] theorem State.setVoice_ctl (v : Voice) (s : State) : (s.setVoice v).ctl = s.ctl := rfl
@[simp] theorem State.setVoice_renderLeft (v : Voice) (s : State) : (s.setVoice v).renderLeft = s.renderLeft := rfl
@[simp] theorem State.setVoice_wires (v : Voice) (s : State) : (s.setVoice v).wires = s.wires := rfl
@[simp] theorem State.setVoice_handed (v : Voice) (s : State) : (s.setVoice v).handed = s.handed := rfl
@[simp] theorem State.setVoice_draws (v : Voice) (s : State) : (s.setVoice v).draws = s.draws := rfl
@[simp] theorem State.setVoice_turns (v : Voice) (s : State) : (s.setVoice v).turns = s.turns := rfl

/-! ### Other wires -/

@[simp] theorem State.setWires_voice (w : Wires) (s : State) : (s.setWires w).voice = s.voice := rfl
@[simp] theorem State.setWires_fs (w : Wires) (s : State) : (s.setWires w).fs = s.fs := rfl
@[simp] theorem State.setWires_rateValid (w : Wires) (s : State) : (s.setWires w).rateValid = s.rateValid := rfl
@[simp] theorem State.setWires_dlLen (w : Wires) (s : State) : (s.setWires w).dlLen = s.dlLen := rfl
@[simp] theorem State.setWires_gp (w : Wires) (s : State) : (s.setWires w).gp = s.gp := rfl
@[simp] theorem State.setWires_knob (w : Wires) (s : State) : (s.setWires w).knob = s.knob := rfl
@[simp] theorem State.setWires_knobSnap (w : Wires) (s : State) : (s.setWires w).knobSnap = s.knobSnap := rfl
@[simp] theorem State.setWires_err (w : Wires) (s : State) : (s.setWires w).err = s.err := rfl
@[simp] theorem State.setWires_out (w : Wires) (s : State) : (s.setWires w).out = s.out := rfl
@[simp] theorem State.setWires_rsp (w : Wires) (s : State) : (s.setWires w).rsp = s.rsp := rfl
@[simp] theorem State.setWires_crsp (w : Wires) (s : State) : (s.setWires w).crsp = s.crsp := rfl
@[simp] theorem State.setWires_cmd (w : Wires) (s : State) : (s.setWires w).cmd = s.cmd := rfl
@[simp] theorem State.setWires_ctl (w : Wires) (s : State) : (s.setWires w).ctl = s.ctl := rfl
@[simp] theorem State.setWires_renderLeft (w : Wires) (s : State) : (s.setWires w).renderLeft = s.renderLeft := rfl
@[simp] theorem State.setWires_wires (w : Wires) (s : State) : (s.setWires w).wires = w := rfl
@[simp] theorem State.setWires_handed (w : Wires) (s : State) : (s.setWires w).handed = s.handed := rfl
@[simp] theorem State.setWires_draws (w : Wires) (s : State) : (s.setWires w).draws = s.draws := rfl
@[simp] theorem State.setWires_turns (w : Wires) (s : State) : (s.setWires w).turns = s.turns := rfl

@[simp] theorem State.setX0_voice (x : NUM) (s : State) : (s.setX0 x).voice = s.voice := rfl
@[simp] theorem State.setX0_fs (x : NUM) (s : State) : (s.setX0 x).fs = s.fs := rfl
@[simp] theorem State.setX0_rateValid (x : NUM) (s : State) : (s.setX0 x).rateValid = s.rateValid := rfl
@[simp] theorem State.setX0_dlLen (x : NUM) (s : State) : (s.setX0 x).dlLen = s.dlLen := rfl
@[simp] theorem State.setX0_gp (x : NUM) (s : State) : (s.setX0 x).gp = s.gp := rfl
@[simp] theorem State.setX0_knob (x : NUM) (s : State) : (s.setX0 x).knob = s.knob := rfl
@[simp] theorem State.setX0_knobSnap (x : NUM) (s : State) : (s.setX0 x).knobSnap = s.knobSnap := rfl
@[simp] theorem State.setX0_err (x : NUM) (s : State) : (s.setX0 x).err = s.err := rfl
@[simp] theorem State.setX0_out (x : NUM) (s : State) : (s.setX0 x).out = s.out := rfl
@[simp] theorem State.setX0_rsp (x : NUM) (s : State) : (s.setX0 x).rsp = s.rsp := rfl
@[simp] theorem State.setX0_crsp (x : NUM) (s : State) : (s.setX0 x).crsp = s.crsp := rfl
@[simp] theorem State.setX0_cmd (x : NUM) (s : State) : (s.setX0 x).cmd = s.cmd := rfl
@[simp] theorem State.setX0_ctl (x : NUM) (s : State) : (s.setX0 x).ctl = s.ctl := rfl
@[simp] theorem State.setX0_renderLeft (x : NUM) (s : State) : (s.setX0 x).renderLeft = s.renderLeft := rfl
@[simp] theorem State.setX0_wires (x : NUM) (s : State) : (s.setX0 x).wires = { s.wires with x0 := x } := rfl
@[simp] theorem State.setX0_handed (x : NUM) (s : State) : (s.setX0 x).handed = s.handed := rfl
@[simp] theorem State.setX0_draws (x : NUM) (s : State) : (s.setX0 x).draws = s.draws := rfl
@[simp] theorem State.setX0_turns (x : NUM) (s : State) : (s.setX0 x).turns = s.turns := rfl

@[simp] theorem State.setX1_voice (x : NUM) (s : State) : (s.setX1 x).voice = s.voice := rfl
@[simp] theorem State.setX1_fs (x : NUM) (s : State) : (s.setX1 x).fs = s.fs := rfl
@[simp] theorem State.setX1_rateValid (x : NUM) (s : State) : (s.setX1 x).rateValid = s.rateValid := rfl
@[simp] theorem State.setX1_dlLen (x : NUM) (s : State) : (s.setX1 x).dlLen = s.dlLen := rfl
@[simp] theorem State.setX1_gp (x : NUM) (s : State) : (s.setX1 x).gp = s.gp := rfl
@[simp] theorem State.setX1_knob (x : NUM) (s : State) : (s.setX1 x).knob = s.knob := rfl
@[simp] theorem State.setX1_knobSnap (x : NUM) (s : State) : (s.setX1 x).knobSnap = s.knobSnap := rfl
@[simp] theorem State.setX1_err (x : NUM) (s : State) : (s.setX1 x).err = s.err := rfl
@[simp] theorem State.setX1_out (x : NUM) (s : State) : (s.setX1 x).out = s.out := rfl
@[simp] theorem State.setX1_rsp (x : NUM) (s : State) : (s.setX1 x).rsp = s.rsp := rfl
@[simp] theorem State.setX1_crsp (x : NUM) (s : State) : (s.setX1 x).crsp = s.crsp := rfl
@[simp] theorem State.setX1_cmd (x : NUM) (s : State) : (s.setX1 x).cmd = s.cmd := rfl
@[simp] theorem State.setX1_ctl (x : NUM) (s : State) : (s.setX1 x).ctl = s.ctl := rfl
@[simp] theorem State.setX1_renderLeft (x : NUM) (s : State) : (s.setX1 x).renderLeft = s.renderLeft := rfl
@[simp] theorem State.setX1_wires (x : NUM) (s : State) : (s.setX1 x).wires = { s.wires with x1 := x } := rfl
@[simp] theorem State.setX1_handed (x : NUM) (s : State) : (s.setX1 x).handed = s.handed := rfl
@[simp] theorem State.setX1_draws (x : NUM) (s : State) : (s.setX1 x).draws = s.draws := rfl
@[simp] theorem State.setX1_turns (x : NUM) (s : State) : (s.setX1 x).turns = s.turns := rfl

@[simp] theorem State.setX2_voice (x : NUM) (s : State) : (s.setX2 x).voice = s.voice := rfl
@[simp] theorem State.setX2_fs (x : NUM) (s : State) : (s.setX2 x).fs = s.fs := rfl
@[simp] theorem State.setX2_rateValid (x : NUM) (s : State) : (s.setX2 x).rateValid = s.rateValid := rfl
@[simp] theorem State.setX2_dlLen (x : NUM) (s : State) : (s.setX2 x).dlLen = s.dlLen := rfl
@[simp] theorem State.setX2_gp (x : NUM) (s : State) : (s.setX2 x).gp = s.gp := rfl
@[simp] theorem State.setX2_knob (x : NUM) (s : State) : (s.setX2 x).knob = s.knob := rfl
@[simp] theorem State.setX2_knobSnap (x : NUM) (s : State) : (s.setX2 x).knobSnap = s.knobSnap := rfl
@[simp] theorem State.setX2_err (x : NUM) (s : State) : (s.setX2 x).err = s.err := rfl
@[simp] theorem State.setX2_out (x : NUM) (s : State) : (s.setX2 x).out = s.out := rfl
@[simp] theorem State.setX2_rsp (x : NUM) (s : State) : (s.setX2 x).rsp = s.rsp := rfl
@[simp] theorem State.setX2_crsp (x : NUM) (s : State) : (s.setX2 x).crsp = s.crsp := rfl
@[simp] theorem State.setX2_cmd (x : NUM) (s : State) : (s.setX2 x).cmd = s.cmd := rfl
@[simp] theorem State.setX2_ctl (x : NUM) (s : State) : (s.setX2 x).ctl = s.ctl := rfl
@[simp] theorem State.setX2_renderLeft (x : NUM) (s : State) : (s.setX2 x).renderLeft = s.renderLeft := rfl
@[simp] theorem State.setX2_wires (x : NUM) (s : State) : (s.setX2 x).wires = { s.wires with x2 := x } := rfl
@[simp] theorem State.setX2_handed (x : NUM) (s : State) : (s.setX2 x).handed = s.handed := rfl
@[simp] theorem State.setX2_draws (x : NUM) (s : State) : (s.setX2 x).draws = s.draws := rfl
@[simp] theorem State.setX2_turns (x : NUM) (s : State) : (s.setX2 x).turns = s.turns := rfl

/-! ### A raised flag -/

@[simp] theorem State.raise_voice (f : ErrFlag) (s : State) : (s.raise f).voice = s.voice := rfl
@[simp] theorem State.raise_fs (f : ErrFlag) (s : State) : (s.raise f).fs = s.fs := rfl
@[simp] theorem State.raise_rateValid (f : ErrFlag) (s : State) : (s.raise f).rateValid = s.rateValid := rfl
@[simp] theorem State.raise_dlLen (f : ErrFlag) (s : State) : (s.raise f).dlLen = s.dlLen := rfl
@[simp] theorem State.raise_gp (f : ErrFlag) (s : State) : (s.raise f).gp = s.gp := rfl
@[simp] theorem State.raise_knob (f : ErrFlag) (s : State) : (s.raise f).knob = s.knob := rfl
@[simp] theorem State.raise_knobSnap (f : ErrFlag) (s : State) : (s.raise f).knobSnap = s.knobSnap := rfl
@[simp] theorem State.raise_err (f : ErrFlag) (s : State) : (s.raise f).err = s.err ||| f.mask := rfl
@[simp] theorem State.raise_out (f : ErrFlag) (s : State) : (s.raise f).out = s.out := rfl
@[simp] theorem State.raise_rsp (f : ErrFlag) (s : State) : (s.raise f).rsp = s.rsp := rfl
@[simp] theorem State.raise_crsp (f : ErrFlag) (s : State) : (s.raise f).crsp = s.crsp := rfl
@[simp] theorem State.raise_cmd (f : ErrFlag) (s : State) : (s.raise f).cmd = s.cmd := rfl
@[simp] theorem State.raise_ctl (f : ErrFlag) (s : State) : (s.raise f).ctl = s.ctl := rfl
@[simp] theorem State.raise_renderLeft (f : ErrFlag) (s : State) : (s.raise f).renderLeft = s.renderLeft := rfl
@[simp] theorem State.raise_wires (f : ErrFlag) (s : State) : (s.raise f).wires = s.wires := rfl
@[simp] theorem State.raise_handed (f : ErrFlag) (s : State) : (s.raise f).handed = s.handed := rfl
@[simp] theorem State.raise_draws (f : ErrFlag) (s : State) : (s.raise f).draws = s.draws := rfl
@[simp] theorem State.raise_turns (f : ErrFlag) (s : State) : (s.raise f).turns = s.turns := rfl

/-! ### A word appended to OUT -/

@[simp] theorem State.emit_voice (w : Word) (s : State) : (s.emit w).voice = s.voice := rfl
@[simp] theorem State.emit_fs (w : Word) (s : State) : (s.emit w).fs = s.fs := rfl
@[simp] theorem State.emit_rateValid (w : Word) (s : State) : (s.emit w).rateValid = s.rateValid := rfl
@[simp] theorem State.emit_dlLen (w : Word) (s : State) : (s.emit w).dlLen = s.dlLen := rfl
@[simp] theorem State.emit_gp (w : Word) (s : State) : (s.emit w).gp = s.gp := rfl
@[simp] theorem State.emit_knob (w : Word) (s : State) : (s.emit w).knob = s.knob := rfl
@[simp] theorem State.emit_knobSnap (w : Word) (s : State) : (s.emit w).knobSnap = s.knobSnap := rfl
@[simp] theorem State.emit_err (w : Word) (s : State) : (s.emit w).err = s.err := rfl
@[simp] theorem State.emit_out (w : Word) (s : State) : (s.emit w).out = s.out.push w := rfl
@[simp] theorem State.emit_rsp (w : Word) (s : State) : (s.emit w).rsp = s.rsp := rfl
@[simp] theorem State.emit_crsp (w : Word) (s : State) : (s.emit w).crsp = s.crsp := rfl
@[simp] theorem State.emit_cmd (w : Word) (s : State) : (s.emit w).cmd = s.cmd := rfl
@[simp] theorem State.emit_ctl (w : Word) (s : State) : (s.emit w).ctl = s.ctl := rfl
@[simp] theorem State.emit_renderLeft (w : Word) (s : State) : (s.emit w).renderLeft = s.renderLeft := rfl
@[simp] theorem State.emit_wires (w : Word) (s : State) : (s.emit w).wires = s.wires := rfl
@[simp] theorem State.emit_handed (w : Word) (s : State) : (s.emit w).handed = s.handed := rfl
@[simp] theorem State.emit_draws (w : Word) (s : State) : (s.emit w).draws = s.draws := rfl
@[simp] theorem State.emit_turns (w : Word) (s : State) : (s.emit w).turns = s.turns := rfl

/-! ### A voice reset -/

@[simp] theorem State.voiceReset_voice (s : State) : (s.voiceReset).voice = Voice.silentWith (Memory.invalidate s.voice.dl) := rfl
@[simp] theorem State.voiceReset_fs (s : State) : (s.voiceReset).fs = s.fs := rfl
@[simp] theorem State.voiceReset_rateValid (s : State) : (s.voiceReset).rateValid = s.rateValid := rfl
@[simp] theorem State.voiceReset_dlLen (s : State) : (s.voiceReset).dlLen = s.dlLen := rfl
@[simp] theorem State.voiceReset_gp (s : State) : (s.voiceReset).gp = s.gp := rfl
@[simp] theorem State.voiceReset_knob (s : State) : (s.voiceReset).knob = s.knob := rfl
@[simp] theorem State.voiceReset_knobSnap (s : State) : (s.voiceReset).knobSnap = s.knobSnap := rfl
@[simp] theorem State.voiceReset_err (s : State) : (s.voiceReset).err = s.err := rfl
@[simp] theorem State.voiceReset_out (s : State) : (s.voiceReset).out = s.out := rfl
@[simp] theorem State.voiceReset_rsp (s : State) : (s.voiceReset).rsp = s.rsp := rfl
@[simp] theorem State.voiceReset_crsp (s : State) : (s.voiceReset).crsp = s.crsp := rfl
@[simp] theorem State.voiceReset_cmd (s : State) : (s.voiceReset).cmd = s.cmd := rfl
@[simp] theorem State.voiceReset_ctl (s : State) : (s.voiceReset).ctl = s.ctl := rfl
@[simp] theorem State.voiceReset_renderLeft (s : State) : (s.voiceReset).renderLeft = s.renderLeft := rfl
@[simp] theorem State.voiceReset_wires (s : State) : (s.voiceReset).wires = s.wires := rfl
@[simp] theorem State.voiceReset_handed (s : State) : (s.voiceReset).handed = s.handed := rfl
@[simp] theorem State.voiceReset_draws (s : State) : (s.voiceReset).draws = s.draws := rfl
@[simp] theorem State.voiceReset_turns (s : State) : (s.voiceReset).turns = s.turns := rfl

/-! ### Other words waiting on a port -/

@[simp] theorem State.setWaiting_cmd_voice (ws : List Word) (s : State) : (s.setWaiting .cmd ws).voice = s.voice := rfl
@[simp] theorem State.setWaiting_cmd_fs (ws : List Word) (s : State) : (s.setWaiting .cmd ws).fs = s.fs := rfl
@[simp] theorem State.setWaiting_cmd_rateValid (ws : List Word) (s : State) : (s.setWaiting .cmd ws).rateValid = s.rateValid := rfl
@[simp] theorem State.setWaiting_cmd_dlLen (ws : List Word) (s : State) : (s.setWaiting .cmd ws).dlLen = s.dlLen := rfl
@[simp] theorem State.setWaiting_cmd_gp (ws : List Word) (s : State) : (s.setWaiting .cmd ws).gp = s.gp := rfl
@[simp] theorem State.setWaiting_cmd_knob (ws : List Word) (s : State) : (s.setWaiting .cmd ws).knob = s.knob := rfl
@[simp] theorem State.setWaiting_cmd_knobSnap (ws : List Word) (s : State) : (s.setWaiting .cmd ws).knobSnap = s.knobSnap := rfl
@[simp] theorem State.setWaiting_cmd_err (ws : List Word) (s : State) : (s.setWaiting .cmd ws).err = s.err := rfl
@[simp] theorem State.setWaiting_cmd_out (ws : List Word) (s : State) : (s.setWaiting .cmd ws).out = s.out := rfl
@[simp] theorem State.setWaiting_cmd_rsp (ws : List Word) (s : State) : (s.setWaiting .cmd ws).rsp = s.rsp := rfl
@[simp] theorem State.setWaiting_cmd_crsp (ws : List Word) (s : State) : (s.setWaiting .cmd ws).crsp = s.crsp := rfl
@[simp] theorem State.setWaiting_cmd_cmd (ws : List Word) (s : State) : (s.setWaiting .cmd ws).cmd = ws := rfl
@[simp] theorem State.setWaiting_cmd_ctl (ws : List Word) (s : State) : (s.setWaiting .cmd ws).ctl = s.ctl := rfl
@[simp] theorem State.setWaiting_cmd_renderLeft (ws : List Word) (s : State) : (s.setWaiting .cmd ws).renderLeft = s.renderLeft := rfl
@[simp] theorem State.setWaiting_cmd_wires (ws : List Word) (s : State) : (s.setWaiting .cmd ws).wires = s.wires := rfl
@[simp] theorem State.setWaiting_cmd_handed (ws : List Word) (s : State) : (s.setWaiting .cmd ws).handed = s.handed := rfl
@[simp] theorem State.setWaiting_cmd_draws (ws : List Word) (s : State) : (s.setWaiting .cmd ws).draws = s.draws := rfl
@[simp] theorem State.setWaiting_cmd_turns (ws : List Word) (s : State) : (s.setWaiting .cmd ws).turns = s.turns := rfl

@[simp] theorem State.setWaiting_ctl_voice (ws : List Word) (s : State) : (s.setWaiting .ctl ws).voice = s.voice := rfl
@[simp] theorem State.setWaiting_ctl_fs (ws : List Word) (s : State) : (s.setWaiting .ctl ws).fs = s.fs := rfl
@[simp] theorem State.setWaiting_ctl_rateValid (ws : List Word) (s : State) : (s.setWaiting .ctl ws).rateValid = s.rateValid := rfl
@[simp] theorem State.setWaiting_ctl_dlLen (ws : List Word) (s : State) : (s.setWaiting .ctl ws).dlLen = s.dlLen := rfl
@[simp] theorem State.setWaiting_ctl_gp (ws : List Word) (s : State) : (s.setWaiting .ctl ws).gp = s.gp := rfl
@[simp] theorem State.setWaiting_ctl_knob (ws : List Word) (s : State) : (s.setWaiting .ctl ws).knob = s.knob := rfl
@[simp] theorem State.setWaiting_ctl_knobSnap (ws : List Word) (s : State) : (s.setWaiting .ctl ws).knobSnap = s.knobSnap := rfl
@[simp] theorem State.setWaiting_ctl_err (ws : List Word) (s : State) : (s.setWaiting .ctl ws).err = s.err := rfl
@[simp] theorem State.setWaiting_ctl_out (ws : List Word) (s : State) : (s.setWaiting .ctl ws).out = s.out := rfl
@[simp] theorem State.setWaiting_ctl_rsp (ws : List Word) (s : State) : (s.setWaiting .ctl ws).rsp = s.rsp := rfl
@[simp] theorem State.setWaiting_ctl_crsp (ws : List Word) (s : State) : (s.setWaiting .ctl ws).crsp = s.crsp := rfl
@[simp] theorem State.setWaiting_ctl_cmd (ws : List Word) (s : State) : (s.setWaiting .ctl ws).cmd = s.cmd := rfl
@[simp] theorem State.setWaiting_ctl_ctl (ws : List Word) (s : State) : (s.setWaiting .ctl ws).ctl = ws := rfl
@[simp] theorem State.setWaiting_ctl_renderLeft (ws : List Word) (s : State) : (s.setWaiting .ctl ws).renderLeft = s.renderLeft := rfl
@[simp] theorem State.setWaiting_ctl_wires (ws : List Word) (s : State) : (s.setWaiting .ctl ws).wires = s.wires := rfl
@[simp] theorem State.setWaiting_ctl_handed (ws : List Word) (s : State) : (s.setWaiting .ctl ws).handed = s.handed := rfl
@[simp] theorem State.setWaiting_ctl_draws (ws : List Word) (s : State) : (s.setWaiting .ctl ws).draws = s.draws := rfl
@[simp] theorem State.setWaiting_ctl_turns (ws : List Word) (s : State) : (s.setWaiting .ctl ws).turns = s.turns := rfl

/-! ### The draw of a turn -/

@[simp] theorem afterTurn_voice (s : State) : (afterTurn s).voice = s.voice := by
  unfold afterTurn; split <;> rfl
@[simp] theorem afterTurn_fs (s : State) : (afterTurn s).fs = s.fs := by
  unfold afterTurn; split <;> rfl
@[simp] theorem afterTurn_rateValid (s : State) : (afterTurn s).rateValid = s.rateValid := by
  unfold afterTurn; split <;> rfl
@[simp] theorem afterTurn_dlLen (s : State) : (afterTurn s).dlLen = s.dlLen := by
  unfold afterTurn; split <;> rfl
@[simp] theorem afterTurn_gp (s : State) : (afterTurn s).gp = s.gp := by
  unfold afterTurn; split <;> rfl
@[simp] theorem afterTurn_knob (s : State) : (afterTurn s).knob = s.knob := by
  unfold afterTurn; split <;> rfl
@[simp] theorem afterTurn_knobSnap (s : State) : (afterTurn s).knobSnap = s.knobSnap := by
  unfold afterTurn; split <;> rfl
@[simp] theorem afterTurn_err (s : State) : (afterTurn s).err = s.err := by
  unfold afterTurn; split <;> rfl
@[simp] theorem afterTurn_out (s : State) : (afterTurn s).out = s.out := by
  unfold afterTurn; split <;> rfl
@[simp] theorem afterTurn_rsp (s : State) : (afterTurn s).rsp = s.rsp := by
  unfold afterTurn; split <;> rfl
@[simp] theorem afterTurn_crsp (s : State) : (afterTurn s).crsp = s.crsp := by
  unfold afterTurn; split <;> rfl
@[simp] theorem afterTurn_cmd (s : State) : (afterTurn s).cmd = s.cmd := by
  unfold afterTurn; split <;> rfl
@[simp] theorem afterTurn_ctl (s : State) : (afterTurn s).ctl = s.ctl := by
  unfold afterTurn; split <;> rfl
@[simp] theorem afterTurn_renderLeft (s : State) : (afterTurn s).renderLeft = s.renderLeft := by
  unfold afterTurn; split <;> rfl
@[simp] theorem afterTurn_wires (s : State) : (afterTurn s).wires = s.wires := by
  unfold afterTurn; split <;> rfl
@[simp] theorem afterTurn_handed (s : State) : (afterTurn s).handed = s.handed := by
  unfold afterTurn; split <;> rfl
@[simp] theorem afterTurn_draws (s : State) : (afterTurn s).draws = s.draws := by
  unfold afterTurn; split <;> rfl

/-! ### A response -/

@[simp] theorem State.respond_voice (w : Word) (s : State) : (s.respond w).voice = s.voice := by
  unfold State.respond; split <;> rfl
@[simp] theorem State.respond_fs (w : Word) (s : State) : (s.respond w).fs = s.fs := by
  unfold State.respond; split <;> rfl
@[simp] theorem State.respond_rateValid (w : Word) (s : State) : (s.respond w).rateValid = s.rateValid := by
  unfold State.respond; split <;> rfl
@[simp] theorem State.respond_dlLen (w : Word) (s : State) : (s.respond w).dlLen = s.dlLen := by
  unfold State.respond; split <;> rfl
@[simp] theorem State.respond_gp (w : Word) (s : State) : (s.respond w).gp = s.gp := by
  unfold State.respond; split <;> rfl
@[simp] theorem State.respond_knob (w : Word) (s : State) : (s.respond w).knob = s.knob := by
  unfold State.respond; split <;> rfl
@[simp] theorem State.respond_knobSnap (w : Word) (s : State) : (s.respond w).knobSnap = s.knobSnap := by
  unfold State.respond; split <;> rfl
@[simp] theorem State.respond_err (w : Word) (s : State) : (s.respond w).err = s.err := by
  unfold State.respond; split <;> rfl
@[simp] theorem State.respond_out (w : Word) (s : State) : (s.respond w).out = s.out := by
  unfold State.respond; split <;> rfl
@[simp] theorem State.respond_crsp (w : Word) (s : State) : (s.respond w).crsp = s.crsp := by
  unfold State.respond; split <;> rfl
@[simp] theorem State.respond_cmd (w : Word) (s : State) : (s.respond w).cmd = s.cmd := by
  unfold State.respond; split <;> rfl
@[simp] theorem State.respond_ctl (w : Word) (s : State) : (s.respond w).ctl = s.ctl := by
  unfold State.respond; split <;> rfl
@[simp] theorem State.respond_renderLeft (w : Word) (s : State) : (s.respond w).renderLeft = s.renderLeft := by
  unfold State.respond; split <;> rfl
@[simp] theorem State.respond_wires (w : Word) (s : State) : (s.respond w).wires = s.wires := by
  unfold State.respond; split <;> rfl
@[simp] theorem State.respond_handed (w : Word) (s : State) : (s.respond w).handed = s.handed := by
  unfold State.respond; split <;> rfl
@[simp] theorem State.respond_draws (w : Word) (s : State) : (s.respond w).draws = s.draws := by
  unfold State.respond; split <;> rfl
@[simp] theorem State.respond_turns (w : Word) (s : State) : (s.respond w).turns = s.turns := by
  unfold State.respond; split <;> rfl

@[simp] theorem State.respondCtl_voice (w : Word) (s : State) : (s.respondCtl w).voice = s.voice := by
  unfold State.respondCtl; split <;> rfl
@[simp] theorem State.respondCtl_fs (w : Word) (s : State) : (s.respondCtl w).fs = s.fs := by
  unfold State.respondCtl; split <;> rfl
@[simp] theorem State.respondCtl_rateValid (w : Word) (s : State) : (s.respondCtl w).rateValid = s.rateValid := by
  unfold State.respondCtl; split <;> rfl
@[simp] theorem State.respondCtl_dlLen (w : Word) (s : State) : (s.respondCtl w).dlLen = s.dlLen := by
  unfold State.respondCtl; split <;> rfl
@[simp] theorem State.respondCtl_gp (w : Word) (s : State) : (s.respondCtl w).gp = s.gp := by
  unfold State.respondCtl; split <;> rfl
@[simp] theorem State.respondCtl_knob (w : Word) (s : State) : (s.respondCtl w).knob = s.knob := by
  unfold State.respondCtl; split <;> rfl
@[simp] theorem State.respondCtl_knobSnap (w : Word) (s : State) : (s.respondCtl w).knobSnap = s.knobSnap := by
  unfold State.respondCtl; split <;> rfl
@[simp] theorem State.respondCtl_err (w : Word) (s : State) : (s.respondCtl w).err = s.err := by
  unfold State.respondCtl; split <;> rfl
@[simp] theorem State.respondCtl_out (w : Word) (s : State) : (s.respondCtl w).out = s.out := by
  unfold State.respondCtl; split <;> rfl
@[simp] theorem State.respondCtl_rsp (w : Word) (s : State) : (s.respondCtl w).rsp = s.rsp := by
  unfold State.respondCtl; split <;> rfl
@[simp] theorem State.respondCtl_cmd (w : Word) (s : State) : (s.respondCtl w).cmd = s.cmd := by
  unfold State.respondCtl; split <;> rfl
@[simp] theorem State.respondCtl_ctl (w : Word) (s : State) : (s.respondCtl w).ctl = s.ctl := by
  unfold State.respondCtl; split <;> rfl
@[simp] theorem State.respondCtl_renderLeft (w : Word) (s : State) : (s.respondCtl w).renderLeft = s.renderLeft := by
  unfold State.respondCtl; split <;> rfl
@[simp] theorem State.respondCtl_wires (w : Word) (s : State) : (s.respondCtl w).wires = s.wires := by
  unfold State.respondCtl; split <;> rfl
@[simp] theorem State.respondCtl_handed (w : Word) (s : State) : (s.respondCtl w).handed = s.handed := by
  unfold State.respondCtl; split <;> rfl
@[simp] theorem State.respondCtl_draws (w : Word) (s : State) : (s.respondCtl w).draws = s.draws := by
  unfold State.respondCtl; split <;> rfl
@[simp] theorem State.respondCtl_turns (w : Word) (s : State) : (s.respondCtl w).turns = s.turns := by
  unfold State.respondCtl; split <;> rfl

/-! ### A sample -/

@[simp] theorem State.emitSample_voice (P : Params) (v : NUM) (s : State) : (s.emitSample P v).voice = s.voice := by
  unfold State.emitSample; dsimp only; split <;> rfl
@[simp] theorem State.emitSample_fs (P : Params) (v : NUM) (s : State) : (s.emitSample P v).fs = s.fs := by
  unfold State.emitSample; dsimp only; split <;> rfl
@[simp] theorem State.emitSample_rateValid (P : Params) (v : NUM) (s : State) : (s.emitSample P v).rateValid = s.rateValid := by
  unfold State.emitSample; dsimp only; split <;> rfl
@[simp] theorem State.emitSample_dlLen (P : Params) (v : NUM) (s : State) : (s.emitSample P v).dlLen = s.dlLen := by
  unfold State.emitSample; dsimp only; split <;> rfl
@[simp] theorem State.emitSample_gp (P : Params) (v : NUM) (s : State) : (s.emitSample P v).gp = s.gp := by
  unfold State.emitSample; dsimp only; split <;> rfl
@[simp] theorem State.emitSample_knob (P : Params) (v : NUM) (s : State) : (s.emitSample P v).knob = s.knob := by
  unfold State.emitSample; dsimp only; split <;> rfl
@[simp] theorem State.emitSample_knobSnap (P : Params) (v : NUM) (s : State) : (s.emitSample P v).knobSnap = s.knobSnap := by
  unfold State.emitSample; dsimp only; split <;> rfl
@[simp] theorem State.emitSample_err (P : Params) (v : NUM) (s : State) : (s.emitSample P v).err = s.err := by
  unfold State.emitSample; dsimp only; split <;> rfl
@[simp] theorem State.emitSample_out (P : Params) (v : NUM) (s : State) : (s.emitSample P v).out = s.out.push (P.num.bits32 (P.nanBits s.draws) v) := by
  unfold State.emitSample; dsimp only; split <;> rfl
@[simp] theorem State.emitSample_rsp (P : Params) (v : NUM) (s : State) : (s.emitSample P v).rsp = s.rsp := by
  unfold State.emitSample; dsimp only; split <;> rfl
@[simp] theorem State.emitSample_crsp (P : Params) (v : NUM) (s : State) : (s.emitSample P v).crsp = s.crsp := by
  unfold State.emitSample; dsimp only; split <;> rfl
@[simp] theorem State.emitSample_cmd (P : Params) (v : NUM) (s : State) : (s.emitSample P v).cmd = s.cmd := by
  unfold State.emitSample; dsimp only; split <;> rfl
@[simp] theorem State.emitSample_ctl (P : Params) (v : NUM) (s : State) : (s.emitSample P v).ctl = s.ctl := by
  unfold State.emitSample; dsimp only; split <;> rfl
@[simp] theorem State.emitSample_renderLeft (P : Params) (v : NUM) (s : State) : (s.emitSample P v).renderLeft = s.renderLeft := by
  unfold State.emitSample; dsimp only; split <;> rfl
@[simp] theorem State.emitSample_wires (P : Params) (v : NUM) (s : State) : (s.emitSample P v).wires = s.wires := by
  unfold State.emitSample; dsimp only; split <;> rfl
@[simp] theorem State.emitSample_handed (P : Params) (v : NUM) (s : State) : (s.emitSample P v).handed = s.handed := by
  unfold State.emitSample; dsimp only; split <;> rfl
@[simp] theorem State.emitSample_turns (P : Params) (v : NUM) (s : State) : (s.emitSample P v).turns = s.turns := by
  unfold State.emitSample; dsimp only; split <;> rfl

@[simp] theorem State.emitSample_draws (P : Params) (v : NUM) (s : State) :
    (s.emitSample P v).draws = if v = .nan then s.draws + 1 else s.draws := by
  unfold State.emitSample; dsimp only; split <;> rfl

@[simp] theorem Stream.push_words (w : Word) (q : Stream) : (q.push w).words = q.words ++ [w] := rfl
@[simp] theorem Stream.push_depth (w : Word) (q : Stream) : (q.push w).depth = q.depth := rfl

end Sys2Proof.Machine
end

