-- ==== Sys2Proof/Laws/Step.lean ====
section
/-!
SUPPORT. Everything a step can do, said once (R320, R399, R402).
-/

namespace Sys2Proof.Machine

/-- Every instruction has a meaning that answers a next state. -/
theorem exec_next (i : Instr) (s : State) : ∃ t, exec i s = .next t := by
  cases i <;> exact ⟨_, rfl⟩

/-- A bank that is handed a code decodes it as the selector tables do. -/
theorem decode_bank (b : Bank) (w : Word) (rest : List Word) :
    decode (.bank b) (w :: rest) =
      match decodeSelector b w.toNat with
      | some i => .ok i rest
      | none => .illegal rest := by
  cases b <;> rfl

/-- A step that answers a next state did one of five things: nothing; an operation a bank was handed; an illegal command consumed; a command
performed after its words were consumed; or a held RENDER resumed; the last three only while no bank is handed a code. Said of any parameters and of what performs the instructions. -/
theorem stepOf_cases {P : Params} {run : Instr → State → Host.Outcome State Fault Refusal} {s t : State}
    (h : stepOf P run s = .next t) :
    t = s ∨
    (∃ sel i, s.handed = some sel ∧ decodeSelector sel.bank sel.code.toNat = some i ∧
      run i { s with handed := none } = .next t) ∨
    s.handed = none ∧
      ((∃ p rest, decode (.port p) (s.waiting p) = .illegal rest ∧ t = illegalCommand p rest (afterTurn s)) ∨
      (∃ p i rest, decode (.port p) (s.waiting p) = .ok i rest ∧ (p = .cmd → s.renderLeft = 0) ∧
        run i ((afterTurn s).setWaiting p rest) = .next t) ∨
      (s.renderLeft ≠ 0 ∧ t = resumeRender P (afterTurn s))) := by
  have hw : ∀ p, (afterTurn s).waiting p = s.waiting p := by
    intro p
    cases p <;> simp [State.waiting]
  have hport : ∀ p, (p = .cmd → s.renderLeft = 0) → stepPort run p (afterTurn s) = .next t →
      t = afterTurn s ∧ decode (.port p) (s.waiting p) = .hold ∨
      (∃ rest, decode (.port p) (s.waiting p) = .illegal rest ∧ t = illegalCommand p rest (afterTurn s)) ∨
      (∃ i rest, decode (.port p) (s.waiting p) = .ok i rest ∧ (p = .cmd → s.renderLeft = 0) ∧
        run i ((afterTurn s).setWaiting p rest) = .next t) := by
    intro p hp hs
    unfold stepPort at hs
    rw [hw] at hs
    split at hs
    · rename_i hd
      exact .inl ⟨(Host.Outcome.next.inj hs).symm, hd⟩
    · rename_i rest hd
      exact .inr (.inl ⟨rest, hd, (Host.Outcome.next.inj hs).symm⟩)
    · rename_i i rest hd
      exact .inr (.inr ⟨i, rest, hd, hp, hs⟩)
  unfold stepOf at h
  split at h
  · rename_i sel hsel
    unfold stepSelector at h
    rw [decode_bank] at h
    cases hd : decodeSelector sel.bank sel.code.toNat with
    | none => simp [hd] at h
    | some i =>
      simp only [hd] at h
      exact .inr (.inl ⟨sel, i, hsel, hd, h⟩)
  · rename_i hh
    split at h
    · exact .inl (Host.Outcome.next.inj h).symm
    · rename_i hturn
      rcases hport .ctl (by simp) h with ⟨-, hd⟩ | ⟨rest, hd, ht⟩ | ⟨i, rest, hd, hp, he⟩
      · simp [turn, ctlReady, State.waiting] at hturn hd
        simp [hd, performable] at hturn
        split at hturn <;> simp_all
      · exact .inr (.inr ⟨hh, .inl ⟨_, rest, hd, ht⟩⟩)
      · exact .inr (.inr ⟨hh, .inr (.inl ⟨_, i, rest, hd, hp, he⟩)⟩)
    · rename_i hturn
      split at h
      · rename_i h0
        rcases hport .cmd (fun _ => h0) h with ⟨-, hd⟩ | ⟨rest, hd, ht⟩ | ⟨i, rest, hd, hp, he⟩
        · simp [turn, cmdReady, State.waiting] at hturn hd
          simp [hd, h0, performable] at hturn
          split at hturn <;> simp_all
        · exact .inr (.inr ⟨hh, .inl ⟨_, rest, hd, ht⟩⟩)
        · exact .inr (.inr ⟨hh, .inr (.inl ⟨_, i, rest, hd, hp, he⟩)⟩)
      · rename_i h0
        exact .inr (.inr ⟨hh, .inr (.inr ⟨h0, (Host.Outcome.next.inj h).symm⟩)⟩)

/-- What a step of the machine does. -/
theorem step_cases {s t : State} (h : step s = .next t) :
    t = s ∨
    (∃ sel i, s.handed = some sel ∧ decodeSelector sel.bank sel.code.toNat = some i ∧
      exec i { s with handed := none } = .next t) ∨
    s.handed = none ∧
      ((∃ p rest, decode (.port p) (s.waiting p) = .illegal rest ∧ t = illegalCommand p rest (afterTurn s)) ∨
      (∃ p i rest, decode (.port p) (s.waiting p) = .ok i rest ∧ (p = .cmd → s.renderLeft = 0) ∧
        exec i ((afterTurn s).setWaiting p rest) = .next t) ∨
      (s.renderLeft ≠ 0 ∧ t = resumeRender params (afterTurn s))) := stepOf_cases h

end Sys2Proof.Machine
end

