-- ==== Sys2Proof/Laws/Parametric.lean ====
section
/-!
SUPPORT. `exec`, `step` and the state after reset are the machine of any parameters at the spec's defaults (R9), and what a mapped address reaches (R94).
-/

namespace Sys2Proof.Machine

/-- Every meaning is its operation at `params`. -/
theorem exec_eq_execWith : exec = execWith params := by
  funext i s
  cases i <;> rfl

/-- The step is the step at `params`. -/
theorem step_eq_stepWith : step = stepWith params := by
  funext s
  rw [step, stepWith, exec_eq_execWith]

/-- The state after reset is the one at `params`. -/
theorem reset_eq_resetWith : State.reset = State.resetWith params := rfl

/-- Every instruction answers a next state, whatever the parameters. -/
theorem execWith_next (P : Params) (i : Instr) (s : State) : ∃ t, execWith P i s = .next t := by
  cases i <;> exact ⟨_, rfl⟩

/-! ### Mapped ports -/

/-- In a well-formed map an address reaches the command port that is mapped there. -/
theorem PortMap.commandAt_iff {M : PortMap} (h : M.wf = true) (a : Nat) :
    (M.commandAt a = some .cmd ↔ M.cmd = some a) ∧ (M.commandAt a = some .ctl ↔ M.ctl = some a) := by
  unfold commandAt
  simp only [wf, Bool.and_eq_true, Bool.or_eq_true, decide_eq_true_eq, bne_iff_ne] at h
  grind

/-- In a well-formed map an address reaches the output stream that is mapped there. -/
theorem PortMap.outputAt_iff {M : PortMap} (h : M.wf = true) (a : Nat) :
    (M.outputAt a = some .out ↔ M.out = some a) ∧ (M.outputAt a = some .rsp ↔ M.rsp = some a) ∧
      (M.outputAt a = some .crsp ↔ M.crsp = some a) := by
  unfold outputAt
  simp only [wf, Bool.and_eq_true, Bool.or_eq_true, decide_eq_true_eq, bne_iff_ne] at h
  grind

/-- By default no address reaches a port. -/
theorem storeAt_params (a : Nat) (w : Word) (s : State) : s.storeAt params a w = none := rfl

/-- By default no address reaches a stream. -/
theorem loadAt_params (a : Nat) (s : State) : s.loadAt params a = none := rfl

end Sys2Proof.Machine
end

