-- ==== Sys2Proof/Laws/PerInstr.lean ====
section
/-!
SUPPORT. What is said of every instruction as syntax: how many words it takes at its source (R110, R111, R115, R116, R121 to R123).
-/

namespace Sys2Proof.Laws.CommandLength

/-- Is a data word part of the instruction (formats `ND` and `D`, R111)? -/
def hasData : Instr → Bool
  | .noteOn _ _ => true
  | .setRate _ => true
  | .setKnob _ => true
  | _ => false

/-- The encoding is one word, and a second one exactly with a data word (R110). -/
def Statement (i : Instr) : Prop := (encode i).length = if hasData i then 2 else 1

theorem noteOn (n : Nat) (d : Word) : Statement (.noteOn n d) := rfl
theorem noteOff (n : Nat) : Statement (.noteOff n) := rfl
theorem setRate (d : Word) : Statement (.setRate d) := rfl
theorem render (c : Nat) : Statement (.render c) := rfl
theorem getActiveNote : Statement (.getActiveNote) := rfl
theorem getWaveType : Statement (.getWaveType) := rfl
theorem getWeirdType : Statement (.getWeirdType) := rfl
theorem getFilterType : Statement (.getFilterType) := rfl
theorem getStatus : Statement (.getStatus) := rfl
theorem clearErr : Statement (.clearErr) := rfl
theorem reset : Statement (.reset) := rfl
theorem setKnob (d : Word) : Statement (.setKnob d) := rfl
theorem getKnob : Statement (.getKnob) := rfl
theorem wSine : Statement (.wSine) := rfl
theorem wSquare : Statement (.wSquare) := rfl
theorem wSaw : Statement (.wSaw) := rfl
theorem wTriangle : Statement (.wTriangle) := rfl
theorem wPulse25 : Statement (.wPulse25) := rfl
theorem wPulse75 : Statement (.wPulse75) := rfl
theorem wWhite : Statement (.wWhite) := rfl
theorem wPink : Statement (.wPink) := rfl
theorem wSupersaw : Statement (.wSupersaw) := rfl
theorem wFm : Statement (.wFm) := rfl
theorem wSub : Statement (.wSub) := rfl
theorem wCrackle : Statement (.wCrackle) := rfl
theorem eWobbler : Statement (.eWobbler) := rfl
theorem eGlitcher : Statement (.eGlitcher) := rfl
theorem eHarmonizer : Statement (.eHarmonizer) := rfl
theorem eReverser : Statement (.eReverser) := rfl
theorem eBitcrusher : Statement (.eBitcrusher) := rfl
theorem eRingmod : Statement (.eRingmod) := rfl
theorem eGranular : Statement (.eGranular) := rfl
theorem eFiltersweep : Statement (.eFiltersweep) := rfl
theorem fLadderLp : Statement (.fLadderLp) := rfl
theorem fLadderHp : Statement (.fLadderHp) := rfl
theorem fLadderBp : Statement (.fLadderBp) := rfl
theorem fNotch : Statement (.fNotch) := rfl
theorem fComb : Statement (.fComb) := rfl
theorem fVowelA : Statement (.fVowelA) := rfl
theorem fVowelE : Statement (.fVowelE) := rfl
theorem fVowelI : Statement (.fVowelI) := rfl
theorem fVowelO : Statement (.fVowelO) := rfl
theorem fVowelU : Statement (.fVowelU) := rfl
theorem fPhaser : Statement (.fPhaser) := rfl
theorem fRingmod : Statement (.fRingmod) := rfl

end Sys2Proof.Laws.CommandLength
end

