-- ==== Sys2Proof/Laws/Stages.lean ====
section
/-!
SUPPORT. Everything a stage, a tick and a RENDER can do, said once: which registers they may write (R67, R71, R294), and that each stage of a tick is the
meaning of the operation its selector names.
-/

namespace Sys2Proof.Machine

/-- The instruction of a wave type. -/
def Wave.instr : Wave → Instr
  | .sine => .wSine
  | .square => .wSquare
  | .saw => .wSaw
  | .triangle => .wTriangle
  | .pulse25 => .wPulse25
  | .pulse75 => .wPulse75
  | .white => .wWhite
  | .pink => .wPink
  | .supersaw => .wSupersaw
  | .fm => .wFm
  | .sub => .wSub
  | .crackle => .wCrackle

/-- The instruction of an effect type. -/
def Effect.instr : Effect → Instr
  | .wobbler => .eWobbler
  | .glitcher => .eGlitcher
  | .harmonizer => .eHarmonizer
  | .reverser => .eReverser
  | .bitcrusher => .eBitcrusher
  | .ringmod => .eRingmod
  | .granular => .eGranular
  | .filtersweep => .eFiltersweep

/-- The instruction of a filter type. -/
def Filter.instr : Filter → Instr
  | .ladderLp => .fLadderLp
  | .ladderHp => .fLadderHp
  | .ladderBp => .fLadderBp
  | .notch => .fNotch
  | .comb => .fComb
  | .vowelA => .fVowelA
  | .vowelE => .fVowelE
  | .vowelI => .fVowelI
  | .vowelO => .fVowelO
  | .vowelU => .fVowelU
  | .phaser => .fPhaser
  | .ringmod => .fRingmod

/-- A wave writes the noise registers and hands `x0` on (R180). -/
theorem waveStage_frame (P : Params) (w : Wave) (s : State) :
    ∃ prng pink crackleT x0, waveStage P w s = { s with
      voice := { s.voice with prng := prng, pink := pink, crackleT := crackleT }
      wires := { s.wires with x0 := x0 } } := by
  cases w
  case crackle =>
    simp only [waveStage, waveCrackle]
    split <;> exact ⟨_, _, _, _, rfl⟩
  all_goals exact ⟨_, _, _, _, rfl⟩

/-- An effect writes the effect registers, hands `x1` on and decides `GRAIN_RESET` (R220). -/
theorem effectStage_frame (P : Params) (e : Effect) (s : State) :
    ∃ wobPh glitchCnt harmPh ringPh grainPh sweepLp x1 grainReset, effectStage P e s = { s with
      voice := { s.voice with
        wobPh := wobPh, glitchCnt := glitchCnt, harmPh := harmPh, ringPh := ringPh, grainPh := grainPh, sweepLp := sweepLp }
      wires := { s.wires with x1 := x1, grainReset := grainReset } } := by
  cases e
  case glitcher =>
    simp only [effectStage, effectGlitcher]
    split <;> exact ⟨_, _, _, _, _, _, _, _, rfl⟩
  case granular =>
    simp only [effectStage, effectGranular]
    split <;> exact ⟨_, _, _, _, _, _, _, _, rfl⟩
  all_goals exact ⟨_, _, _, _, _, _, _, _, rfl⟩

/-- A filter writes the filter registers and hands `x2` on (R250). -/
theorem filterStage_frame (P : Params) (t : Filter) (s : State) :
    ∃ lad phs flfoPh fmt rmfPh rmfLp dlW dl x2, filterStage P t s = { s with
      voice := { s.voice with
        lad := lad, phs := phs, flfoPh := flfoPh, fmt := fmt, rmfPh := rmfPh, rmfLp := rmfLp, dlW := dlW, dl := dl }
      wires := { s.wires with x2 := x2 } } := by
  cases t <;> exact ⟨_, _, _, _, _, _, _, _, _, rfl⟩

/-- The three banks in a row: the note's own registers, the envelope and the ten phases stay (R180, R220, R250). -/
theorem bankStages_frame (P : Params) (s : State) :
    ∃ v w, bankStages P s = { s with voice := v, wires := w } ∧
      v.vstate = s.voice.vstate ∧ v.active = s.voice.active ∧ v.vel = s.voice.vel ∧ v.freq = s.voice.freq ∧
      v.env = s.voice.env ∧ v.ph = s.voice.ph ∧ v.phSub = s.voice.phSub ∧ v.phFm = s.voice.phFm ∧ v.phSs = s.voice.phSs := by
  unfold bankStages
  dsimp only
  obtain ⟨_, _, _, _, h1⟩ := waveStage_frame P (s.profile P).wave s
  obtain ⟨_, _, _, _, _, _, _, _, h2⟩ := effectStage_frame P (s.profile P).effect (waveStage P (s.profile P).wave s)
  obtain ⟨_, _, _, _, _, _, _, _, _, h3⟩ :=
    filterStage_frame P (s.profile P).filter (effectStage P (s.profile P).effect (waveStage P (s.profile P).wave s))
  rw [h3, h2, h1]
  exact ⟨_, _, rfl, rfl, rfl, rfl, rfl, rfl, rfl, rfl, rfl, rfl⟩

/-- The envelope step writes `ENV`, `VSTATE` and `ACTIVE` alone, and ends a note only where a release reaches 0 (R291). -/
theorem envelopeStep_frame (P : Params) (fs : NUM) (v : Voice) :
    ∃ env vstate active, envelopeStep P fs v = { v with env := env, vstate := vstate, active := active } ∧
      ((vstate = v.vstate ∧ active = v.active) ∨ (v.vstate = .releasing ∧ vstate = .silent ∧ active = none)) := by
  unfold envelopeStep
  cases h : v.vstate <;> dsimp only
  · exact ⟨_, _, _, rfl, .inl ⟨rfl, rfl⟩⟩
  · exact ⟨_, _, _, rfl, .inl ⟨rfl, rfl⟩⟩
  · split
    · exact ⟨_, _, _, rfl, .inr ⟨rfl, rfl, rfl⟩⟩
    · exact ⟨_, _, _, rfl, .inl ⟨rfl, rfl⟩⟩

/-- A tick writes the voice, the wires, one word of `OUT` and the count of draws (R290). -/
theorem tick_frame (P : Params) (s : State) :
    ∃ v w word draws, tick P s = { s with voice := v, wires := w, out := s.out.push word, draws := draws } ∧
      v.vel = s.voice.vel ∧ v.freq = s.voice.freq ∧ v.env = (envelopeStep P s.fs s.voice).env ∧
      v.vstate = (envelopeStep P s.fs s.voice).vstate ∧ v.active = (envelopeStep P s.fs s.voice).active := by
  obtain ⟨_, _, _, he, -⟩ := envelopeStep_frame P s.fs s.voice
  have hvel : (envelopeStep P s.fs s.voice).vel = s.voice.vel := by rw [he]
  have hfreq : (envelopeStep P s.fs s.voice).freq = s.voice.freq := by rw [he]
  have hsound : ∀ u : State, u.voice.vel = s.voice.vel → u.voice.freq = s.voice.freq →
      ∃ v w word draws, soundTick P u = { u with voice := v, wires := w, out := u.out.push word, draws := draws } ∧
        v.vel = s.voice.vel ∧ v.freq = s.voice.freq ∧ v.env = u.voice.env ∧ v.vstate = u.voice.vstate ∧
        v.active = u.voice.active := by
    intro u h1 h2
    obtain ⟨v, w, hb, hv⟩ := bankStages_frame P u
    unfold soundTick
    rw [hb]
    unfold State.emitSample
    dsimp only
    split <;>
      exact ⟨_, _, _, _, rfl, hv.2.2.1.trans h1, hv.2.2.2.1.trans h2, hv.2.2.2.2.1, hv.1, hv.2.1⟩
  unfold tick
  dsimp only
  split
  · exact ⟨_, _, _, _, rfl, hvel, hfreq, rfl, rfl, rfl⟩
  · exact hsound _ hvel hfreq
  · exact hsound _ hvel hfreq

/-- What holds before a RENDER's ticks, is kept by each tick and does not speak of the ticks still owed, holds after them. -/
theorem renderTicks_induction (P : Params) (I : State → Prop) (htick : ∀ s, I s → I (tick P s))
    (hleft : ∀ s k, I s → I { s with renderLeft := k }) (m : Nat) (s : State) (h : I s) : I (renderTicks P m s) := by
  induction m generalizing s with
  | zero => exact hleft s 0 h
  | succ m ih =>
    simp only [renderTicks]
    split
    · exact hleft s _ h
    · exact ih _ (htick s h)

/-- The ticks of a RENDER write the voice, the wires, `OUT`, the count of draws and the ticks still owed. -/
theorem renderTicks_frame (P : Params) (m : Nat) (s : State) :
    ∃ v w words draws left, renderTicks P m s = { s with
        voice := v, wires := w, out := { s.out with words := s.out.words ++ words }, draws := draws, renderLeft := left } ∧
      words.length + left = m ∧ v.vel = s.voice.vel ∧ v.freq = s.voice.freq := by
  induction m generalizing s with
  | zero => exact ⟨s.voice, s.wires, [], s.draws, 0, by simp [renderTicks], rfl, rfl, rfl⟩
  | succ m ih =>
    simp only [renderTicks]
    split
    · exact ⟨s.voice, s.wires, [], s.draws, m + 1, by simp, by simp, rfl, rfl⟩
    · obtain ⟨v, w, word, draws, ht, hvel, hfreq, -⟩ := tick_frame P s
      obtain ⟨v', w', words, draws', left, hr, hl, hvel', hfreq'⟩ := ih (tick P s)
      rw [hr, ht]
      refine ⟨v', w', word :: words, draws', left, ?_, by simp; omega, ?_, ?_⟩
      · simp [Stream.push]
      · rw [hvel', ht]; exact hvel
      · rw [hfreq', ht]; exact hfreq

/-- What `k` ticks in a row append: one word each. -/
theorem tick_iterate_out (P : Params) (k : Nat) (s : State) :
    ∃ ws : List Word, ws.length = k ∧ ((tick P)^[k] s).out = { s.out with words := s.out.words ++ ws } := by
  induction k generalizing s with
  | zero => exact ⟨[], rfl, by simp⟩
  | succ k ih =>
    obtain ⟨ws, hl, ho⟩ := ih (tick P s)
    obtain ⟨v, w, word, draws, ht, -⟩ := tick_frame P s
    exact ⟨word :: ws, by simp [hl], by rw [Function.iterate_succ_apply, ho, ht]; simp [Stream.push]⟩

/-- The loop of a RENDER on an `OUT` of depth `d`: the ticks there is room for, the rest owed. -/
theorem renderTicks_bounded (P : Params) (m d : Nat) (s : State) (hd : s.out.depth = some d) :
    renderTicks P m s =
      { (tick P)^[min m (d - s.out.words.length)] s with renderLeft := m - min m (d - s.out.words.length) } := by
  induction m generalizing s with
  | zero => simp [renderTicks]
  | succ m ih =>
    obtain ⟨v, w, word, draws, ht, -⟩ := tick_frame P s
    simp only [renderTicks, Stream.full, hd, decide_eq_true_eq]
    split
    · rename_i h
      simp [Nat.sub_eq_zero_of_le h]
    · rename_i h
      have hlen : (tick P s).out.words.length = s.out.words.length + 1 := by rw [ht]; simp [Stream.push]
      have hk : min (m + 1) (d - s.out.words.length) = min m (d - (s.out.words.length + 1)) + 1 := by omega
      rw [ih (tick P s) (by rw [ht]; exact hd), hlen, hk, Function.iterate_succ_apply, Nat.add_sub_add_right]

end Sys2Proof.Machine
end

