-- ==== Sys2Proof/Laws/Runs.lean ====
section
/-!
SUPPORT. When the draw of the turn is fair, a run that latches again and again is eventually visible (R96): the fairness assumption of `Machine/Runs.lean` follows
from the fairness of the draw.
-/

namespace Sys2Proof.Machine

/-! ### What an event does to the control port -/

/-- What the runs look at is the same in both states: the words waiting on the ports, the handed selector, the count of turns, the depth of `CRSP`. -/
def SamePorts (s t : State) : Prop :=
  t.cmd = s.cmd ∧ t.ctl = s.ctl ∧ t.handed = s.handed ∧ t.turns = s.turns ∧ t.crsp.depth = s.crsp.depth

/-- The ticks of a RENDER leave them. -/
theorem renderTicks_ports (P : Params) (m : Nat) (s : State) : SamePorts s (renderTicks P m s) := by
  obtain ⟨v, w, ws, draws, left, h, -⟩ := renderTicks_frame P m s
  rw [h]
  exact ⟨rfl, rfl, rfl, rfl, rfl⟩

/-- No instruction touches them. -/
theorem execWith_ports {P : Params} {i : Instr} {s t : State} (h : execWith P i s = .next t) : SamePorts s t := by
  cases i <;> simp only [execWith, Host.Outcome.next.injEq] at h <;> subst h
  case render m =>
    unfold render
    split
    · exact renderTicks_ports P m { s with knobSnap := s.knob }
    · simp [SamePorts]
  case noteOn n d =>
    unfold noteOn
    dsimp only
    split <;> simp [SamePorts]
  case noteOff n =>
    unfold noteOff
    split
    · simp [SamePorts]
    · split <;> simp [SamePorts]
  case setRate d =>
    unfold setRate
    dsimp only
    split <;> simp [SamePorts]
  case wCrackle =>
    unfold waveCrackle
    split <;> simp [SamePorts]
  case eGlitcher =>
    unfold effectGlitcher
    dsimp only
    split <;> simp [SamePorts]
  case eGranular =>
    unfold effectGranular
    dsimp only
    split <;> simp [SamePorts]
  case getKnob =>
    unfold State.respondCtl
    split <;> simp [SamePorts]
  all_goals first | exact ⟨rfl, rfl, rfl, rfl, rfl⟩ | simp [SamePorts]

/-- The words behind a command do not change how it decodes. -/
theorem decode_ctl_append {ws x : List Word} :
    (∀ {i rest}, decode (.port .ctl) ws = .ok i rest → decode (.port .ctl) (ws ++ x) = .ok i (rest ++ x)) ∧
      (∀ {rest}, decode (.port .ctl) ws = .illegal rest → decode (.port .ctl) (ws ++ x) = .illegal (rest ++ x)) := by
  cases ws with
  | nil => simp [decode, decodeCtl]
  | cons w ws =>
    simp only [decode, decodeCtl, List.cons_append]
    split
    · cases ws with
      | nil => simp [formatD]
      | cons d ws =>
        simp only [formatD, List.cons_append]
        split <;> simp_all
    · simp only [formatZ]
      split <;> simp_all
    · simp_all

/-- A whole command stands at the front of `CTL`, and `rest` behind it. -/
def CtlFront (ws rest : List Word) : Prop :=
  (∃ i, decode (.port .ctl) ws = .ok i rest) ∨ decode (.port .ctl) ws = .illegal rest

theorem CtlFront.append {ws rest : List Word} (h : CtlFront ws rest) (x : List Word) : CtlFront (ws ++ x) (rest ++ x) := by
  rcases h with ⟨i, h⟩ | h
  · exact .inl ⟨i, decode_ctl_append.1 h⟩
  · exact .inr (decode_ctl_append.2 h)

/-- With `CRSP` unbounded a whole command is ready. -/
theorem CtlFront.ready {s : State} {rest : List Word} (h : CtlFront s.ctl rest) (hd : s.crsp.depth = none) : ctlReady s = true := by
  have hfull : s.crsp.full = false := by simp [Stream.full, hd]
  rcases h with ⟨i, h⟩ | h
  · have hi : holds i s = false := by
      have := h
      revert h
      cases s.ctl with
      | nil => simp [decode, decodeCtl]
      | cons w ws =>
        simp only [decode, decodeCtl]
        split
        · cases ws with
          | nil => simp [formatD]
          | cons d ws =>
            simp only [formatD]
            split <;> simp
            rintro rfl rfl
            rfl
        · simp only [formatZ]
          split <;> simp
          rintro rfl rfl
          exact hfull
        · simp
    simp [ctlReady, h, performable, hi]
  · simp [ctlReady, h, performable]

/-- What a step does to the control port: on `CTL`'s turn it consumes the command at the front; on any other it leaves the words, and when `CTL` was
ready it has counted the turn. -/
theorem stepWith_ctl {P : Params} {s t : State} (h : stepWith P s = .next t) :
    t.handed = none ∧ t.crsp.depth = s.crsp.depth ∧
      ((s.handed = none ∧ turn P s = some .ctl ∧ CtlFront s.ctl t.ctl) ∨
        (t.ctl = s.ctl ∧ (s.handed = none → turn P s ≠ some .ctl ∧ (ctlReady s = true → P.ctlTurn s.turns = false ∧ t.turns = s.turns + 1)))) := by
  unfold stepWith stepOf at h
  split at h
  · rename_i sel hsel
    unfold stepSelector at h
    split at h
    · obtain ⟨-, h2, h3, -, h5⟩ := execWith_ports h
      exact ⟨h3, h5, .inr ⟨h2, fun hn => by rw [hn] at hsel; cases hsel⟩⟩
    · cases h
  · rename_i hnone
    have hport : ∀ p, stepPort (execWith P) p (afterTurn s) = .next t →
        t.handed = none ∧ t.crsp.depth = s.crsp.depth ∧ t.turns = (afterTurn s).turns ∧
          (p = .cmd → t.ctl = s.ctl) ∧ (p = .ctl → decode (.port .ctl) s.ctl ≠ .hold → CtlFront s.ctl t.ctl) := by
      intro p hp
      unfold stepPort at hp
      split at hp
      · rename_i hd
        cases hp
        refine ⟨by simp [hnone], by simp, rfl, fun _ => by simp, fun hc hn => ?_⟩
        subst hc
        simp [State.waiting] at hd
        exact absurd hd hn
      · rename_i rest hd
        cases hp
        cases p
        · exact ⟨by simp [illegalCommand, hnone], by simp [illegalCommand], by simp [illegalCommand], fun _ => by simp [illegalCommand],
            by simp⟩
        · refine ⟨by simp [illegalCommand, hnone], by simp [illegalCommand], by simp [illegalCommand], by simp, fun _ _ => .inr ?_⟩
          simpa [State.waiting, illegalCommand] using hd
      · rename_i i rest hd
        obtain ⟨-, h2, h3, h4, h5⟩ := execWith_ports hp
        cases p
        · exact ⟨by simp [h3, hnone], by simp [h5], by simp [h4], fun _ => by simp [h2], by simp⟩
        · refine ⟨by simp [h3, hnone], by simp [h5], by simp [h4], by simp, fun _ _ => .inl ⟨i, ?_⟩⟩
          simpa [State.waiting, h2] using hd
    have hctl : ctlReady s = true → decode (.port .ctl) s.ctl ≠ .hold := by
      intro hr hh
      simp [ctlReady, hh, performable] at hr
    split at h
    · rename_i hturn
      cases h
      refine ⟨hnone, rfl, .inr ⟨rfl, fun _ => ⟨by simp [hturn], fun hr => ?_⟩⟩⟩
      revert hturn
      unfold turn
      split <;> simp_all
    · rename_i hturn
      obtain ⟨h1, h2, -, -, h5⟩ := hport .ctl h
      refine ⟨h1, h2, .inl ⟨hnone, hturn, h5 rfl (hctl ?_)⟩⟩
      revert hturn
      unfold turn
      split <;> simp_all
    · rename_i hturn
      have hdraw : ctlReady s = true → P.ctlTurn s.turns = false ∧ (afterTurn s).turns = s.turns + 1 := by
        intro hr
        unfold turn at hturn
        unfold afterTurn
        cases hc : cmdReady s <;> simp_all
      split at h
      · obtain ⟨h1, h2, h3, h4, -⟩ := hport .cmd h
        exact ⟨h1, h2, .inr ⟨h4 rfl, fun _ => ⟨by simp [hturn], fun hr => ⟨(hdraw hr).1, h3.trans (hdraw hr).2⟩⟩⟩⟩
      · cases h
        obtain ⟨-, h2, h3, h4, h5⟩ := renderTicks_ports P (afterTurn s).renderLeft (afterTurn s)
        refine ⟨by rw [resumeRender, h3]; simp [hnone], by rw [resumeRender, h5]; simp, .inr ⟨by rw [resumeRender, h2]; simp, fun _ =>
          ⟨by simp [hturn], fun hr => ⟨(hdraw hr).1, ?_⟩⟩⟩⟩
        rw [resumeRender, h4]
        exact (hdraw hr).2

/-! ### Fair runs -/

namespace Run

variable {P : Params} (r : Run P)

/-- An event that is no step only appends to `CTL`, and leaves what else the runs look at. -/
theorem host_event {n : Nat} (h : r.event n ≠ .step) :
    (∃ x, (r.state (n + 1)).ctl = (r.state n).ctl ++ x) ∧ (r.state (n + 1)).handed = (r.state n).handed ∧
      (r.state (n + 1)).turns = (r.state n).turns ∧ (r.state (n + 1)).crsp.depth = (r.state n).crsp.depth ∧ r.taken (n + 1) = r.taken n := by
  have hf := r.follows n
  cases he : r.event n with
  | step => exact absurd he h
  | write p w =>
    rw [he] at hf
    simp only [Event.Leads] at hf
    rw [hf]
    refine ⟨?_, ?_⟩
    · cases p
      · exact ⟨[], by simp [State.hostWrite]⟩
      · exact ⟨[w], by simp [State.hostWrite, State.waiting, State.setWaiting]⟩
    · cases p <;> simp [State.hostWrite, taken, he]
  | take q =>
    rw [he] at hf
    obtain ⟨w, hq⟩ := hf
    have : (r.state (n + 1)).ctl = (r.state n).ctl ∧ (r.state (n + 1)).handed = (r.state n).handed ∧
        (r.state (n + 1)).turns = (r.state n).turns ∧ (r.state (n + 1)).crsp.depth = (r.state n).crsp.depth := by
      cases q <;> simp only [State.hostTake, Option.map_eq_some_iff] at hq <;> obtain ⟨⟨w', q'⟩, hw, hq⟩ := hq <;>
        simp only [Prod.mk.injEq] at hq <;> rw [← hq.2]
      · exact ⟨rfl, rfl, rfl, rfl⟩
      · exact ⟨rfl, rfl, rfl, rfl⟩
      · refine ⟨rfl, rfl, rfl, ?_⟩
        unfold Stream.take at hw
        split at hw
        · cases hw
        · cases hw
          rfl
    exact ⟨⟨[], by simp [this.1]⟩, this.2.1, this.2.2.1, this.2.2.2, by simp [taken, he]⟩

/-- The depth of `CRSP` never changes. -/
theorem depth_eq (hd : (r.state 0).crsp.depth = none) (n : Nat) : (r.state n).crsp.depth = none := by
  induction n with
  | zero => exact hd
  | succ n ih =>
    by_cases he : r.event n = .step
    · have hf := r.follows n
      rw [he] at hf
      rw [(stepWith_ctl hf).2.1, ih]
    · rw [(r.host_event he).2.2.2.1, ih]

/-- The words consumed never become fewer. -/
theorem taken_mono {m n : Nat} (h : m ≤ n) : r.taken m ≤ r.taken n := by
  induction h with
  | refl => exact le_rfl
  | step _ ih =>
    refine ih.trans ?_
    simp only [taken]
    split <;> omega

/-- The next step, with only host events before it. -/
theorem next_step (hs : r.KeepsStepping) (n : Nat) :
    ∃ m, n ≤ m ∧ r.event m = .step ∧ ∀ k, n ≤ k → k < m → r.event k ≠ .step := by
  classical
  have hex : ∃ k, r.event (n + k) = .step := by
    obtain ⟨m, hm, he⟩ := hs n
    exact ⟨m - n, by rwa [Nat.add_sub_cancel' hm]⟩
  refine ⟨n + Nat.find hex, by omega, Nat.find_spec hex, fun k h1 h2 he => ?_⟩
  refine Nat.find_min hex (m := k - n) (by omega) ?_
  rwa [Nat.add_sub_cancel' h1]

/-- Host events in a row keep a command at the front of `CTL`, the handed selector and the count of turns. -/
theorem host_events {n m : Nat} (hnm : n ≤ m) (h : ∀ k, n ≤ k → k < m → r.event k ≠ .step) :
    (∃ x, (r.state m).ctl = (r.state n).ctl ++ x) ∧ (r.state m).handed = (r.state n).handed ∧ (r.state m).turns = (r.state n).turns ∧
      r.taken m = r.taken n := by
  induction m, hnm using Nat.le_induction with
  | base => exact ⟨⟨[], by simp⟩, rfl, rfl, rfl⟩
  | succ m hnm ih =>
    obtain ⟨⟨x, h1⟩, h2, h3, h4⟩ := ih fun k hk hk' => h k hk (by omega)
    obtain ⟨⟨y, g1⟩, g2, g3, -, g4⟩ := r.host_event (h m hnm (by omega))
    exact ⟨⟨x ++ y, by rw [g1, h1, List.append_assoc]⟩, g2.trans h2, g3.trans h3, g4.trans h4⟩

/-- After the next step either `CTL` has had its turn, with nothing consumed before, or the front still stands, no selector is handed, and, if none
was before, a draw has gone against `CTL`. -/
theorem front_or_turn (hs : r.KeepsStepping) (hd : (r.state 0).crsp.depth = none) {n : Nat} {ws rest x : List Word} (hw : CtlFront ws rest)
    (hn : (r.state n).ctl = ws ++ x) :
    ∃ m, n ≤ m ∧ ((∃ y, (r.state (m + 1)).ctl = rest ++ y ∧ x <+: y ∧ r.taken n + (ws.length - rest.length) ≤ r.taken (m + 1)) ∨
      (∃ y, (r.state (m + 1)).ctl = ws ++ y ∧ x <+: y ∧ r.taken n ≤ r.taken (m + 1) ∧ (r.state (m + 1)).handed = none ∧
        ((r.state n).handed = none → P.ctlTurn (r.state n).turns = false ∧ (r.state (m + 1)).turns = (r.state n).turns + 1))) := by
  obtain ⟨m, hnm, he, hb⟩ := r.next_step hs n
  obtain ⟨⟨y, h1⟩, h2, h3, h4⟩ := r.host_events hnm hb
  have hf := r.follows m
  rw [he] at hf
  obtain ⟨g1, -, g⟩ := stepWith_ctl hf
  have hm : (r.state m).ctl = ws ++ (x ++ y) := by rw [h1, hn, List.append_assoc]
  have hfront : CtlFront (r.state m).ctl (rest ++ (x ++ y)) := hm ▸ hw.append _
  refine ⟨m, hnm, ?_⟩
  rcases g with ⟨-, -, hc⟩ | ⟨hc, hr⟩
  · left
    have hrest : (r.state (m + 1)).ctl = rest ++ (x ++ y) := by
      rcases hc with ⟨i, hc⟩ | hc <;> rcases hfront with ⟨j, hj⟩ | hj <;> rw [hc] at hj <;> simp_all
    refine ⟨x ++ y, hrest, List.prefix_append _ _, ?_⟩
    simp only [taken, he]
    rw [h4, hm, hrest]
    simp only [List.length_append]
    omega
  · right
    refine ⟨x ++ y, by rw [hc, hm], List.prefix_append _ _, ?_, g1, fun hh => ?_⟩
    · rw [← h4]
      exact r.taken_mono (Nat.le_succ m)
    · obtain ⟨-, h⟩ := hr (h2.trans hh)
      have := h (hfront.ready (r.depth_eq hd m))
      rwa [h3] at this

/-- Under a fair draw a command at the front of `CTL` is performed. -/
theorem turn_comes (hfair : FairTurns P.ctlTurn) (hs : r.KeepsStepping) (hd : (r.state 0).crsp.depth = none) {n : Nat} {ws rest x : List Word}
    (hw : CtlFront ws rest) (hn : (r.state n).ctl = ws ++ x) :
    ∃ m y, n ≤ m ∧ (r.state m).ctl = rest ++ y ∧ x <+: y ∧ r.taken n + (ws.length - rest.length) ≤ r.taken m := by
  by_contra hno
  -- while `CTL` has had no turn, the front stands and the draws go on against it
  have hstay : ∀ {k y}, n ≤ k → (r.state k).ctl = ws ++ y → x <+: y → r.taken n ≤ r.taken k → ∃ m y', n ≤ m ∧ (r.state m).ctl = ws ++ y' ∧ x <+: y' ∧
      r.taken n ≤ r.taken m ∧ (r.state m).handed = none ∧
      ((r.state k).handed = none → P.ctlTurn (r.state k).turns = false ∧ (r.state m).turns = (r.state k).turns + 1) := by
    intro k y hk hy hxy ht
    obtain ⟨m, hm, ⟨z, h1, h2, h3⟩ | ⟨z, h1, h2, h3, h4, h5⟩⟩ := r.front_or_turn hs hd hw hy
    · exact absurd ⟨m + 1, z, by omega, h1, hxy.trans h2, by omega⟩ hno
    · exact ⟨m + 1, z, by omega, h1, hxy.trans h2, ht.trans h3, h4, h5⟩
  obtain ⟨m0, y0, hm0, hy0, hx0, ht0, hh0, -⟩ := hstay le_rfl hn (List.prefix_refl _) le_rfl
  have hall : ∀ k, ∃ m y, n ≤ m ∧ (r.state m).ctl = ws ++ y ∧ x <+: y ∧ r.taken n ≤ r.taken m ∧ (r.state m).handed = none ∧
      (r.state m).turns = (r.state m0).turns + k := by
    intro k
    induction k with
    | zero => exact ⟨m0, y0, hm0, hy0, hx0, ht0, hh0, rfl⟩
    | succ k ih =>
      obtain ⟨m, y, h1, h2, h3, h4, h5, h6⟩ := ih
      obtain ⟨m', y', g1, g2, g3, g4, g5, g6⟩ := hstay h1 h2 h3 h4
      exact ⟨m', y', g1, g2, g3, g4, g5, by rw [(g6 h5).2, h6, Nat.add_assoc]⟩
  obtain ⟨k, hk, htrue⟩ := hfair (r.state m0).turns
  obtain ⟨m, y, h1, h2, h3, h4, h5, h6⟩ := hall (k - (r.state m0).turns)
  obtain ⟨_, _, _, _, _, _, _, h⟩ := hstay h1 h2 h3 h4
  have := (h h5).1
  rw [h6, Nat.add_sub_cancel' hk, htrue] at this
  cases this

/-- Under a fair draw every issued SET_KNOB is performed: the words up to its end are consumed. -/
theorem issued_taken (hfair : FairTurns P.ctlTurn) (hs : r.KeepsStepping) (hd : (r.state 0).crsp.depth = none) {before : List Word}
    (hb : WholeCommands before) (data : Word) : ∀ {n : Nat} {after : List Word},
      (r.state n).ctl = before ++ (encode (.setKnob data) ++ after) → ∃ m, n ≤ m ∧ r.taken n + (before.length + 2) ≤ r.taken m := by
  have hcons : ∀ {ws rest : List Word}, CtlFront (ws ++ rest) rest →
      (∀ {n : Nat} {after : List Word}, (r.state n).ctl = rest ++ (encode (.setKnob data) ++ after) →
        ∃ m, n ≤ m ∧ r.taken n + (rest.length + 2) ≤ r.taken m) →
      ∀ {n : Nat} {after : List Word}, (r.state n).ctl = ws ++ rest ++ (encode (.setKnob data) ++ after) →
        ∃ m, n ≤ m ∧ r.taken n + ((ws ++ rest).length + 2) ≤ r.taken m := by
    intro ws rest hw ih n after hn
    obtain ⟨m, y, h1, h2, ⟨z, rfl⟩, h4⟩ := r.turn_comes hfair hs hd hw hn
    obtain ⟨m', g1, g2⟩ := ih (after := after ++ z) (by rw [h2, List.append_assoc])
    refine ⟨m', by omega, ?_⟩
    simp only [List.length_append] at h4 ⊢
    omega
  induction hb with
  | nil =>
    intro n after hn
    have hfront : CtlFront (encode (.setKnob data)) [] := .inl ⟨.setKnob data, by simp [encode, decode, decodeCtl, commandWord, opcode, operand, formatD]⟩
    obtain ⟨m, y, h1, -, -, h4⟩ := r.turn_comes hfair hs hd hfront hn
    exact ⟨m, h1, by simpa [encode] using h4⟩
  | legal h _ ih => exact hcons (.inl ⟨_, h⟩) ih
  | illegal h _ ih => exact hcons (.inr h) ih

/-- R96 under a fair draw: with `CRSP` unbounded, a run that latches the knob again and again makes every issued SET_KNOB visible. -/
theorem eventuallyVisible_of_fair (hfair : FairTurns P.ctlTurn) (hl : r.KeepsLatching) (hd : (r.state 0).crsp.depth = none) :
    r.EventuallyVisible := by
  rintro n k ⟨before, after, data, hb, hctl, rfl⟩
  have hs : r.KeepsStepping := fun i => (hl i).imp fun m h => ⟨h.1, h.2.1⟩
  obtain ⟨m, h1, h2⟩ := r.issued_taken hfair hs hd hb data hctl
  obtain ⟨m', h3, h4⟩ := hl m
  exact ⟨m', by omega, h4, h2.trans (r.taken_mono h3)⟩

end Run

end Sys2Proof.Machine
end

