-- ==== Sys2Proof/Tests/Slice0.lean ====
section
/-!
SUPPORT. Tests of one step or one operation each, with the expected values from spec/95_test_vectors.md and the examples of the rules, and the
witnesses: for each statement with hypotheses, a state and operands that meet them.
Every expected value is the spec's own, or is worked out by hand from the rule named.
-/

namespace Sys2Proof.Tests

section

-- one theorem at a time: every one of them is evaluated by the kernel, and together they would hold a thread each
set_option Elab.async false

open Sys2Proof.Machine

/-! ### Helpers -/

/-- Does the outcome answer a next state of which `f` holds? -/
def onNext (o : Host.Outcome State Fault Refusal) (f : State → Bool) : Bool :=
  match o with
  | .next t => f t
  | _ => false

theorem next_of_onNext {o : Host.Outcome State Fault Refusal} {f : State → Bool} (h : onNext o f = true) :
    ∃ t, o = .next t ∧ f t = true := by
  cases o with
  | next t => exact ⟨t, rfl, h⟩
  | fault _ => simp [onNext] at h
  | refused _ => simp [onNext] at h

/-- The NUM value nearest to the decimal `p × 10^−k`. -/
def num (p k : Nat) : NUM := dec p (10 ^ k)

/-- The continuous fields of note 60 (V-NP-1). -/
def note60 : Continuous where
  wobbleRate := num 9601815778192304 15
  glitchChance := num 4409615125180153 16
  harmonicMix := num 3088535611421662 15
  ringModFreq := num 111079762040903 11
  filterFreq := num 21661526008625515 13
  bitDepth := num 7541424456860113 15
  grainSize := num 5581710018625017 17

/-- Parameters with the TRIG functions given by the test, note 60's fields, and the knob variant `a`, `c`, `r`. -/
def testParams (sin tan pow2 : NUM → NUM) (a c r : NUM) : Params :=
  { defaults binary64 ⟨sin, sin, tan, pow2⟩ (fun _ => 0) (fun _ => 0) (fun _ => false) with
    profileMap := fun _ _ _ => note60
    kvMap := fun _ _ => ⟨a, c, r⟩ }

/-- Parameters whose sine is one value everywhere. -/
def sinParams (sin a : NUM) : Params := testParams (fun _ => sin) (fun _ => .zero) (fun _ => .zero) a .zero .zero

/-- The common values of the filter examples: note 60's knob variant at position 64 (R251), `sin(0) = 0`, and `tan` at the phaser's first argument. -/
def filterParams : Params :=
  testParams (fun _ => .zero) (fun _ => num 5544904508585423 16) (fun _ => .zero) .zero (num 7106947734190362 12)
    (num 9482074479652738 16)

/-- The voice right after `NOTE_ON 60, 1.0` (R321). -/
def voice60 : Voice :=
  { Voice.silentWith [] with
    vstate := .sounding
    active := some 60
    vel := .one
    freq := num 2616255653005986 13
    prng := 0x9E377985 }

/-- A machine at 44100 Hz (V-CMD-3) with the voice and the wires `x0` and `x1` given. -/
def at441 (v : Voice) (x0 x1 : NUM) : State :=
  { State.reset with
    voice := v
    fs := lit 44100
    rateValid := true
    dlLen := 44100
    gp := 441
    wires := ⟨x0, x1, .zero, false⟩ }

/-- The machine at 44100 Hz with note 60 on. -/
def on60 : State := at441 voice60 .zero .zero

/-! ### Well-formedness: an ill-formed term for each check, and the boundary beside it -/

theorem test_wf_refuses_noteOn_256 : (Instr.noteOn 256 0).wf = false ∧ (Instr.noteOn 255 0).wf = true := by decide

theorem test_wf_refuses_noteOff_256 : (Instr.noteOff 256).wf = false ∧ (Instr.noteOff 255).wf = true := by decide

theorem test_wf_refuses_render_2_24 : (Instr.render 16777216).wf = false ∧ (Instr.render 16777215).wf = true := by decide

/-! ### Decoding: the words from the encodings of R111 to R123, bit by bit -/

theorem test_decode_noteOn :
    decode (.port .cmd) [0b00000001000000000000000000111100, 0b00111111100000000000000000000000] =
      .ok (.noteOn 60 0x3F800000) [] := by decide

theorem test_decode_noteOff : decode (.port .cmd) [0b00000010000000000000000000111100] = .ok (.noteOff 60) [] := by decide

theorem test_decode_setRate :
    decode (.port .cmd) [0b00000011000000000000000000000000, 0b01000111001011000100010000000000] =
      .ok (.setRate 0x472C4400) [] := by decide

theorem test_decode_render :
    decode (.port .cmd) [0b00000100000000000000000001100100] = .ok (.render 100) [] ∧
    decode (.port .cmd) [0b00000100111111111111111111111111] = .ok (.render 16777215) [] := by decide

theorem test_decode_formatZ :
    decode (.port .cmd) [0b00000101000000000000000000000000] = .ok .getActiveNote [] ∧
    decode (.port .cmd) [0b00000110000000000000000000000000] = .ok .getWaveType [] ∧
    decode (.port .cmd) [0b00000111000000000000000000000000] = .ok .getWeirdType [] ∧
    decode (.port .cmd) [0b00001000000000000000000000000000] = .ok .getFilterType [] ∧
    decode (.port .cmd) [0b00001001000000000000000000000000] = .ok .getStatus [] ∧
    decode (.port .cmd) [0b00001010000000000000000000000000] = .ok .clearErr [] ∧
    decode (.port .cmd) [0b00001011000000000000000000000000] = .ok .reset [] := by decide

theorem test_decode_ctl :
    decode (.port .ctl) [0b00010000000000000000000000000000, 0b00111111000000000000000000000000] =
      .ok (.setKnob 0x3F000000) [] ∧
    decode (.port .ctl) [0b00010001000000000000000000000000] = .ok .getKnob [] := by decide

/-- The wave codes of R121, the 4-bit field of a profile. -/
theorem test_decode_waves :
    decode (.bank .wave) [0b0000] = .ok .wSine [] ∧ decode (.bank .wave) [0b0001] = .ok .wSquare [] ∧
    decode (.bank .wave) [0b0010] = .ok .wSaw [] ∧ decode (.bank .wave) [0b0011] = .ok .wTriangle [] ∧
    decode (.bank .wave) [0b0100] = .ok .wPulse25 [] ∧ decode (.bank .wave) [0b0101] = .ok .wPulse75 [] ∧
    decode (.bank .wave) [0b0110] = .ok .wWhite [] ∧ decode (.bank .wave) [0b0111] = .ok .wPink [] ∧
    decode (.bank .wave) [0b1000] = .ok .wSupersaw [] ∧ decode (.bank .wave) [0b1001] = .ok .wFm [] ∧
    decode (.bank .wave) [0b1010] = .ok .wSub [] ∧ decode (.bank .wave) [0b1011] = .ok .wCrackle [] ∧
    decode (.bank .wave) [0b1100] = .illegal [] ∧ decode (.bank .wave) [0b1111] = .illegal [] := by decide

/-- The effect codes of R122, a 3-bit field with every code defined. -/
theorem test_decode_effects :
    decode (.bank .effect) [0b000] = .ok .eWobbler [] ∧ decode (.bank .effect) [0b001] = .ok .eGlitcher [] ∧
    decode (.bank .effect) [0b010] = .ok .eHarmonizer [] ∧ decode (.bank .effect) [0b011] = .ok .eReverser [] ∧
    decode (.bank .effect) [0b100] = .ok .eBitcrusher [] ∧ decode (.bank .effect) [0b101] = .ok .eRingmod [] ∧
    decode (.bank .effect) [0b110] = .ok .eGranular [] ∧ decode (.bank .effect) [0b111] = .ok .eFiltersweep [] := by decide

/-- The filter codes of R123, the 4-bit field of a profile. -/
theorem test_decode_filters :
    decode (.bank .filter) [0b0000] = .ok .fLadderLp [] ∧ decode (.bank .filter) [0b0001] = .ok .fLadderHp [] ∧
    decode (.bank .filter) [0b0010] = .ok .fLadderBp [] ∧ decode (.bank .filter) [0b0011] = .ok .fNotch [] ∧
    decode (.bank .filter) [0b0100] = .ok .fComb [] ∧ decode (.bank .filter) [0b0101] = .ok .fVowelA [] ∧
    decode (.bank .filter) [0b0110] = .ok .fVowelE [] ∧ decode (.bank .filter) [0b0111] = .ok .fVowelI [] ∧
    decode (.bank .filter) [0b1000] = .ok .fVowelO [] ∧ decode (.bank .filter) [0b1001] = .ok .fVowelU [] ∧
    decode (.bank .filter) [0b1010] = .ok .fPhaser [] ∧ decode (.bank .filter) [0b1011] = .ok .fRingmod [] ∧
    decode (.bank .filter) [0b1100] = .illegal [] ∧ decode (.bank .filter) [0b1111] = .illegal [] := by decide

/-- V-CMD-11 to V-CMD-15, V-CMD-20: what is illegal, and how many words each illegal command takes. -/
theorem test_decode_illegal :
    decode (.port .cmd) [0x00000000, 7] = .illegal [7] ∧ decode (.port .cmd) [0x0C000000, 0xFF000000] = .illegal [0xFF000000] ∧
    decode (.port .cmd) [0x09000001] = .illegal [] ∧ decode (.port .cmd) [0x01000100, 0x3F800000, 7] = .illegal [7] ∧
    decode (.port .cmd) [0x020001C8] = .illegal [] ∧ decode (.port .ctl) [0x10000001, 0x3F000000, 7] = .illegal [7] ∧
    decode (.port .ctl) [0x11000005] = .illegal [] ∧ decode (.port .cmd) [0x10000000, 7] = .illegal [7] := by decide

/-- R120: half a two-word command holds. R81: bits [7:0] travel first. -/
theorem test_decode_holds_and_bytes :
    decode (.port .cmd) [0x0100003C] = .hold ∧ decode (.port .cmd) [] = .hold ∧
    decodeBytes (.port .cmd) [0x64, 0x00, 0x00, 0x04] = .ok (.render 100) [] ∧
    decodeBytes (.port .cmd) [0x64, 0x00, 0x00] = .hold := by decide

/-- A table row's word is decoded and run as the first instruction after reset. -/
theorem test_table_word :
    decodeTableWord 32 0x09000000 = some .getStatus ∧ decodeTableWord 64 0x3F8000000100003C = some (.noteOn 60 0x3F800000) ∧
    decodeTableWord 32 0x10000000 = some (.setKnob 0) ∧
    onNext (step (State.reset.withFetchWord 32 0x09000000)) (fun t => t.rsp.words == [0x0000FF00]) = true := by decide +kernel

/-! ### Arithmetic (R11 to R17) -/

/-- Rounding: 0.1 + 0.2 is not 0.3 in binary64; 2^53 + 1 goes to even; an overflow is an infinity; zero signs. -/
theorem test_rounding :
    (num 1 1).add (num 2 1) = num 30000000000000004 17 ∧ (num 1 1).add (num 2 1) ≠ num 3 1 ∧
    (lit (2 ^ 53)).add (lit 1) = lit (2 ^ 53) ∧ (lit (2 ^ 53 + 2)).add (lit 1) = lit (2 ^ 53 + 4) ∧
    (lit (2 ^ 1000)).mul (lit (2 ^ 24)) = .inf false ∧ (lit 0).neg.add (lit 0) = .zero ∧
    (lit 1).neg.div (lit 0) = .inf true ∧ (lit 0).div (lit 0) = .nan := by decide +kernel

/-- R15: halves away from zero. R12: `trunc` toward zero and `floor` down. -/
theorem test_integer_parts :
    (num 635 1).rhaInt? = some 64 ∧ (num 635 1).neg.rhaInt? = some (-64) ∧ (num 25 1).rha = lit 3 ∧
    (num 88255 2).neg.truncInt? = some (-882) ∧ (num 88255 2).neg.floorInt? = some (-883) ∧ NUM.nan.rha = .nan := by
  decide +kernel

/-- R13: `fr` of a tiny negative value is 0.0, because the subtraction rounds to 1.0; R16: a NaN clamps to the low end. -/
theorem test_fr_and_clamp :
    (num 1 30).neg.fr = .zero ∧ (num 125 2).neg.fr = num 75 2 ∧ NUM.nan.clamp .zero .one = .zero ∧
    NUM.nan.min (lit 2) = lit 2 := by decide +kernel

/-- R17: the words of V-EX-1, P5 and the corner cases of binary32. -/
theorem test_binary32 :
    NUM.bits32 0 (num 14535390846504015 22) = 0x35C31739 ∧ NUM.bits32 0 (num 4881932586431503 17).neg = 0xBD47F6C6 ∧
    NUM.ofBits32 0x3FC00000 = num 15 1 ∧ NUM.bits32 0 (lit (2 ^ 128)) = 0x7F800000 ∧
    NUM.bits32 0 (.fin true 0) = 0x80000000 ∧ NUM.bits32 0 .nan = 0x7F800001 := by decide +kernel

/-- R11: `PI` and `TWO_PI` of binary64 are `0x1921FB54442D18 × 2^−51` and its double; and another instance of parameter `NUM`: in binary32
0.1 + 0.2 is 0.3, the word 0x3E99999A, and 1 ÷ 3 is 0x3EAAAAAB (IEEE-754, by hand). -/
theorem test_formats :
    NUM.pi = .fin false (0x1921FB54442D18 * 2 ^ (NUM.scale - 51)) ∧ NUM.twoPi = .fin false (0x1921FB54442D18 * 2 ^ (NUM.scale - 50)) ∧
    binary32.add (binary32.dec 1 10) (binary32.dec 2 10) = binary32.dec 3 10 ∧
    binary32.bits32 0 (binary32.dec 3 10) = 0x3E99999A ∧
    binary32.bits32 0 (binary32.div binary32.one (binary32.lit 3)) = 0x3EAAAAAB ∧
    binary32.ofBits32 0x3EAAAAAB = binary32.dec 1 3 ∧ binary32.mul (binary32.lit (2 ^ 100)) (binary32.lit (2 ^ 28)) = .inf false := by
  decide +kernel

/-- R300: "note 69 gives 440.0", whatever the free power is: between `2^0` and `2^0` there is one value. -/
theorem test_reference_frequency : noteFrequency params 69 = lit 440 := by
  have h : ((NUM.ofInt 0).div (lit 12)) = .fin false 0 := by decide +kernel
  have h1 : NUM.pow2Int 0 = .fin false NUM.unit := by decide +kernel
  have h2 : NUM.unit ≠ 0 := by have := NUM.unit_pos; omega
  show (lit 440).mul (NUM.betweenPowers ((NUM.ofInt 0).div (lit 12)) _) = _
  rw [h, NUM.betweenPowers]
  simp only [NUM.signed, Bool.false_eq_true, if_false, Nat.cast_zero, Int.neg_zero, Int.zero_ediv, h1]
  rw [NUM.clamp_self h2]
  decide +kernel

/-- R12: a power of 2 is exact at an integer, and lies between the powers of the integers around another exponent, whatever TRIG is. -/
theorem test_pow2_bounds :
    NUM.betweenPowers (lit 0) .nan = lit 1 ∧ NUM.betweenPowers (lit 4) (lit 7) = lit 16 ∧
    NUM.betweenPowers (num 75 2).neg (lit 9) = lit 1 ∧ NUM.betweenPowers (num 75 2).neg .zero = num 5 1 ∧
    NUM.betweenPowers (lit 1075).neg (lit 9) = .zero ∧ NUM.betweenPowers (lit 1024) (lit 9) = .inf false := by decide +kernel

/-- R94: on a platform that maps `CMD` at 0x100 and `RSP` at 0x100 and `OUT` at 0x104, a store reaches `CMD` and a load takes the oldest word of the
stream there; an address without a port reaches none. -/
theorem test_port_map :
    let P : Params := { params with portMap := ⟨some 0x100, none, some 0x104, some 0x100, none⟩ }
    let s : State := { State.reset with out := ⟨[7, 8], none⟩ }
    P.portMap.wf = true ∧ s.storeAt P 0x100 0x09000000 = some { s with cmd := [0x09000000] } ∧ s.storeAt P 0x104 0 = none ∧
      s.loadAt P 0x104 = some (7, { s with out := ⟨[8], none⟩ }) ∧ s.loadAt P 0x100 = none := by decide

/-! ### The commands -/

/-- R321: the example; V-VE-7 for the velocity. -/
theorem test_noteOn :
    onNext (exec (.noteOn 60 0x3F800000) on60) (fun t => decide (t.voice.active = some 60) && t.voice.vel == .one &&
      t.voice.vstate == .sounding && t.voice.prng == 0x9E377985 && t.err == 0) = true ∧
    velocity params 0x7FC00000 = .zero ∧ velocity params 0x40000000 = .one := by decide +kernel

/-- V-CMD-16: NOTE_ON 128 silences the voice and raises `BAD_NOTE`. -/
theorem test_noteOn_bad :
    onNext (exec (.noteOn 128 0x3F800000) on60) (fun t => statusWord t == 0x0008FF04 && t.voice == Voice.silentWith []) = true := by
  decide +kernel

/-- V-CMD-17: NOTE_OFF 61 is ignored and NOTE_OFF 60 releases. -/
theorem test_noteOff :
    onNext (exec (.noteOff 61) on60) (fun t => statusWord t == 0x00003C05) = true ∧
    onNext (exec (.noteOff 60) on60) (fun t => statusWord t == 0x00003C06) = true := by decide +kernel

/-- V-CMD-3, V-CMD-5, V-CMD-6. -/
theorem test_setRate :
    onNext (exec (.setRate 0x472C4400) State.reset)
      (fun t => t.fs == lit 44100 && t.dlLen == 44100 && t.gp == 441 && statusWord t == 0x0000FF04) = true ∧
    onNext (exec (.setRate 0x483B8000) State.reset) (fun t => t.dlLen == 192000 && t.gp == 1920) = true ∧
    onNext (exec (.setRate 0x3F800000) State.reset) (fun t => t.dlLen == 1 && t.gp == 0) = true := by decide +kernel

/-- V-CMD-7: the eight rejected rates. -/
theorem test_setRate_bad :
    [0x00000000#32, 0x80000000, 0xBF800000, 0x3F000000, 0x7FC00000, 0x7F800000, 0x483B8020, 0x483B8040].all (fun d =>
      onNext (exec (.setRate d) State.reset) fun t => t == { State.reset with err := 0b00010 }) = true := by decide +kernel

/-- V-VE-6: eight zero words and status `0000FF04`. -/
theorem test_render_silent :
    onNext (exec (.render 8) (at441 (Voice.silentWith []) .zero .zero))
      (fun t => t.out.words == List.replicate 8 0 && statusWord t == 0x0000FF04) = true := by decide +kernel

/-- V-CMD-8, V-CMD-9: RENDER before any rate. -/
theorem test_render_no_rate :
    onNext (exec (.render 1) State.reset) (fun t => t == { State.reset with err := 0b00100 }) = true ∧
    onNext (exec (.render 0) State.reset) (fun t => statusWord t == 0x0004FF00) = true := by decide +kernel

/-- V-CMD-2, and R325's example. -/
theorem test_getActiveNote :
    onNext (exec .getActiveNote State.reset) (fun t => t.rsp.words == [0xFFFFFFFF]) = true ∧
    onNext (exec .getActiveNote on60) (fun t => t.rsp.words == [0x0000003C]) = true := by decide +kernel

/-- V-CMD-18: note 61. The effect code rests on TRIG: `|int(947.14…)| mod 8 = 3`, with the sine of R151 as V-NP-1 has it. -/
theorem test_types :
    onNext (exec .getWaveType (on60.setVoice { voice60 with active := some 61 })) (fun t => t.rsp.words == [1]) = true ∧
    onNext (exec .getFilterType (on60.setVoice { voice60 with active := some 61 })) (fun t => t.rsp.words == [1]) = true ∧
    (profile (sinParams (num 9471445116961289 16) .zero) 61).effect.code = 3 ∧
    onNext (exec .getWeirdType on60) (fun t => t.rsp.words.length == 1) = true := by decide +kernel

/-- V-CMD-1, and the status of R329's example. -/
theorem test_getStatus :
    onNext (exec .getStatus State.reset) (fun t => t.rsp.words == [0x0000FF00]) = true ∧
    onNext (exec .getStatus on60) (fun t => t.rsp.words == [0x00003C05]) = true := by decide +kernel

/-- V-CMD-21 and V-CMD-22. -/
theorem test_clearErr_and_reset :
    onNext (exec .clearErr { on60 with err := 0b11111 }) (fun t => t == on60) = true ∧
    onNext (exec .reset { on60 with err := 0b11111, out := ⟨[1, 2], none⟩ })
      (fun t => statusWord t == 0x0000FF00 && t.out.words == [1, 2] && t.fs == .zero) = true := by decide +kernel

/-- V-CMD-19: the knob is kept unclamped. -/
theorem test_knob :
    onNext (exec (.setKnob 0x3FC00000) State.reset) (fun t => t.knob == 0x3FC00000) = true ∧
    onNext (exec .getKnob { State.reset with knob := 0x3FC00000 }) (fun t => t.crsp.words == [0x3FC00000]) = true := by
  decide +kernel

/-! ### The waves (V-OB-1 to V-OB-8) -/

/-- V-OB-1, V-OB-4: `sin(TWO_PI × 0.25) = 1`. -/
theorem test_sine_and_sub :
    (waveSine (sinParams .one .zero) (at441 { voice60 with ph := num 25 2 } .zero .zero)).wires.x0 = .one ∧
    (waveSub (sinParams .one .zero) (at441 { voice60 with ph := num 1 1, phSub := num 25 2 } .zero .zero)).wires.x0 = .one := by
  decide +kernel

/-- R192 with the inner sine as V-OB-3 has it and the outer one handed on: `TWO_PI × 0.25 + 2 × 0.7071067811865475`. -/
theorem test_fm :
    (waveFm (testParams (fun x => if x = NUM.twoPi.mul (num 125 3) then num 7071067811865475 16 else x) (fun _ => .zero)
        (fun _ => .zero) .zero .zero .zero)
      (at441 { voice60 with ph := num 25 2, phFm := num 125 3 } .zero .zero)).wires.x0 = num 29850098891679915 16 := by
  decide +kernel

/-- V-OB-1: a value and an edge of each. -/
theorem test_square_saw_triangle_pulses :
    ∀ c ∈ [(Instr.wSquare, num 0 0, NUM.one), (.wSquare, num 5 1, NUM.one.neg), (.wSaw, num 75 2, num 5 1), (.wTriangle, num 5 1, NUM.one.neg),
        (.wTriangle, num 75 2, NUM.zero), (.wPulse25, num 1 1, .one), (.wPulse25, num 25 2, NUM.one.neg), (.wPulse75, num 75 2, NUM.one.neg)],
      onNext (exec c.1 (at441 { voice60 with ph := c.2.1 } .zero .zero)) (fun t => t.wires.x0 == c.2.2) = true := by decide +kernel

/-- V-OB-2: the second tick at FREQ 440. -/
theorem test_supersaw :
    onNext (exec .wSupersaw (at441 (phaseAdvance params (lit 44100) false { voice60 with freq := lit 440 }) .zero .zero))
      (fun t => t.wires.x0 == (num 980045351473923 15).neg) = true := by decide +kernel

/-- V-OB-6, V-OB-7. -/
theorem test_noise :
    onNext (exec .wWhite on60) (fun t => t.wires.x0 == (num 518307089805603 15).neg && t.voice.prng == 0x3DA81D20) = true ∧
    onNext (exec .wPink on60) (fun t => t.wires.x0 == (num 518307089805603 17).neg && t.voice.pink == t.wires.x0) = true := by
  decide +kernel

/-- V-OB-8: the impulse and the gap, and the tick after it. -/
theorem test_crackle :
    onNext (exec .wCrackle on60) (fun t => t.wires.x0 == (num 1036614179611206 15).neg && t.voice.crackleT == 171 &&
      t.voice.prng == 0x31B32DFF) = true ∧
    onNext (exec .wCrackle (on60.setVoice { voice60 with crackleT := 171 }))
      (fun t => t.wires.x0 == .zero && t.voice.crackleT == 170 && t.voice.prng == 0x9E377985) = true := by decide +kernel

/-! ### The effects (V-WM-1 to V-WM-8) -/

theorem test_wobbler :
    let t := effectWobbler (sinParams .one (num 5 1)) (at441 { voice60 with wobPh := num 25 2 } .one .zero)
    t.wires.x1 = num 14 1 ∧ t.voice.wobPh = num 2502177282489386 16 := by decide +kernel

/-- V-WM-2a, 2b and 2c: the three hashes. -/
theorem test_glitcher :
    ∀ c ∈ [(num 23193706763674166 17, num 2 0), (num 7794372331715184 17, (num 1 0).neg), (num 38029413339202667 17, num 5 1)],
      let t := effectGlitcher (sinParams c.1 (num 7694543738095945 16)) (at441 { voice60 with glitchCnt := 440 } (num 5 1) .zero)
      t.wires.x1 = c.2 ∧ t.voice.glitchCnt = 0 := by decide +kernel

/-- R223: before the period is over the sample passes. -/
theorem test_glitcher_counts :
    onNext (exec .eGlitcher (at441 { voice60 with glitchCnt := 439 } (num 5 1) .zero))
      (fun t => t.wires.x1 == num 5 1 && t.voice.glitchCnt == 440) = true := by decide +kernel

theorem test_harmonizer :
    let t := effectHarmonizer (sinParams .one (num 5 1)) (at441 { voice60 with harmPh := num 25 2 } (num 2 1) .zero)
    t.wires.x1 = num 6 1 ∧ t.voice.harmPh = num 26832289966642225 17 := by decide +kernel

theorem test_reverser :
    (effectReverser (sinParams .one (num 5 1)) (at441 { voice60 with ph := dec 1 64 } .one .zero)).wires.x1 = .one := by
  decide +kernel

/-- V-WM-5a, 5b and 5c, with the powers of R226's examples. -/
theorem test_bitcrusher :
    let pow2 := fun x => if x = lit 16 then lit 65536 else if x = num 4073457205951286 15 then num 1683576306069946 14 else .nan
    let run (x0 a : NUM) :=
      (effectBitcrusher (testParams (fun _ => .zero) (fun _ => .zero) pow2 a .zero .zero) (at441 voice60 x0 .zero)).wires.x1
    run (num 3 1) .zero = num 3000030517578125 16 ∧ run (num 5 1) (num 7694543738095945 16) = num 4751789373108243 16 ∧
    run (num 5 1).neg (num 7694543738095945 16) = (num 4751789373108243 16).neg := by decide +kernel

theorem test_ringmod :
    let t := effectRingmod (sinParams .one (num 5 1)) (at441 { voice60 with ringPh := num 25 2 } (num 2 1) .zero)
    t.wires.x1 = num 2 1 ∧ t.voice.ringPh = num 2751881546578011 16 := by decide +kernel

/-- V-WM-7a and 7b. -/
theorem test_granular :
    let run (ph : NUM) := effectGranular (sinParams .one (num 5 1)) (at441 { voice60 with grainPh := ph } .one .zero)
    (run (num 5 1)).wires.x1 = .one ∧ (run (num 5 1)).voice.grainPh = num 5004062507168195 16 ∧
    (run (num 5 1)).wires.grainReset = false ∧
    (run (num 9999 4)).voice.grainPh = num 30625071681944505 20 ∧ (run (num 9999 4)).wires.grainReset = true := by decide +kernel

theorem test_filtersweep :
    let t := effectFiltersweep (sinParams .zero (num 5 1)) (at441 voice60 .one .zero)
    t.wires.x1 = num 4607047147235819 15 ∧ t.voice.sweepLp = num 9823821319104542 17 ∧
    t.voice.wobPh = num 217728248938601 18 := by decide +kernel

/-! ### The filters (V-CF-0 to V-CF-13), the first tick from reset with input 1.0 -/

/-- The state of the filter examples. -/
def filterIn : State := at441 voice60 .zero .one

theorem test_ladders :
    (filterLadderLp filterParams filterIn).wires.x2 = num 1079190493640789 17 ∧
    (filterLadderHp filterParams filterIn).wires.x2 = num 6776894451614348 16 ∧
    (filterLadderBp filterParams filterIn).wires.x2 = num 21842646107822145 17 ∧
    (filterNotch filterParams filterIn).wires.x2 = num 7815735389217786 16 := by decide +kernel

/-- V-CF-0: the ladder's state after the second tick, where the feedback is at work. -/
theorem test_ladder_feedback :
    (filterLadderLp filterParams (filterLadderLp filterParams filterIn)).voice.lad =
      ⟨num 7059955857823343 16, num 29795098282862786 17, num 1187237815525809 16, num 4557948797333418 17⟩ := by decide +kernel

/-- V-CF-12 and V-CF-13: the coefficient and the resonance are clamped. -/
theorem test_ladder_clamps :
    let run (c r : NUM) := filterLadderLp (testParams (fun _ => .zero) (fun _ => .zero) (fun _ => .zero) .zero c r) filterIn
    (run (lit 1000000000) (lit 5)).wires.x2 = num 96059601 8 ∧ (run (lit 5).neg (lit 1).neg).wires.x2 = .zero := by decide +kernel

/-- V-CF-4: tick 7 reads what tick 1 wrote; V-CF-14: D = 6. -/
theorem test_comb :
    let t := filterComb filterParams (at441 { voice60 with dlW := 6, dl := [⟨0, .one, true⟩, ⟨1, .one, false⟩] } .zero .one)
    t.wires.x2 = num 19482074479652738 16 ∧ t.voice.dlW = 7 ∧ Memory.read 6 t.voice.dl = t.wires.x2 ∧
    Memory.read 1 t.voice.dl = .zero := by decide +kernel

theorem test_vowels :
    (filterVowelA filterParams filterIn).wires.x2 = num 555052678667839 16 ∧
    (filterVowelE filterParams filterIn).wires.x2 = num 61700217501966775 18 ∧
    (filterVowelI filterParams filterIn).wires.x2 = num 5862948051480607 17 ∧
    (filterVowelO filterParams filterIn).wires.x2 = num 4350409551575732 17 ∧
    (filterVowelU filterParams filterIn).wires.x2 = num 3236984589754269 17 := by decide +kernel

/-- V-CF-10, first tick: `tan(PI × 7106.947734190362 ÷ 44100)` is 0.5544904508585423. -/
theorem test_phaser :
    let t := filterPhaser filterParams filterIn
    t.wires.x2 = num 503373229106663 15 ∧ t.voice.flfoPh = num 11337868480725624 21 := by decide +kernel

/-- V-CF-11, first tick: the carrier starts at sin(0) and its phase is at 7106.947734190362 ÷ 44100 after it. -/
theorem test_ring_filter :
    let t := filterRingmod filterParams filterIn
    t.wires.x2 = .zero ∧ t.voice.rmfPh = num 1611552774192826 16 := by decide +kernel

/-! ### The tick, the ports and the host's side -/

/-- V-VE-1: one attack step at 44100 Hz is 1 ÷ 441; V-VE-2: a release that reaches 0 ends the note. -/
theorem test_envelope :
    (envelopeStep params (lit 44100) voice60).env = (lit 1).div (lit 441) ∧
    (envelopeStep params (lit 44100) { voice60 with vstate := .releasing, env := num 1 4 }).active = none ∧
    (envelopeStep params (lit 44100) { voice60 with vstate := .releasing, env := num 1 3 }).vstate = .releasing := by decide +kernel

/-- The first tick of the example scenario: sample 0 is +0.0, and the phase has moved by 261.6255653005986 ÷ 44100. -/
theorem test_first_tick :
    let t := tick (sinParams .zero .zero) on60
    t.out.words = [0] ∧ t.voice.ph = (num 2616255653005986 13).div (lit 44100) ∧ t.wires = Wires.idle := by decide +kernel

/-- P3 and V-CMD-20: an illegal word on each port raises its own flag. -/
theorem test_step_illegal :
    onNext (step { State.reset with cmd := [0, 7] }) (fun t => statusWord t == 0x0001FF00 && t.cmd == [7]) = true ∧
    onNext (step { State.reset with ctl := [0x12000000] }) (fun t => statusWord t == 0x0010FF00 && t.ctl == []) = true := by
  decide +kernel

/-- R121, R123: a reserved selector code is refused. -/
theorem test_step_refuses_selector :
    step { State.reset with handed := some ⟨.filter, 12⟩ } = .refused (.reservedSelector .filter 12) := rfl

/-- R127's examples, and a `ctl:` line with a comment. -/
theorem test_assemble :
    assembleLine "NOTE_ON 60, 1.0".toList = some (.cmd, [0x0100003C, 0x3F800000]) ∧
    assembleLine "RENDER 100".toList = some (.cmd, [0x04000064]) ∧
    assembleLine "ctl: SET_KNOB 0.5 ; half".toList = some (.ctl, [0x10000000, 0x3F000000]) ∧
    assembleLine "NOTE_OFF 256".toList = none := by decide +kernel

/-- V-NP-5: the words of SET_KNOB_POS. -/
theorem test_setKnobPos :
    Pseudo.expand (.setKnobPos 1) = [.setKnob 0x3C010204] ∧ Pseudo.expand (.setKnobPos 63) = [.setKnob 0x3EFDFBF8] ∧
    Pseudo.expand (.setKnobPos 127) = [.setKnob 0x3F800000] ∧
    Pseudo.expand (.retrigger 61 0x3F800000) = [.noteOff 61, .noteOn 61 0x3F800000] := by decide +kernel

/-! ### Witnesses: for each statement with hypotheses, concrete values that meet them together, clause by clause -/

/-- A sounding machine with a RENDER of one tick waiting: the state the invariants' witnesses use. -/
def rendering : State := { on60 with cmd := [0x04000001] }

/-- A machine whose three streams are bounded and full. -/
def fullStreams : State :=
  { on60 with out := ⟨[1], some 1⟩, rsp := ⟨[1], some 1⟩, crsp := ⟨[1], some 1⟩, cmd := [0x09000000] }

theorem witness_EncodeThenDecode :
    (Instr.noteOn 255 0xFFFFFFFF).wf = true ∧ (Instr.noteOn 0 0).wf = true ∧ (Instr.render 16777215).wf = true ∧
    Instr.wCrackle.wf = true := by decide

theorem witness_DecodeThenEncode :
    decode (.port .cmd) [0x010000FF, 0, 7] = .ok (.noteOn 255 0) [7] ∧ decode (.bank .filter) [11, 7] = .ok .fRingmod [7] := by
  decide

/-- Both lengths on both ports. -/
theorem witness_CommandLengthFromOpcode :
    opcode 0x01FFFFFF = 0x01 ∧ opcode 0x03000000 = 0x03 ∧ opcode 0x10000000 = 0x10 ∧
    opcode 0x02000000 = 0x02 ∧ opcode 0x11000000 = 0x11 ∧ opcode 0xFFFFFFFF = 0xFF := by decide

/-- Reserved opcodes at the ends of their ranges, and a reserved bit at the low and the high end of each format. -/
theorem witness_IllegalWords :
    (opcode 0 = 0 ∧ 0x0B < opcode 0x0C000000) ∧ (opcode 0x0F000000 < 0x10 ∧ 0x11 < opcode 0x12000000) ∧
    (opcode 0x01000100 = 0x01 ∧ operand 0x01000100 / 2 ^ 8 ≠ 0) ∧ (opcode 0x02800000 = 0x02 ∧ operand 0x02800000 / 2 ^ 8 ≠ 0) ∧
    (opcode 0x03000001 = 0x03 ∧ operand 0x03000001 ≠ 0) ∧ (opcode 0x05800000 = 0x05 ∧ operand 0x05800000 ≠ 0) ∧
    (opcode 0x0B000001 = 0x0B ∧ operand 0x0B000001 ≠ 0) ∧ (opcode 0x10000001 = 0x10 ∧ operand 0x10000001 ≠ 0) ∧
    (opcode 0x11800000 = 0x11 ∧ operand 0x11800000 ≠ 0) := by decide

theorem witness_IllegalWords_step :
    (let s : State := { on60 with cmd := [0x0C000000] }
     s.handed = none ∧ decode (.port .cmd) s.cmd = .illegal [] ∧ s.renderLeft = 0 ∧ ctlReady s = false) ∧
    (let s : State := { on60 with ctl := [0x12000000] }
     s.handed = none ∧ decode (.port .ctl) s.ctl = .illegal [] ∧ cmdReady s = false) := by decide

theorem witness_NoteOnResetsAndCaptures :
    127 < 128 ∧ 128 ≤ 128 ∧ (NUM.nan = .nan ∨ NUM.nan.lt .zero = true) ∧ (lit 1).neg.lt .zero = true ∧
    NUM.one.lt (lit 2) = true := by decide +kernel

/-- NOTE_OFF of the sounding note, of another note, in another state, and of an invalid note. -/
theorem witness_NoteOffReleases :
    (on60.voice.vstate = .sounding ∧ on60.voice.active = some ⟨60, by decide⟩) ∧ on60.voice.active ≠ some ⟨61, by decide⟩ ∧
    State.reset.voice.vstate ≠ .sounding ∧ 128 ≤ 128 := by decide

/-- Each ground of rejection, and the least and the largest rate that is taken. -/
theorem witness_SetRateAcceptsOrRejects :
    NUM.ofBits32 0x7FC00000 = .nan ∧ (NUM.ofBits32 0x3F7FFFFF).lt (lit 1) = true ∧ NUM.ofBits32 0x7F800000 = .inf false ∧
    192000 < params.rhaInt (NUM.ofBits32 0x483B8020) ∧
    (NUM.ofBits32 0x3F800000 ≠ .nan ∧ (NUM.ofBits32 0x3F800000).lt (lit 1) = false ∧ NUM.ofBits32 0x3F800000 ≠ .inf false ∧
      params.rhaInt (NUM.ofBits32 0x3F800000) ≤ 192000) ∧
    (NUM.ofBits32 0x483B801F ≠ .nan ∧ (NUM.ofBits32 0x483B801F).lt (lit 1) = false ∧ NUM.ofBits32 0x483B801F ≠ .inf false ∧
      params.rhaInt (NUM.ofBits32 0x483B801F) ≤ 192000) ∧
    (NUM.ofBits32 0x80000000).le .zero = true := by decide +kernel

theorem witness_RenderRunsTicks :
    State.reset.rateValid = false ∧ on60.rateValid = true ∧ on60.out.depth = none := by decide

/-- A full `RSP`, a full `CRSP`, an `OUT` at its depth, and one with room for a tick still owed. -/
theorem witness_OutputHolds :
    (fullStreams.rsp.full = true ∧ fullStreams.handed = none ∧ fullStreams.renderLeft = 0 ∧ ctlReady fullStreams = false ∧
      decode (.port .cmd) fullStreams.cmd = .ok .getStatus []) ∧
    (let s : State := { fullStreams with cmd := [], ctl := [0x11000000] }
     s.crsp.full = true ∧ s.handed = none ∧ cmdReady s = false ∧ decode (.port .ctl) s.ctl = .ok .getKnob []) ∧
    (fullStreams.rateValid = true ∧ fullStreams.out.depth = some 1 ∧ min 2 (1 - fullStreams.out.words.length) < 2 ∧
      (let t : State := { fullStreams with knobSnap := fullStreams.knob, renderLeft := 2 }
       t.handed = none ∧ ctlReady t = false)) ∧
    (let s : State := { on60 with out := ⟨[], some 1⟩ }
     s.rateValid = true ∧ s.out.depth = some 1 ∧ 0 < min 2 (1 - s.out.words.length) ∧ min 2 (1 - s.out.words.length) < 2) ∧
    (let s : State := { on60 with out := ⟨[], some 1⟩, renderLeft := 2 }
     s.out.depth = some 1 ∧ s.out.words.length < 1 ∧ s.renderLeft ≠ 0 ∧ s.handed = none ∧ ctlReady s = false ∧
       min s.renderLeft (1 - s.out.words.length) < s.renderLeft) := by decide

theorem witness_TypeAccessors_and_StatusWord_and_KnobPort : on60.rsp.full = false ∧ on60.crsp.full = false := by decide

theorem witness_PulseWaves_and_RampWaves :
    (at441 { voice60 with ph := dec 1 2 } .zero .zero).voice.ph = dec 1 2 ∧ on60.voice.ph = .zero ∧
    on60.voice.phSs = ⟨.zero, .zero, .zero, .zero, .zero, .zero, .zero⟩ := ⟨rfl, rfl, rfl⟩

theorem witness_CrackleWave :
    0 < (on60.setVoice { voice60 with crackleT := 1 }).voice.crackleT ∧ on60.voice.crackleT = 0 := by decide

/-- One tick before the period is over, and on the tick that ends it. -/
theorem witness_Glitcher :
    (on60.setVoice { voice60 with glitchCnt := 439 }).voice.glitchCnt + 1 < on60.gp ∧
    on60.gp ≤ (on60.setVoice { voice60 with glitchCnt := 440 }).voice.glitchCnt + 1 := by decide

/-- Each voice state, and a release on both sides of its end. -/
theorem witness_EnvelopeStep :
    voice60.vstate = .sounding ∧ (Voice.silentWith []).vstate = .silent ∧
    (NUM.zero.max ((num 1 3).sub (NUM.one.div ((dec 1 10).mul (lit 44100))))).isZero = false ∧
    (NUM.zero.max ((num 1 4).sub (NUM.one.div ((dec 1 10).mul (lit 44100))))).isZero = true := by decide +kernel

theorem witness_SilentTick_and_SoundingTick :
    on60.voice.active = some 60 ∧
    (envelopeStep params (lit 44100) (Voice.silentWith [])).vstate = .silent ∧
    (envelopeStep params (lit 44100) { voice60 with vstate := .releasing, env := .zero }).vstate = .silent ∧
    (envelopeStep params on60.fs on60.voice).vstate ≠ .silent := by decide +kernel

/-- `CMD` alone, `CTL` alone, neither, and a RENDER that has room again. -/
theorem witness_StepPerforms :
    (rendering.handed = none ∧ decode (.port .cmd) rendering.cmd = .ok (.render 1) [] ∧ holds (.render 1) rendering = false ∧
      rendering.renderLeft = 0 ∧ ctlReady rendering = false) ∧
    (let s : State := { on60 with ctl := [0x11000000] }
     decode (.port .ctl) s.ctl = .ok .getKnob [] ∧ holds .getKnob s = false ∧ cmdReady s = false) ∧
    (cmdReady on60 = false ∧ ctlReady on60 = false) ∧
    (let s : State := { on60 with renderLeft := 2 }
     s.renderLeft ≠ 0 ∧ s.out.full = false ∧ ctlReady s = false) := by decide

/-- Both ports ready: a command on each, an illegal one on each, and a held RENDER beside a `CTL` command. -/
theorem witness_StepPerforms_both :
    (let s : State := { rendering with ctl := [0x11000000] }
     cmdReady s = true ∧ ctlReady s = true ∧ s.renderLeft = 0 ∧ decode (.port .cmd) s.cmd = .ok (.render 1) [] ∧
       decode (.port .ctl) s.ctl = .ok .getKnob []) ∧
    (let s : State := { on60 with cmd := [0], ctl := [0x12000000] }
     cmdReady s = true ∧ ctlReady s = true ∧ s.renderLeft = 0 ∧ decode (.port .cmd) s.cmd = .illegal [] ∧
       decode (.port .ctl) s.ctl = .illegal []) ∧
    (let s : State := { on60 with ctl := [0x11000000], renderLeft := 2 }
     cmdReady s = true ∧ ctlReady s = true ∧ s.renderLeft ≠ 0) := by decide

/-- The last defined and the first reserved code of each bank. -/
theorem witness_SelectorStep :
    ({ on60 with handed := some ⟨.wave, 11⟩ } : State).handed = some ⟨.wave, 11⟩ ∧
    decodeSelector .wave 11 = some .wCrackle ∧ decodeSelector .wave 12 = none ∧
    decodeSelector .effect 7 = some .eFiltersweep ∧ decodeSelector .effect 8 = none ∧
    decodeSelector .filter 11 = some .fRingmod ∧ decodeSelector .filter 12 = none := ⟨rfl, rfl, rfl, rfl, rfl, rfl, rfl⟩

theorem witness_Tables :
    (127 : Fin 128).val = (115 : Fin 128).val + 12 ∧ 127 < 128 ∧ (12 : Fin 128).val = (0 : Fin 128).val + 12 := by decide

theorem witness_KnobBuckets :
    NUM.ofBits32 0x7FC00000 = .nan ∧ (NUM.ofBits32 0xBF800000).lt .zero = true ∧ NUM.one.lt (NUM.ofBits32 0x3F800001) = true := by
  decide +kernel

/-- Values at both ends of the format. -/
theorem witness_FractionalParts :
    (NUM.fin true 1).wf = true ∧ (NUM.fin false (2 ^ 53 - 1)).wf = true ∧ (NUM.inf true).wf = true ∧ NUM.nan.wf = true := by
  decide +kernel

/-- Each class of pattern at an end of its range, and the magnitudes on both sides of the overflow threshold. -/
theorem witness_Binary32RoundTrip :
    (((0x7F800001 : Word).extractLsb' 23 8).toNat = 255 ∧ ((0x7F800001 : Word).extractLsb' 0 23).toNat ≠ 0) ∧
    (((0xFF800000 : Word).extractLsb' 23 8).toNat = 255 ∧ ((0xFF800000 : Word).extractLsb' 0 23).toNat = 0) ∧
    ((0x807FFFFF : Word).extractLsb' 23 8).toNat = 0 ∧
    (0 < ((0x00800000 : Word).extractLsb' 23 8).toNat ∧ ((0x7F7FFFFF : Word).extractLsb' 23 8).toNat < 255) ∧
    2 ^ (NUM.scale + 128) - 2 ^ (NUM.scale + 103) ≤ 2 ^ (NUM.scale + 128) ∧
    2 ^ (NUM.scale + 128) - 2 ^ (NUM.scale + 104) < 2 ^ (NUM.scale + 128) - 2 ^ (NUM.scale + 103) := by decide +kernel

theorem witness_NearestBinary64 :
    (1 : Nat) ≠ 0 ∧ (NUM.nan = .nan ∨ NUM.zero = .nan) ∧ NUM.signed false 1 + NUM.signed true 1 = 0 ∧
    (∃ u k, NUM.one.mul (NUM.fin true 1) = .fin u k) ∧ ∃ u k, NUM.one.div (NUM.fin true 1) = .fin u k ∨ NUM.one.div .one = .fin u k :=
  ⟨by decide, .inl rfl, by decide, ⟨true, 1, by decide +kernel⟩, ⟨false, NUM.unit, .inr (by decide +kernel)⟩⟩

/-- The waiting RENDER is performed by the next step. -/
theorem witness_step : ∃ t, step rendering = .next t := by
  obtain ⟨t, h, -⟩ := next_of_onNext (o := step rendering) (f := fun _ => true) (by decide +kernel)
  exact ⟨t, h⟩

theorem witness_RateInv : rendering.RateInv := by
  unfold State.RateInv State.RateInvWith
  decide +kernel

theorem witness_VoiceInvariant : rendering.VoiceInv := by
  refine ⟨witness_RateInv, ?_⟩
  decide +kernel

/-- The state of `SoundingTick`'s clauses about the active note. -/
theorem witness_SoundingTick_active :
    rendering.VoiceInv ∧ rendering.voice.active = some 60 ∧ (envelopeStep params rendering.fs rendering.voice).vstate ≠ .silent :=
  ⟨witness_VoiceInvariant, rfl, by decide +kernel⟩

theorem witness_DelayInvariant : rendering.DelayInv := by
  refine ⟨witness_RateInv, ?_⟩
  decide +kernel

theorem witness_CounterInvariant : rendering.CounterInv := by
  refine ⟨witness_RateInv, ?_⟩
  decide +kernel

theorem witness_LfoInvariant : rendering.PhaseInv params := by
  refine ⟨witness_RateInv, ?_⟩
  decide +kernel

theorem witness_Binary64Invariant : rendering.Binary64 := by
  unfold State.Binary64
  decide +kernel

/-- Two states that agree on the rate and the knob and differ in the voice. -/
theorem witness_RetriggerDeterminism :
    let t : State := { rendering with voice := Voice.silentWith [⟨3, .one, true⟩], err := 0b11111 }
    rendering.RateInv ∧ t.RateInv ∧ t.rateValid = true ∧ rendering.fs = t.fs ∧ rendering.knob = t.knob ∧
    rendering.out.depth = none ∧ t.out.depth = none ∧ rendering.voice ≠ t.voice :=
  ⟨witness_RateInv, witness_RateInv, rfl, rfl, rfl, rfl, rfl, by decide +kernel⟩

/-- A silent machine at a valid rate, and a command that keeps it silent. -/
theorem witness_SilenceInvariant :
    let s := at441 (Voice.silentWith []) .zero .zero
    s.Silenced ∧ s.rateValid = true ∧ s.out.depth = none ∧ (∀ n v, Instr.noteOn 128 0 = .noteOn n v → 128 ≤ n) ∧
    (∃ t, exec (.noteOn 128 0) s = .next t) ∧ ∃ t, exec .reset on60 = .next t := by
  refine ⟨⟨rfl, rfl⟩, rfl, rfl, ?_, ⟨_, rfl⟩, ⟨_, rfl⟩⟩
  intro n v h
  cases h
  exact le_rfl

theorem witness_StickyFlags_and_WhoWrites :
    (∃ t, step rendering = .next t) ∧ (Instr.render 1).source = .port .cmd ∧ (Instr.setKnob 0).source = .port .ctl ∧
    (∃ t, exec (.render 1) on60 = .next t) ∧ ∃ t, exec (.setKnob 0) on60 = .next t :=
  ⟨witness_step, rfl, rfl, ⟨_, rfl⟩, ⟨_, rfl⟩⟩

/-- One change of `VSTATE` of each kind: a note on, an invalid note on, a note off, a release that ends, a rate and a RESET. -/
theorem witness_VoiceTransitions :
    (∀ c ∈ [(Instr.noteOn 60 0x3F800000, State.reset), (.noteOn 128 0, on60), (.noteOff 60, on60),
        (.render 1, on60.setVoice { voice60 with vstate := .releasing, env := .zero }), (.setRate 0x472C4400, on60), (.reset, on60)],
      onNext (exec c.1 c.2) (fun t => t.voice.vstate != c.2.voice.vstate) = true) := by decide +kernel

theorem witness_EnvelopeMonotone :
    rendering.VoiceInv ∧ rendering.Binary64 ∧ rendering.rateValid = true ∧ rendering.voice.vstate = .sounding ∧
    (let s := rendering.setVoice { voice60 with vstate := .releasing }
     s.VoiceInv ∧ s.Binary64 ∧ s.voice.vstate ≠ .sounding) := by
  refine ⟨witness_VoiceInvariant, witness_Binary64Invariant, rfl, rfl, ⟨witness_RateInv, ?_⟩, ?_, ?_⟩
  · decide +kernel
  · unfold State.Binary64
    decide +kernel
  · decide

/-- The largest note's frequency at the least rate (R296's corner case is note 127 above the rate). -/
theorem witness_PhasesStayInUnit :
    let s : State := { rendering with voice := { voice60 with freq := num 12543853951415975 12 } }
    s.RateInv ∧ s.rateValid = true ∧ NUM.zero.le s.voice.freq = true ∧ s.voice.freq.le (lit 20000) = true ∧
    ∀ x ∈ [s.voice.ph, s.voice.phSub, s.voice.phFm] ++ s.voice.phSs.nums, x.inUnit = true := by
  refine ⟨witness_RateInv, ?_⟩
  decide +kernel

/-- TRIG functions in range, and a state and a step of the machine with them. -/
theorem witness_PhasesStayInUnit_trig :
    let T : Trig := ⟨fun _ => .zero, fun _ => .zero, fun _ => .zero, fun _ => .one⟩
    let P := defaults binary64 T (fun _ => 0) (fun _ => 0) (fun _ => false)
    T.InRange ∧ rendering.AllPhasesInv P ∧ ∃ t, stepWith P rendering = .next t := by
  have hsin : NUM.one.neg.le .zero = true ∧ NUM.zero.le .one = true := by decide +kernel
  have hpow : NUM.zero.le .one = true ∧ NUM.one.le (lit 32) = true := by decide +kernel
  refine ⟨⟨fun _ _ => hsin, fun _ _ _ => hpow⟩, ⟨⟨?_, by decide +kernel⟩, by decide +kernel⟩, ?_⟩
  · unfold State.RateInvWith
    decide +kernel
  · obtain ⟨t, h, -⟩ := next_of_onNext (f := fun _ => true)
      (o := stepWith (defaults binary64 ⟨fun _ => .zero, fun _ => .zero, fun _ => .zero, fun _ => .one⟩ (fun _ => 0) (fun _ => 0)
        (fun _ => false)) rendering) (by decide +kernel)
    exact ⟨t, h⟩

end

end Sys2Proof.Tests
end

section
/-!
PROOFS. The two conversions at the ports (R17): a binary32 word as sign, exponent field and fraction field, the magnitude the fields stand for, and
that `num` and `bits(f32(·))` carry one into the other.
-/

namespace Sys2Proof

theorem NUM.topBits32_eq : NUM.topBits32 = 277 := by decide +kernel

/-! ### Words by their fields -/

/-- The binary32 word of a sign, an exponent field and a fraction field. -/
def NUM.word32 (neg : Bool) (e f : Nat) : Word := BitVec.ofNat 32 ((if neg then 2 ^ 31 else 0) + e * 2 ^ 23 + f)

theorem NUM.word32_toNat {e f : Nat} (neg : Bool) (he : e < 2 ^ 8) (hf : f < 2 ^ 23) :
    (NUM.word32 neg e f).toNat = (if neg then 2 ^ 31 else 0) + e * 2 ^ 23 + f := by
  rw [NUM.word32, BitVec.toNat_ofNat, Nat.mod_eq_of_lt]
  split <;> omega

theorem NUM.word32_msb {e f : Nat} (neg : Bool) (he : e < 2 ^ 8) (hf : f < 2 ^ 23) : (NUM.word32 neg e f).msb = neg := by
  rw [BitVec.msb_eq_decide, NUM.word32_toNat neg he hf]
  cases neg <;> simp <;> omega

theorem NUM.word32_exponent {e f : Nat} (neg : Bool) (he : e < 2 ^ 8) (hf : f < 2 ^ 23) :
    (NUM.word32 neg e f).toNat / 2 ^ 23 % 2 ^ 8 = e := by
  rw [NUM.word32_toNat neg he hf]
  split <;> omega

theorem NUM.word32_fraction {e f : Nat} (neg : Bool) (he : e < 2 ^ 8) (hf : f < 2 ^ 23) :
    (NUM.word32 neg e f).toNat % 2 ^ 23 = f := by
  rw [NUM.word32_toNat neg he hf]
  split <;> omega

/-- Every word is the word of its own fields. -/
theorem NUM.word32_fields (b : Word) :
    NUM.word32 (b.getLsbD 31) (b.extractLsb' 23 8).toNat (b.extractLsb' 0 23).toNat = b := by
  have hb := b.isLt
  apply BitVec.eq_of_toNat_eq
  rw [NUM.word32_toNat _ (BitVec.isLt _) (BitVec.isLt _), show b.getLsbD 31 = b.msb from rfl, BitVec.msb_eq_decide]
  simp only [BitVec.extractLsb'_toNat, Nat.shiftRight_eq_div_pow, decide_eq_true_eq]
  split <;> omega

/-! ### The magnitude of a word -/

/-- The magnitude, in units of `2^−149`, that the fields of a finite binary32 word stand for. -/
def NUM.mag32 (e f : Nat) : Nat := if e = 0 then f else (2 ^ 23 + f) * 2 ^ (e - 1)

theorem NUM.mag32_zero (f : Nat) : NUM.mag32 0 f = f := if_pos rfl

theorem NUM.mag32_succ (k f : Nat) : NUM.mag32 (k + 1) f = (2 ^ 23 + f) * 2 ^ k := if_neg (Nat.succ_ne_zero k)

theorem NUM.roundTo_mag32 {e f : Nat} (hf : f < 2 ^ 23) : NUM.roundTo 24 (NUM.mag32 e f) 1 = NUM.mag32 e f := by
  cases e with
  | zero => simpa [NUM.mag32_zero] using NUM.roundTo_mul_pow (prec := 24) (f := f) (k := 0) (by omega)
  | succ k =>
    rw [NUM.mag32_succ]
    exact NUM.roundTo_mul_pow (by omega)

theorem NUM.mag32_lt_top {e f : Nat} (he : e < 255) (hf : f < 2 ^ 23) : NUM.mag32 e f < 2 ^ NUM.topBits32 := by
  have htop := NUM.topBits32_eq
  cases e with
  | zero =>
    rw [NUM.mag32_zero]
    exact hf.trans (Nat.pow_lt_pow_right (by omega) (by omega))
  | succ k =>
    rw [NUM.mag32_succ]
    calc (2 ^ 23 + f) * 2 ^ k < 2 ^ 24 * 2 ^ k := Nat.mul_lt_mul_of_pos_right (by omega) (Nat.two_pow_pos k)
      _ = 2 ^ (24 + k) := (Nat.pow_add 2 24 k).symm
      _ ≤ 2 ^ NUM.topBits32 := Nat.pow_le_pow_right (by omega) (by omega)

/-- Every representable magnitude below `2^128` is the magnitude of some fields. -/
theorem NUM.exists_mag32 {r : Nat} (hr : NUM.roundTo 24 r 1 = r) (hlt : r < 2 ^ NUM.topBits32) :
    ∃ e f, e < 255 ∧ f < 2 ^ 23 ∧ NUM.mag32 e f = r := by
  rcases Nat.lt_or_ge r (2 ^ 23) with h | h
  · exact ⟨0, r, by omega, h, NUM.mag32_zero r⟩
  · have hr0 : r ≠ 0 := by omega
    have hlog : 23 ≤ Nat.log2 r := (Nat.le_log2 hr0).mpr h
    have hlog' : Nat.log2 r < 277 := by
      rw [← NUM.topBits32_eq]
      exact (Nat.log2_lt hr0).mpr hlt
    obtain ⟨k, hk⟩ := Nat.exists_eq_add_of_le hlog
    rw [NUM.roundTo_self, hk, show 23 + k + 1 - 24 = k by omega] at hr
    obtain ⟨g, rfl⟩ := hr
    have hlo : 2 ^ 23 ≤ g := by
      have := Nat.log2_self_le hr0
      rw [hk, Nat.pow_add, Nat.mul_comm] at this
      exact Nat.le_of_mul_le_mul_left this (Nat.two_pow_pos k)
    have hhi : g < 2 ^ 24 := by
      have := Nat.lt_log2_self (n := 2 ^ k * g)
      rw [hk, show 23 + k + 1 = k + 24 by omega, Nat.pow_add] at this
      exact Nat.lt_of_mul_lt_mul_left this
    refine ⟨k + 1, g - 2 ^ 23, by omega, by omega, ?_⟩
    rw [NUM.mag32_succ, Nat.add_sub_cancel' hlo, Nat.mul_comm]

/-! ### `num` by the fields -/

theorem NUM.ofBits32_word32_finite {e f : Nat} (neg : Bool) (he : e < 255) (hf : f < 2 ^ 23) :
    NUM.ofBits32 (NUM.word32 neg e f) = .fin neg (NUM.mag32 e f * 2 ^ (NUM.scale - 149)) := by
  have he' : e < 2 ^ 8 := by omega
  rw [NUM.ofBits32_exact, NUM.word32_exponent neg he' hf, NUM.word32_fraction neg he' hf, NUM.word32_msb neg he' hf,
    if_neg (by omega), NUM.mag32]
  split <;> rfl

theorem NUM.ofBits32_word32_top {f : Nat} (neg : Bool) (hf : f < 2 ^ 23) :
    NUM.ofBits32 (NUM.word32 neg 255 f) = if f = 0 then .inf neg else .nan := by
  have he : 255 < 2 ^ 8 := by omega
  rw [NUM.ofBits32_exact, NUM.word32_exponent neg he hf, NUM.word32_fraction neg he hf, NUM.word32_msb neg he hf, if_pos rfl]

/-- A word whose value is finite has fields that say so. -/
theorem NUM.ofBits32_fin {b : Word} {neg : Bool} {n : Nat} (h : NUM.ofBits32 b = .fin neg n) :
    ∃ e f, f < 2 ^ 23 ∧ n = NUM.mag32 e f * 2 ^ (NUM.scale - 149) := by
  have hf : (b.extractLsb' 0 23).toNat < 2 ^ 23 := BitVec.isLt _
  have he : (b.extractLsb' 23 8).toNat < 2 ^ 8 := BitVec.isLt _
  rw [← NUM.word32_fields b] at h
  rcases Nat.lt_or_ge (b.extractLsb' 23 8).toNat 255 with h255 | h255
  · rw [NUM.ofBits32_word32_finite _ h255 hf] at h
    injection h with _ h
    exact ⟨_, _, hf, h.symm⟩
  · rw [show (b.extractLsb' 23 8).toNat = 255 by omega, NUM.ofBits32_word32_top _ hf] at h
    split at h <;> cases h

/-! ### The words `bits(f32(·))` gives -/

theorem NUM.pattern32_mag32 {e f : Nat} (neg : Bool) (he : e < 255) (hf : f < 2 ^ 23) :
    NUM.pattern32 neg (NUM.mag32 e f) = NUM.word32 neg e f := by
  rw [NUM.pattern32, if_neg (Nat.not_le_of_lt (NUM.mag32_lt_top he hf)), NUM.word32]
  cases e with
  | zero =>
    have hlog : Nat.log2 f - 23 = 0 := by
      by_cases h0 : f = 0
      · rw [h0]; simp
      · have := (Nat.log2_lt h0).mpr hf
        omega
    simp [NUM.mag32_zero, hlog]
  | succ k =>
    have hlog : Nat.log2 ((2 ^ 23 + f) * 2 ^ k) = 23 + k := by
      rw [Nat.log2_eq_iff (by positivity), show 23 + k + 1 = 24 + k by omega, Nat.pow_add, Nat.pow_add]
      exact ⟨Nat.mul_le_mul_right _ (by omega), Nat.mul_lt_mul_of_pos_right (by omega) (Nat.two_pow_pos k)⟩
    simp only [NUM.mag32_succ, hlog, Nat.add_sub_cancel_left, Nat.mul_div_cancel _ (Nat.two_pow_pos k)]
    refine congrArg (BitVec.ofNat 32) ?_
    omega

theorem NUM.pattern32_top {r : Nat} (neg : Bool) (h : 2 ^ NUM.topBits32 ≤ r) : NUM.pattern32 neg r = NUM.word32 neg 255 0 := by
  rw [NUM.pattern32, if_pos h, NUM.word32, Nat.add_zero]

/-- The last bit of a finite word is the parity of its magnitude in units of its own last place. -/
theorem NUM.pattern32_getLsbD_zero {r : Nat} (neg : Bool) (hlt : r < 2 ^ NUM.topBits32)
    (heven : r / 2 ^ (Nat.log2 r + 1 - 24) % 2 = 0) : (NUM.pattern32 neg r).getLsbD 0 = false := by
  rw [show Nat.log2 r + 1 - 24 = Nat.log2 r - 23 by omega] at heven
  rw [NUM.pattern32, if_neg (Nat.not_le_of_lt hlt)]
  simp only [BitVec.getLsbD_ofNat, Nat.testBit_zero]
  cases neg <;> simp <;> omega

theorem NUM.bits32_inf (free : BitVec 24) (neg : Bool) : NUM.bits32 free (.inf neg) = NUM.word32 neg 255 0 := by
  rw [NUM.bits32, Format.bits32, NUM.pattern32_top neg le_rfl]

/-- A binary32 magnitude is handed out as the word it stands in. -/
theorem NUM.bits32_mag32 {e f : Nat} (free : BitVec 24) (neg : Bool) (he : e < 255) (hf : f < 2 ^ 23) :
    NUM.bits32 free (.fin neg (NUM.mag32 e f * 2 ^ (NUM.scale - 149))) = NUM.word32 neg e f := by
  have hround := NUM.roundTo_scale 24 (NUM.mag32 e f) 1 _ (Nat.two_pow_pos (NUM.scale - 149))
  rw [Nat.one_mul, NUM.roundTo_mag32 hf] at hround
  rw [NUM.bits32_fin, hround, NUM.pattern32_mag32 neg he hf]

/-- The payload of a NaN word is never zero, so that the word is no infinity (R84). -/
theorem NUM.nanPattern_eq (free : BitVec 24) :
    ∃ neg f, f < 2 ^ 23 ∧ f ≠ 0 ∧ NUM.nanPattern free = NUM.word32 neg 255 f := by
  have hfree := free.isLt
  refine ⟨decide (free.toNat / 2 ^ 23 = 1), if free.toNat % 2 ^ 23 = 0 then 1 else free.toNat % 2 ^ 23, ?_, ?_, ?_⟩
  · split <;> omega
  · split <;> omega
  · rw [NUM.nanPattern, NUM.word32]
    congr 3
    simp only [decide_eq_true_eq]
    split <;> omega

theorem NUM.ofBits32_bits32_nan (free : BitVec 24) : NUM.ofBits32 (NUM.bits32 free .nan) = .nan := by
  obtain ⟨neg, f, hf, h0, h⟩ := NUM.nanPattern_eq free
  rw [NUM.bits32, Format.bits32, h, NUM.ofBits32_word32_top neg hf, if_neg h0]

/-- A representable magnitude is read back as it was handed out. -/
theorem NUM.ofBits32_pattern32 {r : Nat} (neg : Bool) (hr : NUM.roundTo 24 r 1 = r) (hlt : r < 2 ^ NUM.topBits32) :
    NUM.ofBits32 (NUM.pattern32 neg r) = .fin neg (r * 2 ^ (NUM.scale - 149)) := by
  obtain ⟨e, f, he, hf, rfl⟩ := NUM.exists_mag32 hr hlt
  rw [NUM.pattern32_mag32 neg he hf, NUM.ofBits32_word32_finite neg he hf]

/-! ### Overflow -/

/-- Just below an even count `N` of last places `U`, the rounded count reaches `N` from half a last place below on: the count `N - 1` is odd, so that the
tie goes up. -/
theorem NUM.even_le_rounded_iff {p U N : Nat} (hN : N % 2 = 0) (hp : p < N * U) :
    N ≤ (if U < 2 * (p % U) ∨ (2 * (p % U) = U ∧ p / U % 2 = 1) then p / U + 1 else p / U) ↔ (2 * N - 1) * U ≤ 2 * p := by
  have hU : 0 < U := Nat.pos_of_mul_pos_left (Nat.zero_lt_of_lt hp)
  have hlo : p / U < N := (Nat.div_lt_iff_lt_mul hU).mpr hp
  have hN0 : 0 < N := Nat.zero_lt_of_lt hlo
  have hdiv := Nat.div_add_mod p U
  have hmod := Nat.mod_lt p hU
  have hbound : (2 * N - 1) * U = 2 * (U * (N - 1)) + U := by
    rw [show 2 * N - 1 = 2 * (N - 1) + 1 by omega]; ring
  rw [hbound]
  generalize p / U = lo at *
  generalize p % U = rem at *
  rcases Nat.lt_or_ge lo (N - 1) with h | h
  · have hstep := Nat.mul_le_mul_left U (Nat.succ_le_of_lt h)
    rw [Nat.mul_succ] at hstep
    constructor <;> intro h'
    · split at h' <;> omega
    · omega
  · obtain rfl : lo = N - 1 := by omega
    split <;> omega

/-- With `prec` bits, rounding reaches a power of two exactly from half a last place above the largest value below it on. -/
theorem NUM.two_pow_le_roundTo_iff {prec w p q : Nat} (hp : 0 < prec) (hq : 0 < q) :
    2 ^ (prec + 1 + w) ≤ NUM.roundTo prec p q ↔ (2 ^ (prec + 1 + w) - 2 ^ w) * q ≤ p := by
  have htop : 2 ^ (prec + 1 + w) = 2 ^ prec * 2 ^ (w + 1) := by rw [← Nat.pow_add]; congr 1; omega
  have hhalf : 2 ^ (prec + w + 1) = 2 ^ (prec + 1 + w) := by congr 1; omega
  have hpos := Nat.two_pow_pos (prec + w)
  have hw : 2 ^ w ≤ 2 ^ (prec + w) := Nat.pow_le_pow_right (by omega) (by omega)
  rcases Nat.lt_or_ge p (2 ^ (prec + w) * q) with hlow | hlow
  · have := NUM.roundTo_le hq (NUM.roundTo_pow hp (prec + w)) hlow.le
    have := Nat.mul_le_mul_right q (show 2 ^ (prec + w) ≤ 2 ^ (prec + 1 + w) - 2 ^ w by omega)
    constructor <;> intro <;> omega
  rcases Nat.lt_or_ge p (2 ^ (prec + 1 + w) * q) with hhigh | hhigh
  · have hlog : Nat.log2 (p / q) = prec + w := by
      have hle := (Nat.le_div_iff_mul_le hq).mpr hlow
      have hlt := (Nat.div_lt_iff_lt_mul hq).mpr hhigh
      exact (Nat.log2_eq_iff (by omega)).mpr ⟨hle, by rwa [hhalf]⟩
    have heven : 2 ^ prec % 2 = 0 := Nat.mod_eq_zero_of_dvd (dvd_pow_self 2 (by omega))
    have hbelow : p < 2 ^ prec * (q * 2 ^ (w + 1)) := by
      calc p < 2 ^ (prec + 1 + w) * q := hhigh
        _ = 2 ^ prec * (q * 2 ^ (w + 1)) := by rw [htop]; ring
    have hbound : (2 * 2 ^ prec - 1) * (q * 2 ^ (w + 1)) = 2 * ((2 ^ (prec + 1 + w) - 2 ^ w) * q) := by
      rw [show 2 ^ (prec + 1 + w) - 2 ^ w = (2 * 2 ^ prec - 1) * 2 ^ w by rw [Nat.sub_one_mul, htop, Nat.pow_succ']; ring_nf]
      ring
    rw [NUM.roundTo, hlog, show prec + w + 1 - prec = w + 1 by omega, htop, Nat.mul_le_mul_right_iff (Nat.two_pow_pos (w + 1)), ← htop,
      NUM.even_le_rounded_iff heven hbelow, hbound, Nat.mul_le_mul_left_iff (by omega)]
  · have := NUM.le_roundTo hp hq (NUM.roundTo_pow hp (prec + 1 + w)) hhigh
    have := Nat.mul_le_mul_right q (Nat.sub_le (2 ^ (prec + 1 + w)) (2 ^ w))
    constructor <;> intro <;> omega

/-- A binary64 magnitude overflows binary32 exactly from half a last place above the largest finite one on (R17, R84). -/
theorem NUM.overflow32_iff (m : Nat) :
    2 ^ NUM.topBits32 ≤ NUM.roundTo 24 m (2 ^ (NUM.scale - 149)) ↔ 2 ^ (NUM.scale + 128) - 2 ^ (NUM.scale + 103) ≤ m := by
  have hs := NUM.scale_eq
  rw [show NUM.topBits32 = 24 + 1 + 252 by rw [NUM.topBits32_eq], NUM.two_pow_le_roundTo_iff (by omega) (Nat.two_pow_pos _),
    Nat.sub_mul, ← Nat.pow_add, ← Nat.pow_add]
  rw [show 24 + 1 + 252 + (NUM.scale - 149) = NUM.scale + 128 by omega, show 252 + (NUM.scale - 149) = NUM.scale + 103 by omega]

theorem NUM.rounded32_lt_top {m : Nat} (h : m < 2 ^ (NUM.scale + 128) - 2 ^ (NUM.scale + 103)) :
    NUM.roundTo 24 m (2 ^ (NUM.scale - 149)) < 2 ^ NUM.topBits32 :=
  Nat.lt_of_not_le fun hle => Nat.not_le_of_lt h ((NUM.overflow32_iff m).mp hle)

/-! ### `num` and `f32`, as R17 states them -/

/-- A subnormal value counts units of `2^−149`. -/
theorem NUM.mag32_zero_exact (f : Nat) : NUM.mag32 0 f * 2 ^ (NUM.scale - 149) * 2 ^ 149 = f * NUM.unit := by
  rw [NUM.mag32_zero, NUM.unit_split, Nat.mul_assoc]

/-- A normal value counts units of `2^−150`, in which its exponent field is itself the power. -/
theorem NUM.mag32_pos_exact {e : Nat} (f : Nat) (he : 0 < e) :
    NUM.mag32 e f * 2 ^ (NUM.scale - 149) * 2 ^ 150 = (2 ^ 23 + f) * 2 ^ e * NUM.unit := by
  obtain ⟨k, rfl⟩ := Nat.exists_eq_succ_of_ne_zero he.ne'
  rw [NUM.mag32_succ, NUM.unit_split, Nat.pow_succ 2 149, Nat.pow_succ 2 k]
  ring

/-- A word that is no NaN survives the way in and out. -/
theorem NUM.bits32_ofBits32_word32 {e f : Nat} (free : BitVec 24) (neg : Bool) (he : e < 2 ^ 8) (hf : f < 2 ^ 23)
    (h : ¬(e = 255 ∧ f ≠ 0)) : NUM.bits32 free (NUM.ofBits32 (NUM.word32 neg e f)) = NUM.word32 neg e f := by
  rcases Nat.lt_or_ge e 255 with h255 | h255
  · rw [NUM.ofBits32_word32_finite neg h255 hf, NUM.bits32_mag32 free neg h255 hf]
  · obtain ⟨rfl, rfl⟩ : e = 255 ∧ f = 0 := by omega
    rw [NUM.ofBits32_word32_top neg hf, if_pos rfl, NUM.bits32_inf]

/-- From the overflow threshold on, the word handed out is an infinity. -/
theorem NUM.ofBits32_bits32_overflow {m : Nat} (free : BitVec 24) (neg : Bool)
    (h : 2 ^ (NUM.scale + 128) - 2 ^ (NUM.scale + 103) ≤ m) : NUM.ofBits32 (NUM.bits32 free (.fin neg m)) = .inf neg := by
  rw [NUM.bits32_fin, NUM.pattern32_top neg ((NUM.overflow32_iff m).mpr h), NUM.ofBits32_word32_top neg (by omega), if_pos rfl]

/-- Below the threshold, the value of the word handed out is the rounding of the magnitude to 24 bits. -/
theorem NUM.ofBits32_bits32_fin {m : Nat} (free : BitVec 24) (neg : Bool)
    (h : m < 2 ^ (NUM.scale + 128) - 2 ^ (NUM.scale + 103)) :
    NUM.ofBits32 (NUM.bits32 free (.fin neg m)) =
      .fin neg (NUM.roundTo 24 m (2 ^ (NUM.scale - 149)) * 2 ^ (NUM.scale - 149)) := by
  rw [NUM.bits32_fin, NUM.ofBits32_pattern32 neg (NUM.roundTo_idem (by omega) _ _) (NUM.rounded32_lt_top h)]

/-- The value of the word handed out is a nearest binary32 value, and of two that are as near the one whose word is even. -/
theorem NUM.bits32_nearest {m k n : Nat} {b : Word} {free : BitVec 24} {neg t : Bool}
    (h : m < 2 ^ (NUM.scale + 128) - 2 ^ (NUM.scale + 103)) (hk : NUM.ofBits32 (NUM.bits32 free (.fin neg m)) = .fin neg k)
    (hb : NUM.ofBits32 b = .fin t n) :
    ((m : Int) - k).natAbs ≤ ((m : Int) - n).natAbs ∧
      (((m : Int) - k).natAbs = ((m : Int) - n).natAbs → n ≠ k → (NUM.bits32 free (.fin neg m)).getLsbD 0 = false) := by
  obtain ⟨e, f, hf, hn⟩ := NUM.ofBits32_fin hb
  rw [NUM.ofBits32_bits32_fin free neg h] at hk
  injection hk with _ hk
  obtain ⟨hnear, htie⟩ :=
    NUM.roundTo_nearest (p := m) (by omega : 1 < 24) (Nat.two_pow_pos (NUM.scale - 149)) (NUM.roundTo_mag32 (e := e) hf)
  rw [hn, ← hk, Nat.cast_mul, Nat.cast_mul, NUM.bits32_fin]
  exact ⟨hnear, fun heq hne => NUM.pattern32_getLsbD_zero neg (NUM.rounded32_lt_top h) (htie heq fun h' => hne (by rw [h']))⟩

end Sys2Proof

namespace Sys2Proof.Proofs

/-- Settles O45: a word is split into its fields, and the magnitude they stand for carries both conversions. -/
theorem binary32RoundTrip : Obligations.Binary32RoundTrip := by
  unfold Obligations.Binary32RoundTrip
  refine ⟨fun free b => ?_, fun free neg m => ⟨NUM.ofBits32_bits32_overflow free neg, fun h =>
    have hk := NUM.ofBits32_bits32_fin free neg h
    ⟨_, hk, fun _ _ hb => NUM.bits32_nearest h hk hb⟩⟩⟩
  have hf : (b.extractLsb' 0 23).toNat < 2 ^ 23 := BitVec.isLt _
  have he : (b.extractLsb' 23 8).toNat < 2 ^ 8 := BitVec.isLt _
  have hwf := NUM.ofBits32_wf b
  have hword := NUM.word32_fields b
  dsimp only
  generalize b.getLsbD 31 = neg at *
  generalize (b.extractLsb' 23 8).toNat = e at *
  generalize (b.extractLsb' 0 23).toNat = f at *
  subst hword
  refine ⟨?nan, ?inf, ?subnormal, ?normal, hwf, NUM.bits32_ofBits32_word32 free neg he hf, NUM.ofBits32_bits32_nan free⟩
  case nan =>
    rintro rfl h0
    rw [NUM.ofBits32_word32_top neg hf, if_neg h0]
  case inf =>
    rintro rfl rfl
    rw [NUM.ofBits32_word32_top neg hf, if_pos rfl]
  case subnormal =>
    rintro rfl
    exact ⟨_, NUM.ofBits32_word32_finite neg (by omega) hf, NUM.mag32_zero_exact f⟩
  case normal =>
    intro hpos hlt
    exact ⟨_, NUM.ofBits32_word32_finite neg hlt hf, NUM.mag32_pos_exact f hpos⟩

end Sys2Proof.Proofs
end

section
/-!
PROOFS. What a tick may write of the voice (R71): the relation "no register of an unselected algorithm differs" is reflexive and transitive, every part
of a tick stays in it, and so a whole tick does.
-/

namespace Sys2Proof.Machine

/-- The voice `u` differs from `v` in no note register and in no register that only algorithms other than `w`, `e` and `t` own (R71). -/
structure Voice.KeepsUnselected (w : Wave) (e : Effect) (t : Filter) (v u : Voice) : Prop where
  vel : u.vel = v.vel
  freq : u.freq = v.freq
  prng : u.prng = v.prng ∨ w.code ∈ [6, 7, 11]
  pink : u.pink = v.pink ∨ w.code = 7
  crackleT : u.crackleT = v.crackleT ∨ w.code = 11
  wobPh : u.wobPh = v.wobPh ∨ e.code ∈ [0, 7]
  glitchCnt : u.glitchCnt = v.glitchCnt ∨ e.code = 1
  harmPh : u.harmPh = v.harmPh ∨ e.code = 2
  ringPh : u.ringPh = v.ringPh ∨ e.code = 5
  grainPh : u.grainPh = v.grainPh ∨ e.code = 6
  sweepLp : u.sweepLp = v.sweepLp ∨ e.code = 7
  lad : u.lad = v.lad ∨ t.code ∈ [0, 1, 2, 3]
  delayLine : (u.dl, u.dlW) = (v.dl, v.dlW) ∨ t.code = 4
  fmt : u.fmt = v.fmt ∨ t.code ∈ [5, 6, 7, 8, 9]
  phs : u.phs = v.phs ∨ t.code = 10
  flfoPh : u.flfoPh = v.flfoPh ∨ t.code ∈ [10, 11]
  carrier : (u.rmfPh, u.rmfLp) = (v.rmfPh, v.rmfLp) ∨ t.code = 11

/-- A register kept or owned over two parts of a tick is so over both together. -/
theorem keptOr_trans {α : Type} {a b c : α} {owned : Prop} (hab : b = a ∨ owned) (hbc : c = b ∨ owned) : c = a ∨ owned :=
  hab.elim (fun h => h ▸ hbc) .inr

namespace Voice.KeepsUnselected

variable {w : Wave} {e : Effect} {t : Filter} {v u x : Voice}

theorem refl : KeepsUnselected w e t v v :=
  ⟨rfl, rfl, .inl rfl, .inl rfl, .inl rfl, .inl rfl, .inl rfl, .inl rfl, .inl rfl, .inl rfl, .inl rfl, .inl rfl, .inl rfl, .inl rfl,
    .inl rfl, .inl rfl, .inl rfl⟩

theorem trans (h : KeepsUnselected w e t v u) (h' : KeepsUnselected w e t u x) : KeepsUnselected w e t v x where
  vel := h'.vel.trans h.vel
  freq := h'.freq.trans h.freq
  prng := keptOr_trans h.prng h'.prng
  pink := keptOr_trans h.pink h'.pink
  crackleT := keptOr_trans h.crackleT h'.crackleT
  wobPh := keptOr_trans h.wobPh h'.wobPh
  glitchCnt := keptOr_trans h.glitchCnt h'.glitchCnt
  harmPh := keptOr_trans h.harmPh h'.harmPh
  ringPh := keptOr_trans h.ringPh h'.ringPh
  grainPh := keptOr_trans h.grainPh h'.grainPh
  sweepLp := keptOr_trans h.sweepLp h'.sweepLp
  lad := keptOr_trans h.lad h'.lad
  delayLine := keptOr_trans h.delayLine h'.delayLine
  fmt := keptOr_trans h.fmt h'.fmt
  phs := keptOr_trans h.phs h'.phs
  flfoPh := keptOr_trans h.flfoPh h'.flfoPh
  carrier := keptOr_trans h.carrier h'.carrier

end Voice.KeepsUnselected

open Voice (KeepsUnselected)

/-! ### The parts of a tick -/

theorem waveStage_keepsUnselected (P : Params) (w : Wave) (e : Effect) (t : Filter) (s : State) :
    KeepsUnselected w e t s.voice (waveStage P w s).voice := by
  cases w
  case white => exact { KeepsUnselected.refl with prng := .inr (by decide) }
  case pink => exact { KeepsUnselected.refl with prng := .inr (by decide), pink := .inr rfl }
  case crackle =>
    simp only [waveStage, waveCrackle]
    split <;> exact { KeepsUnselected.refl with prng := .inr (by decide), crackleT := .inr rfl }
  all_goals exact KeepsUnselected.refl

theorem effectStage_keepsUnselected (P : Params) (w : Wave) (e : Effect) (t : Filter) (s : State) :
    KeepsUnselected w e t s.voice (effectStage P e s).voice := by
  cases e
  case wobbler => exact { KeepsUnselected.refl with wobPh := .inr (by decide) }
  case glitcher =>
    simp only [effectStage, effectGlitcher]
    split <;> exact { KeepsUnselected.refl with glitchCnt := .inr rfl }
  case harmonizer => exact { KeepsUnselected.refl with harmPh := .inr rfl }
  case ringmod => exact { KeepsUnselected.refl with ringPh := .inr rfl }
  case granular =>
    simp only [effectStage, effectGranular]
    split <;> exact { KeepsUnselected.refl with grainPh := .inr rfl }
  case filtersweep => exact { KeepsUnselected.refl with wobPh := .inr (by decide), sweepLp := .inr rfl }
  all_goals exact KeepsUnselected.refl

theorem filterStage_keepsUnselected (P : Params) (w : Wave) (e : Effect) (t : Filter) (s : State) :
    KeepsUnselected w e t s.voice (filterStage P t s).voice := by
  cases t
  case ladderLp | ladderHp | ladderBp | notch => exact { KeepsUnselected.refl with lad := .inr (by decide) }
  case comb => exact { KeepsUnselected.refl with delayLine := .inr rfl }
  case vowelA | vowelE | vowelI | vowelO | vowelU => exact { KeepsUnselected.refl with fmt := .inr (by decide) }
  case phaser => exact { KeepsUnselected.refl with phs := .inr rfl, flfoPh := .inr (by decide) }
  case ringmod => exact { KeepsUnselected.refl with flfoPh := .inr (by decide), carrier := .inr rfl }

theorem envelopeStep_keepsUnselected (P : Params) (w : Wave) (e : Effect) (t : Filter) (fs : NUM) (v : Voice) :
    KeepsUnselected w e t v (envelopeStep P fs v) := by
  obtain ⟨_, _, _, h, -⟩ := envelopeStep_frame P fs v
  rw [h]
  exact { KeepsUnselected.refl with }

theorem phaseAdvance_keepsUnselected (P : Params) (w : Wave) (e : Effect) (t : Filter) (fs : NUM) (grainReset : Bool) (v : Voice) :
    KeepsUnselected w e t v (phaseAdvance P fs grainReset v) :=
  { KeepsUnselected.refl with }

/-! ### The tick -/

theorem bankStages_keepsUnselected (P : Params) (s : State) :
    KeepsUnselected (s.profile P).wave (s.profile P).effect (s.profile P).filter s.voice (bankStages P s).voice :=
  ((waveStage_keepsUnselected P _ _ _ s).trans (effectStage_keepsUnselected P _ _ _ _)).trans (filterStage_keepsUnselected P _ _ _ _)

theorem soundTick_keepsUnselected (P : Params) (s : State) :
    KeepsUnselected (s.profile P).wave (s.profile P).effect (s.profile P).filter s.voice (soundTick P s).voice := by
  simp only [soundTick, State.emitSample_voice, State.setWires_voice, State.setVoice_voice]
  exact (bankStages_keepsUnselected P s).trans (phaseAdvance_keepsUnselected P _ _ _ _ _ _)

/-- The profile depends on the state by its active note alone (R160). -/
theorem State.profile_congr (P : Params) {s u : State} (h : u.voice.active = s.voice.active) : u.profile P = s.profile P := by
  simp only [State.profile, State.profileNote, h]

/-- A note that has not ended in the envelope step is still the active one (R291). -/
theorem envelopeStep_active {P : Params} {fs : NUM} {v : Voice} (h : (envelopeStep P fs v).vstate ≠ .silent) :
    (envelopeStep P fs v).active = v.active := by
  obtain ⟨_, _, _, he, ⟨-, hactive⟩ | ⟨-, hsilent, -⟩⟩ := envelopeStep_frame P fs v
  · rw [he]
    exact hactive
  · rw [he] at h
    exact absurd hsilent h

/-- A tick whose envelope step leaves the voice Silent appends +0.0 (R292). -/
theorem tick_of_silent {P : Params} {s : State} (h : (envelopeStep P s.fs s.voice).vstate = .silent) :
    tick P s = (s.setVoice (envelopeStep P s.fs s.voice)).emit 0 := by
  simp only [tick, State.setVoice_voice, h]

/-- Any other tick runs the banks (R290). -/
theorem tick_of_not_silent {P : Params} {s : State} (h : (envelopeStep P s.fs s.voice).vstate ≠ .silent) :
    tick P s = soundTick P (s.setVoice (envelopeStep P s.fs s.voice)) := by
  cases hv : (envelopeStep P s.fs s.voice).vstate with
  | silent => exact absurd hv h
  | sounding | releasing => simp only [tick, State.setVoice_voice, hv]

/-- A tick writes only the registers of the algorithms that the profile before it selects: the envelope step leaves the profile of a note that goes on. -/
theorem tick_keepsUnselected (P : Params) (s : State) :
    KeepsUnselected (s.profile P).wave (s.profile P).effect (s.profile P).filter s.voice (tick P s).voice := by
  have henv := envelopeStep_keepsUnselected P (s.profile P).wave (s.profile P).effect (s.profile P).filter s.fs s.voice
  by_cases h : (envelopeStep P s.fs s.voice).vstate = .silent
  · rw [tick_of_silent h]
    exact henv
  · rw [tick_of_not_silent h]
    have hsound := soundTick_keepsUnselected P (s.setVoice (envelopeStep P s.fs s.voice))
    rw [State.profile_congr P (s := s) (envelopeStep_active h)] at hsound
    exact henv.trans hsound

end Sys2Proof.Machine

namespace Sys2Proof.Proofs

open Sys2Proof.Machine

/-- Settles O59: each part of a tick writes only what the selected algorithms own. -/
theorem selectedOnly : Obligations.SelectedOnly := by
  unfold Obligations.SelectedOnly
  intro s
  have h := tick_keepsUnselected params s
  exact ⟨h.vel, h.freq, h.prng, h.pink, h.crackleT, h.wobPh, h.glitchCnt, h.harmPh, h.ringPh, h.grainPh, h.sweepLp, h.lad,
    h.delayLine.imp_left Prod.mk.inj, h.fmt, h.phs, h.flfoPh, h.carrier.imp_left Prod.mk.inj⟩

end Sys2Proof.Proofs
end

section
/-!
PROOFS. The reset values (R69): the two reset states are the table's columns by definition, and an invalidated delay line keeps its contents.
-/

namespace Sys2Proof.Machine

/-- An invalidation keeps the index and the contents of every entry (R88). -/
theorem Memory.invalidate_contents (m : Memory) :
    (Memory.invalidate m).map (fun c => (c.index, c.value)) = m.map fun c => (c.index, c.value) :=
  List.map_map ..

end Sys2Proof.Machine

namespace Sys2Proof.Proofs

open Sys2Proof.Machine

/-- Settles O7: both columns are definitions, and an invalidated entry reads as 0.0. -/
theorem resetValues : Obligations.ResetValues := by
  unfold Obligations.ResetValues
  refine ⟨⟨rfl, fun _ => rfl⟩, fun m i => ?_⟩
  obtain ⟨hread, hvalid⟩ := Memory.read_invalidate i m
  exact ⟨hvalid, hread, Memory.invalidate_contents m⟩

end Sys2Proof.Proofs
end

section
/-!
PROOFS. The byte transport (R81): the bytes of a word are its four fields, and the word of four bytes is their concatenation, so that either undoes the
other.
-/

namespace Sys2Proof

/-- A byte behind a word's upper bits counts its units. -/
theorem toNat_append_byte {n : Nat} (x : BitVec n) (b : Byte) : (x ++ b).toNat = x.toNat * 2 ^ 8 + b.toNat := by
  rw [BitVec.toNat_append, ← Nat.shiftLeft_add_eq_or_of_lt b.isLt, Nat.shiftLeft_eq]

/-- A word is its four bytes, the most significant one in front. -/
theorem append_extractLsb'_bytes (w : Word) :
    w.extractLsb' 24 8 ++ w.extractLsb' 16 8 ++ w.extractLsb' 8 8 ++ w.extractLsb' 0 8 = w := by
  rw [BitVec.extractLsb'_append_extractLsb'_eq_extractLsb' (show 24 = 16 + 8 from rfl),
    BitVec.extractLsb'_append_extractLsb'_eq_extractLsb' (show 16 = 8 + 8 from rfl),
    BitVec.extractLsb'_append_extractLsb'_eq_extractLsb' (show 8 = 0 + 8 from rfl)]
  exact BitVec.extractLsb'_eq_self

theorem bytesOfWord_eq_extractLsb' (w : Word) :
    bytesOfWord w = [w.extractLsb' 0 8, w.extractLsb' 8 8, w.extractLsb' 16 8, w.extractLsb' 24 8] := by
  simp only [bytesOfWord, BitVec.extractLsb', Nat.shiftRight_eq_div_pow, Nat.pow_zero, Nat.div_one]

theorem wordOfBytes_eq_append (b0 b1 b2 b3 : Byte) : wordOfBytes b0 b1 b2 b3 = b3 ++ b2 ++ b1 ++ b0 := by
  have happ : (b3 ++ b2 ++ b1 ++ b0).toNat = b0.toNat + b1.toNat * 2 ^ 8 + b2.toNat * 2 ^ 16 + b3.toNat * 2 ^ 24 := by
    simp only [toNat_append_byte]
    omega
  rw [wordOfBytes, ← happ]
  exact (BitVec.ofNat_toNat 32 _).trans (BitVec.setWidth_eq _)

theorem wordsOfBytes_cons_four (b0 b1 b2 b3 : Byte) (rest : List Byte) :
    wordsOfBytes (b0 :: b1 :: b2 :: b3 :: rest) = (b3 ++ b2 ++ b1 ++ b0 : BitVec 32) :: wordsOfBytes rest := by
  rw [wordsOfBytes, wordOfBytes_eq_append]

theorem wordsOfBytes_bytesOfWord_append (w : Word) (bs : List Byte) :
    wordsOfBytes (bytesOfWord w ++ bs) = w :: wordsOfBytes bs := by
  rw [bytesOfWord_eq_extractLsb']
  exact (wordsOfBytes_cons_four _ _ _ _ bs).trans (congrArg (· :: wordsOfBytes bs) (append_extractLsb'_bytes w))

theorem wordsOfBytes_flatMap_bytesOfWord (ws : List Word) : wordsOfBytes (ws.flatMap bytesOfWord) = ws := by
  induction ws with
  | nil => rfl
  | cons w ws ih => rw [List.flatMap_cons, wordsOfBytes_bytesOfWord_append, ih]

end Sys2Proof

namespace Sys2Proof.Proofs

/-- Settles O6: the words come back by induction, one word's four bytes at a time, and the decoder on bytes reads the words. -/
theorem byteTransport : Obligations.ByteTransport := by
  unfold Obligations.ByteTransport
  refine ⟨bytesOfWord_eq_extractLsb', wordsOfBytes_cons_four, fun src ws => ?_⟩
  have hws := wordsOfBytes_flatMap_bytesOfWord ws
  exact ⟨hws, congrArg (decode src) hws⟩

end Sys2Proof.Proofs
end

section
/-!
PROOFS. The command decoder by opcode (R110, R115 to R118): which format reads the words behind each opcode, how many words a format consumes, when it
finds a reserved bit, and what the step does that meets an illegal command.
-/

namespace Sys2Proof

variable {w d : Word} {rest : List Word}

/-! ### The fields of a command word -/

theorem opcode_eq_extractLsb' (w : Word) : opcode w = (w.extractLsb' 24 8).toNat := by
  have hw := w.isLt
  rw [opcode, BitVec.extractLsb'_toNat, Nat.shiftRight_eq_div_pow]
  omega

theorem operand_eq_extractLsb' (w : Word) : operand w = (w.extractLsb' 0 24).toNat := by
  rw [operand, BitVec.extractLsb'_toNat, Nat.shiftRight_zero]

/-! ### The format of each opcode -/

theorem decode_cmd_noteOn (h : opcode w = 0x01) : decode (.port .cmd) (w :: rest) = formatND w rest .noteOn := by
  simp only [decode, decodeCmd, h]

theorem decode_cmd_noteOff (h : opcode w = 0x02) : decode (.port .cmd) (w :: rest) = formatN w rest .noteOff := by
  simp only [decode, decodeCmd, h]

theorem decode_cmd_setRate (h : opcode w = 0x03) : decode (.port .cmd) (w :: rest) = formatD w rest .setRate := by
  simp only [decode, decodeCmd, h]

theorem decode_cmd_render (h : opcode w = 0x04) : decode (.port .cmd) (w :: rest) = formatC w rest .render := by
  simp only [decode, decodeCmd, h]

/-- The opcodes from GET_ACTIVE_NOTE to RESET are of format `Z` (R115). -/
theorem decode_cmd_formatZ (hlo : 0x05 ≤ opcode w) (hhi : opcode w ≤ 0x0B) :
    ∃ i, ∀ rest, decode (.port .cmd) (w :: rest) = formatZ w rest i := by
  generalize ho : opcode w = o at hlo hhi
  interval_cases o <;> exact ⟨_, fun rest => by simp only [decode, decodeCmd, ho]; rfl⟩

/-- The reserved opcodes of `CMD` (R118). -/
theorem decode_cmd_reserved (h : opcode w = 0 ∨ 0x0B < opcode w) : decode (.port .cmd) (w :: rest) = .illegal rest := by
  simp only [decode, decodeCmd]
  split
  case h_12 => rfl
  all_goals omega

theorem decode_ctl_setKnob (h : opcode w = 0x10) : decode (.port .ctl) (w :: rest) = formatD w rest .setKnob := by
  simp only [decode, decodeCtl, h]

theorem decode_ctl_getKnob (h : opcode w = 0x11) : decode (.port .ctl) (w :: rest) = formatZ w rest .getKnob := by
  simp only [decode, decodeCtl, h]

/-- The reserved opcodes of `CTL` (R118). -/
theorem decode_ctl_reserved (h : opcode w < 0x10 ∨ 0x11 < opcode w) : decode (.port .ctl) (w :: rest) = .illegal rest := by
  simp only [decode, decodeCtl]
  split
  case h_3 => rfl
  all_goals omega

/-! ### Reserved bits -/

theorem formatZ_illegal {i : Instr} (h : operand w ≠ 0) : formatZ w rest i = .illegal rest := if_neg h

theorem formatN_illegal {i : Nat → Instr} (h : operand w / 2 ^ 8 ≠ 0) : formatN w rest i = .illegal rest := if_neg h

theorem formatND_illegal {i : Nat → Word → Instr} (h : operand w / 2 ^ 8 ≠ 0) : formatND w (d :: rest) i = .illegal rest := if_neg h

theorem formatD_illegal {i : Word → Instr} (h : operand w ≠ 0) : formatD w (d :: rest) i = .illegal rest := if_neg h

/-! ### How many words a command consumes -/

/-- A whole command was found, legal or not, and `rest` is what stands behind it. -/
def Decoded.Leaves (found : Decoded) (rest : List Word) : Prop := found = .illegal rest ∨ ∃ i, found = .ok i rest

theorem Decoded.Leaves.ne_hold {found : Decoded} (h : found.Leaves rest) : found ≠ .hold := by
  rcases h with h | ⟨i, h⟩ <;> simp [h]

theorem Decoded.leaves_illegal : (Decoded.illegal rest).Leaves rest := .inl rfl

theorem Decoded.leaves_ok (i : Instr) : (Decoded.ok i rest).Leaves rest := .inr ⟨i, rfl⟩

/-- A test of reserved bits decides between the legal and the illegal command, not where it ends (R117). -/
theorem Decoded.leaves_ite {c : Prop} [Decidable c] (i : Instr) : (if c then Decoded.ok i rest else .illegal rest).Leaves rest := by
  split
  · exact leaves_ok i
  · exact leaves_illegal

theorem formatZ_leaves (i : Instr) : (formatZ w rest i).Leaves rest := Decoded.leaves_ite i

theorem formatN_leaves (i : Nat → Instr) : (formatN w rest i).Leaves rest := Decoded.leaves_ite (i (noteField w))

theorem formatC_leaves (i : Nat → Instr) : (formatC w rest i).Leaves rest := Decoded.leaves_ok (i (operand w))

theorem formatND_leaves (i : Nat → Word → Instr) : (formatND w (d :: rest) i).Leaves rest := Decoded.leaves_ite (i (noteField w) d)

theorem formatD_leaves (i : Word → Instr) : (formatD w (d :: rest) i).Leaves rest := Decoded.leaves_ite (i d)

/-- The opcodes of formats `ND` and `D` on each port (R110, R115, R116). -/
def TakesData (p : Port) (w : Word) : Prop := (p = .cmd ∧ (opcode w = 0x01 ∨ opcode w = 0x03)) ∨ (p = .ctl ∧ opcode w = 0x10)

/-- A command with a data word is not complete without it (R120). -/
theorem TakesData.decode_alone {p : Port} (h : TakesData p w) : decode (.port p) [w] = .hold := by
  rcases h with ⟨rfl, h | h⟩ | ⟨rfl, h⟩
  · rw [decode_cmd_noteOn h, formatND]
  · rw [decode_cmd_setRate h, formatD]
  · rw [decode_ctl_setKnob h, formatD]

theorem TakesData.decode_leaves {p : Port} (h : TakesData p w) : (decode (.port p) (w :: d :: rest)).Leaves rest := by
  rcases h with ⟨rfl, h | h⟩ | ⟨rfl, h⟩
  · rw [decode_cmd_noteOn h]
    exact formatND_leaves _
  · rw [decode_cmd_setRate h]
    exact formatD_leaves _
  · rw [decode_ctl_setKnob h]
    exact formatD_leaves _

theorem decode_cmd_leaves (h1 : opcode w ≠ 0x01) (h3 : opcode w ≠ 0x03) : (decode (.port .cmd) (w :: rest)).Leaves rest := by
  obtain h | h | h | h : opcode w = 0x02 ∨ opcode w = 0x04 ∨ (0x05 ≤ opcode w ∧ opcode w ≤ 0x0B) ∨ (opcode w = 0 ∨ 0x0B < opcode w) := by
    omega
  · rw [decode_cmd_noteOff h]
    exact formatN_leaves _
  · rw [decode_cmd_render h]
    exact formatC_leaves _
  · obtain ⟨i, hi⟩ := decode_cmd_formatZ h.1 h.2
    rw [hi]
    exact formatZ_leaves i
  · rw [decode_cmd_reserved h]
    exact Decoded.leaves_illegal

theorem decode_ctl_leaves (h : opcode w ≠ 0x10) : (decode (.port .ctl) (w :: rest)).Leaves rest := by
  rcases eq_or_ne (opcode w) 0x11 with h' | h'
  · rw [decode_ctl_getKnob h']
    exact formatZ_leaves _
  · rw [decode_ctl_reserved (by omega)]
    exact Decoded.leaves_illegal

/-- Every other command is one word. -/
theorem decode_leaves_of_not_takesData {p : Port} (h : ¬TakesData p w) : (decode (.port p) (w :: rest)).Leaves rest := by
  cases p with
  | cmd => exact decode_cmd_leaves (fun h1 => h (.inl ⟨rfl, .inl h1⟩)) (fun h3 => h (.inl ⟨rfl, .inr h3⟩))
  | ctl => exact decode_ctl_leaves fun h' => h (.inr ⟨rfl, h'⟩)

/-- A command word alone holds exactly when a data word belongs to it (R110, R120). -/
theorem decode_alone_eq_hold_iff {p : Port} : decode (.port p) [w] = .hold ↔ TakesData p w :=
  ⟨fun hhold => by_contra fun h => (decode_leaves_of_not_takesData h).ne_hold hhold, TakesData.decode_alone⟩

end Sys2Proof

namespace Sys2Proof.Machine

/-! ### A step with one port ready -/

section

variable {P : Params} {run : Instr → State → Host.Outcome State Fault Refusal} {s : State} {rest : List Word}

/-- No turn is drawn unless both ports are ready (R96). -/
theorem afterTurn_of_one_ready (h : (cmdReady s && ctlReady s) = false) : afterTurn s = s := by
  simp only [afterTurn, h, Bool.false_eq_true, if_false]

/-- With `CMD` alone ready and no RENDER held, the step is its command's (R95). -/
theorem stepOf_cmd_alone (hh : s.handed = none) (h0 : s.renderLeft = 0) (hcmd : cmdReady s = true) (hctl : ctlReady s = false) :
    stepOf P run s = stepPort run .cmd s := by
  simp only [stepOf, hh, turn, hcmd, hctl, h0, if_true, afterTurn_of_one_ready (s := s) (by simp only [hctl, Bool.and_false])]

/-- With `CTL` alone ready, the step is its command's (R95). -/
theorem stepOf_ctl_alone (hh : s.handed = none) (hcmd : cmdReady s = false) (hctl : ctlReady s = true) :
    stepOf P run s = stepPort run .ctl s := by
  simp only [stepOf, hh, turn, hcmd, hctl, afterTurn_of_one_ready (s := s) (by simp only [hcmd, Bool.false_and])]

theorem cmdReady_of_illegal (h0 : s.renderLeft = 0) (hd : decode (.port .cmd) s.cmd = .illegal rest) : cmdReady s = true := by
  simp only [cmdReady, h0, if_true, hd, performable]

theorem ctlReady_of_illegal (hd : decode (.port .ctl) s.ctl = .illegal rest) : ctlReady s = true := by
  simp only [ctlReady, hd, performable]

theorem stepPort_of_illegal {p : Port} (hd : decode (.port p) (s.waiting p) = .illegal rest) :
    stepPort run p s = .next (illegalCommand p rest s) := by
  simp only [stepPort, hd]

end

end Sys2Proof.Machine

namespace Sys2Proof.Proofs

open Sys2Proof.Machine

/-- Settles O4: an opcode takes a data word or it does not, and each format consumes its words whether or not the command is legal. -/
theorem commandLengthFromOpcode : Obligations.CommandLengthFromOpcode := by
  unfold Obligations.CommandLengthFromOpcode
  intro p w d rest
  exact ⟨opcode_eq_extractLsb' w, operand_eq_extractLsb' w, decode_alone_eq_hold_iff, TakesData.decode_leaves,
    decode_leaves_of_not_takesData⟩

/-- Settles O5: each opcode's format finds the reserved bit, and a step with one port ready is that port's. -/
theorem illegalWords : Obligations.IllegalWords := by
  unfold Obligations.IllegalWords
  refine ⟨fun w rest => ⟨decode_cmd_reserved, decode_ctl_reserved⟩, fun w d rest => ⟨?noteOn, ?noteOff, ?setRate, ?formatZ, ?setKnob, ?getKnob⟩,
    fun s rest hh => ⟨?stepCmd, ?stepCtl⟩⟩
  case noteOn => exact fun ho hr => (decode_cmd_noteOn ho).trans (formatND_illegal hr)
  case noteOff => exact fun ho hr => (decode_cmd_noteOff ho).trans (formatN_illegal hr)
  case setRate => exact fun ho hr => (decode_cmd_setRate ho).trans (formatD_illegal hr)
  case formatZ =>
    intro hlo hhi hr
    obtain ⟨i, hi⟩ := decode_cmd_formatZ hlo hhi
    exact (hi rest).trans (formatZ_illegal hr)
  case setKnob => exact fun ho hr => (decode_ctl_setKnob ho).trans (formatD_illegal hr)
  case getKnob => exact fun ho hr => (decode_ctl_getKnob ho).trans (formatZ_illegal hr)
  case stepCmd =>
    intro hd h0 hctl
    exact (stepOf_cmd_alone hh h0 (cmdReady_of_illegal h0 hd) hctl).trans (stepPort_of_illegal hd)
  case stepCtl =>
    intro hd hcmd
    exact (stepOf_ctl_alone hh hcmd (ctlReady_of_illegal hd)).trans (stepPort_of_illegal hd)

end Sys2Proof.Proofs
end

section
/-!
PROOFS. The status word (R126, R329): its value is the sum of its fields, each at its own place, and a GET_STATUS with room in `RSP` appends it.
-/

namespace Sys2Proof

/-- An OR with a word shifted above all of the other's bits is a sum. -/
theorem toNat_or_shiftLeft {x y : Word} {k : Nat} (hx : x.toNat < 2 ^ k) (hy : y.toNat * 2 ^ k < 2 ^ 32) :
    (x ||| y <<< k).toNat = x.toNat + y.toNat * 2 ^ k := by
  rw [BitVec.toNat_or, BitVec.toNat_shiftLeft, Nat.shiftLeft_eq, Nat.mod_eq_of_lt hy, ← Nat.shiftLeft_eq, Nat.or_comm,
    ← Nat.shiftLeft_add_eq_or_of_lt hx, Nat.add_comm]

/-- Four words with bits of their own, at the places of the status word's fields (R126), add up. -/
theorem toNat_or_fields {v r a e : Word} (hv : v.toNat < 2 ^ 2) (hr : r.toNat < 2) (ha : a.toNat < 2 ^ 8) (he : e.toNat < 2 ^ 5) :
    (v ||| r <<< 2 ||| a <<< 8 ||| e <<< 16).toNat = v.toNat + r.toNat * 2 ^ 2 + a.toNat * 2 ^ 8 + e.toNat * 2 ^ 16 := by
  have hvr : (v ||| r <<< 2).toNat = v.toNat + r.toNat * 2 ^ 2 := toNat_or_shiftLeft hv (by omega)
  have hvra : (v ||| r <<< 2 ||| a <<< 8).toNat = v.toNat + r.toNat * 2 ^ 2 + a.toNat * 2 ^ 8 := by
    rw [toNat_or_shiftLeft (by omega) (by omega), hvr]
  rw [toNat_or_shiftLeft (by omega) (by omega), hvra]

/-- A bit field of a word, by the word's value. -/
theorem extractLsb'_eq_ofNat {w : Word} {k n m : Nat} (h : w.toNat / 2 ^ k % 2 ^ n = m % 2 ^ n) : w.extractLsb' k n = BitVec.ofNat n m := by
  apply BitVec.eq_of_toNat_eq
  rw [BitVec.extractLsb'_toNat, Nat.shiftRight_eq_div_pow, BitVec.toNat_ofNat, h]

end Sys2Proof

namespace Sys2Proof.Machine

theorem VState.code_lt (v : VState) : v.code < 2 ^ 2 := by
  cases v <;> decide

/-- The field `ACTIVE` of the status word (R126): the active note, or `0xFF`. -/
def activeField : Option (Fin 128) → Nat
  | none => 0xFF
  | some n => n.val

theorem activeField_lt (a : Option (Fin 128)) : activeField a < 2 ^ 8 := by
  cases a with
  | none => decide
  | some n => exact n.isLt.trans (by decide)

/-- The fields of the status word stand apart (R126): the word is their sum, each at its own place. -/
theorem statusWord_toNat (s : State) :
    (statusWord s).toNat =
      s.voice.vstate.code + s.rateValid.toNat * 2 ^ 2 + activeField s.voice.active * 2 ^ 8 + s.err.toNat * 2 ^ 16 := by
  have hword : statusWord s = BitVec.ofNat 32 s.voice.vstate.code ||| BitVec.ofNat 32 s.rateValid.toNat <<< 2 |||
      BitVec.ofNat 32 (activeField s.voice.active) <<< 8 ||| s.err.zeroExtend 32 <<< 16 := by
    unfold statusWord
    cases s.rateValid <;> rfl
  have hv : (BitVec.ofNat 32 s.voice.vstate.code).toNat = s.voice.vstate.code :=
    Nat.mod_eq_of_lt (s.voice.vstate.code_lt.trans (by decide))
  have hr : (BitVec.ofNat 32 s.rateValid.toNat).toNat = s.rateValid.toNat := Nat.mod_eq_of_lt ((Bool.toNat_lt _).trans (by decide))
  have ha : (BitVec.ofNat 32 (activeField s.voice.active)).toNat = activeField s.voice.active :=
    Nat.mod_eq_of_lt ((activeField_lt _).trans (by decide))
  have he : (s.err.zeroExtend 32).toNat = s.err.toNat := BitVec.toNat_setWidth_of_le (by decide)
  rw [hword, toNat_or_fields (hv.trans_lt s.voice.vstate.code_lt) (hr.trans_lt (Bool.toNat_lt _)) (ha.trans_lt (activeField_lt _))
    (he.trans_lt s.err.isLt), hv, hr, ha, he]

/-- What each bit of the status word is (R126). -/
theorem statusWord_fields (s : State) :
    (statusWord s).extractLsb' 0 2 = BitVec.ofNat 2 s.voice.vstate.code ∧ (statusWord s).getLsbD 2 = s.rateValid ∧
    (statusWord s).extractLsb' 3 5 = 0 ∧ (statusWord s).extractLsb' 8 8 = BitVec.ofNat 8 (activeField s.voice.active) ∧
    (statusWord s).extractLsb' 16 5 = s.err ∧ (statusWord s).extractLsb' 21 11 = 0 := by
  have hsum := statusWord_toNat s
  have hv := s.voice.vstate.code_lt
  have hr := Bool.toNat_lt s.rateValid
  have ha := activeField_lt s.voice.active
  have he := s.err.isLt
  have herr : BitVec.ofNat 5 s.err.toNat = s.err := (BitVec.ofNat_toNat 5 s.err).trans (BitVec.setWidth_eq s.err)
  refine ⟨extractLsb'_eq_ofNat (by omega), ?rateValid, extractLsb'_eq_ofNat (m := 0) (by omega), extractLsb'_eq_ofNat (by omega),
    (extractLsb'_eq_ofNat (by omega)).trans herr, extractLsb'_eq_ofNat (m := 0) (by omega)⟩
  case rateValid =>
    have hbit : (statusWord s).toNat / 2 ^ 2 % 2 = s.rateValid.toNat := by omega
    rw [BitVec.getLsbD, Nat.testBit_eq_decide_div_mod_eq, hbit]
    cases s.rateValid <;> rfl

/-- GET_STATUS while `RSP` has room (R329). -/
theorem exec_getStatus_of_room {s : State} (h : s.rsp.full = false) :
    exec .getStatus s = .next { s with rsp := s.rsp.push (statusWord s) } :=
  congrArg Host.Outcome.next (if_neg (by simp [h]))

end Sys2Proof.Machine

namespace Sys2Proof.Proofs

open Sys2Proof.Machine

/-- Settles O14: the word appended is the sum of its fields, so each field is read off it. -/
theorem statusWord : Obligations.StatusWord := by
  unfold Obligations.StatusWord
  refine ⟨by decide, fun s hroom => ?_⟩
  obtain ⟨hvstate, hrate, hlow, hactive, herr, hhigh⟩ := statusWord_fields s
  refine ⟨Machine.statusWord s, exec_getStatus_of_room hroom, ?_, hrate, hlow, ?_, herr, hhigh⟩
  · rw [hvstate]
    cases s.voice.vstate <;> rfl
  · rw [hactive]
    cases s.voice.active <;> rfl

end Sys2Proof.Proofs
end

section
/-!
PROOFS. The note profiles and knob variants (R151 to R155): rounding keeps the order of exact results, so a table field is largest at the largest
fraction below 1, where its range is checked; and `fr` is such a fraction of every value (R13), whatever TRIG gives.
-/

namespace Sys2Proof

/-! ### Rounding keeps the order -/

theorem NUM.roundTo_zero (prec q : Nat) : NUM.roundTo prec 0 q = 0 := by
  simp [NUM.roundTo]

/-- Of two exact results over one denominator, the smaller is not rounded above the larger: each rounding is the nearer of the two to its own. -/
theorem NUM.roundTo_mono {prec p p' q : Nat} (hprec : 1 < prec) (hq : 0 < q) (h : p ≤ p') :
    NUM.roundTo prec p q ≤ NUM.roundTo prec p' q := by
  rcases Nat.eq_or_lt_of_le h with rfl | hlt
  · exact le_rfl
  by_contra hc
  have hnear := (NUM.roundTo_nearest (p := p) hprec hq (NUM.roundTo_idem (by omega) p' q)).1
  have hnear' := (NUM.roundTo_nearest (p := p') hprec hq (NUM.roundTo_idem (by omega) p q)).1
  have hgap : (NUM.roundTo prec p' q : Int) * q < NUM.roundTo prec p q * q := by
    exact_mod_cast Nat.mul_lt_mul_of_pos_right (Nat.lt_of_not_le hc) hq
  omega

/-- The result of a smaller exact value is not above the result of a larger one, if that is finite. -/
theorem NUM.within_finish_of_top {lo p p' q m : Nat} (s : Bool) (hs : s = true → p = 0) (hq : 0 < q) (hlo : NUM.Mag lo)
    (h1 : lo * q ≤ p) (h2 : p ≤ p') (hm : NUM.finish false p' q = .fin false m) : NUM.Within lo m (NUM.finish s p q) := by
  have hmono := NUM.roundTo_mono (prec := 53) (by omega) hq h2
  have hzero : s = true → NUM.roundTo 53 p q = 0 := fun h => by rw [hs h, NUM.roundTo_zero]
  have hle := NUM.le_roundTo (by omega) hq (NUM.wf_fin.mp hlo).1 h1
  rcases NUM.finish_cases false p' q with ⟨htop, e⟩ | ⟨-, e⟩ <;> rw [e] at hm
  · cases hm
    rcases NUM.finish_cases s p q with ⟨-, e'⟩ | ⟨htop', -⟩
    · rw [e']
      exact NUM.within_fin s hzero hle hmono
    · omega
  · cases hm

/-- A product with a value up to `h` is at most the product with `h`, if that is finite. -/
theorem NUM.within_mul_of_top {d h m : Nat} {u : NUM} (hu : NUM.Within 0 h u)
    (hm : (NUM.fin false d).mul (.fin false h) = .fin false m) : NUM.Within 0 m ((NUM.fin false d).mul u) := by
  obtain ⟨s, k, rfl, -, hk, hs, -⟩ := hu.mag
  simp only [NUM.mul, Format.mul, binary64_round, binary64_unit, bne_self_eq_false] at hm ⊢
  refine NUM.within_finish_of_top _ (fun h => ?_) NUM.unit_pos NUM.mag_zero (by omega) (Nat.mul_le_mul_left d hk) hm
  rw [hs (by simpa using h), Nat.mul_zero]

/-- A sum with a value up to `h` is at least the first operand and at most the sum with `h`, if that is finite. -/
theorem NUM.within_add_of_top {c h m : Nat} {u : NUM} (hc : NUM.Mag c) (hu : NUM.Within 0 h u)
    (hm : (NUM.fin false c).add (.fin false h) = .fin false m) : NUM.Within c m ((NUM.fin false c).add u) := by
  obtain ⟨s, k, rfl, -, hk, -, hsigned⟩ := hu.mag
  have hnonneg : ∀ n : Nat, decide ((c : Int) + n < 0) = false := fun n => decide_eq_false (by omega)
  have hsum : ∀ n : Nat, ((c : Int) + n).natAbs = c + n := fun n => by omega
  simp only [NUM.add, Format.add, binary64_round, hsigned, show ∀ n, NUM.signed false n = (n : Int) from fun _ => rfl, hnonneg, hsum] at hm ⊢
  split
  · exact NUM.within_fin _ (fun _ => rfl) (by omega) (Nat.zero_le m)
  · rw [if_neg (by omega)] at hm
    exact NUM.within_finish_of_top false (by simp) (by omega) hc (by omega) (by omega) hm

/-! ### Fractions below 1 -/

/-- A binary64 magnitude below a power of two is at least one last place below it. -/
theorem NUM.le_pred_two_pow {r w : Nat} (hr : NUM.roundTo 53 r 1 = r) (hlt : r < 2 ^ (53 + w)) : r ≤ 2 ^ (53 + w) - 2 ^ w := by
  have hsplit : 2 ^ (53 + w) = 2 ^ 53 * 2 ^ w := Nat.pow_add 2 53 w
  have hhalf : 2 ^ (52 + w) = 2 ^ 52 * 2 ^ w := Nat.pow_add 2 52 w
  rcases Nat.lt_or_ge r (2 ^ (52 + w)) with h | h
  · omega
  · have hlog : Nat.log2 r = 52 + w :=
      (Nat.log2_eq_iff (by have := Nat.two_pow_pos (52 + w); omega)).mpr ⟨h, by rwa [show 52 + w + 1 = 53 + w by omega]⟩
    rw [NUM.roundTo_self, hlog, show 52 + w + 1 - 53 = w by omega] at hr
    obtain ⟨k, rfl⟩ := hr
    rw [hsplit, Nat.mul_comm] at hlt ⊢
    have hk : k < 2 ^ 53 := Nat.lt_of_mul_lt_mul_right hlt
    rw [← Nat.sub_one_mul]
    exact Nat.mul_le_mul_right _ (by omega)

/-- The largest binary64 value below 1. -/
def NUM.belowOne : NUM := .fin false (NUM.unit - 2 ^ (NUM.scale - 53))

/-- A binary64 value from 0 to below 1 is not above `belowOne`. -/
theorem NUM.within_of_inUnit {x : NUM} (hwf : x.wf = true) (hx : x.inUnit = true) :
    NUM.Within 0 (NUM.unit - 2 ^ (NUM.scale - 53)) x := by
  obtain ⟨s, m, rfl, -, hm, hs, -⟩ := (NUM.inUnit_iff.mp hx).mag
  have hunit : NUM.unit = 2 ^ (53 + (NUM.scale - 53)) := by rw [NUM.unit_eq, NUM.scale_eq]
  have hpos := NUM.unit_pos
  refine NUM.within_fin s hs (Nat.zero_le m) ?_
  rw [hunit] at hm hpos ⊢
  exact NUM.le_pred_two_pow (NUM.wf_fin.mp hwf).1 (by omega)

/-! ### The fractional part -/

/-- A result of positive sign is not negative. -/
theorem NUM.zero_le_finish (p q : Nat) : NUM.zero.le (NUM.finish false p q) = true := by
  rcases NUM.finish_cases false p q with ⟨-, e⟩ | ⟨-, e⟩ <;> rw [e] <;> simp [NUM.zero, NUM.le, NUM.signed]

/-- An integer that is not above a binary64 value is not above it once it is converted, rounded or not. -/
theorem NUM.ofInt_le {z : Int} {s : Bool} {m : Nat} (hm : NUM.Mag m) (h : z * NUM.unit ≤ NUM.signed s m) :
    (NUM.ofInt z).le (.fin s m) = true := by
  simp only [NUM.ofInt, Format.ofInt, binary64_unit, binary64_round]
  have hmag : ((z.natAbs * NUM.unit : Nat) : Int) = |z * NUM.unit| := by
    rw [Nat.cast_mul, Int.natCast_natAbs, abs_mul, Nat.abs_cast]
  have hsigned : NUM.signed s m ≤ m ∧ -(m : Int) ≤ NUM.signed s m := by cases s <;> simp [NUM.signed]
  rcases Int.lt_or_le z 0 with hz | hz
  · have hneg : z * NUM.unit ≤ 0 := Int.mul_nonpos_of_nonpos_of_nonneg hz.le (Int.natCast_nonneg _)
    rw [decide_eq_true hz]
    rw [abs_of_nonpos hneg] at hmag
    rcases NUM.finish_cases true (z.natAbs * NUM.unit) 1 with ⟨-, e⟩ | ⟨-, e⟩
    · have hround (hp : m * 1 ≤ z.natAbs * NUM.unit) := NUM.le_roundTo (by omega) Nat.one_pos (NUM.wf_fin.mp hm).1 hp
      rw [e]
      cases s <;> simp only [NUM.le, NUM.signed, Bool.false_eq_true, if_false, if_true, decide_eq_true_eq] at h ⊢ <;> omega
    · rw [e, NUM.le]
  · have hpos : 0 ≤ z * NUM.unit := Int.mul_nonneg hz (Int.natCast_nonneg _)
    rw [abs_of_nonneg hpos] at hmag
    obtain ⟨k, e, hk⟩ := NUM.finish_le (p := z.natAbs * NUM.unit) false Nat.one_pos hm (by omega)
    rw [decide_eq_false (by omega), e]
    cases s <;> simp only [NUM.le, NUM.signed, Bool.false_eq_true, if_false, if_true, decide_eq_true_eq] at h ⊢ <;> omega

/-- `floor` goes down, also where the integer itself is rounded. -/
theorem NUM.floor_le {x : NUM} (hwf : x.wf = true) (hx : x ≠ .nan) : x.floor.le x = true := by
  cases x with
  | nan => exact absurd rfl hx
  | inf s => cases s <;> simp [NUM.floor, Format.floor, NUM.le]
  | fin s m =>
    have hfloor := Int.ediv_mul_le (NUM.signed s m) (b := (NUM.unit : Int)) (by have := NUM.unit_pos; omega)
    simp only [NUM.floor, Format.floor, binary64_unit]
    split
    · rename_i hz
      rw [hz, Int.zero_mul] at hfloor
      simpa [NUM.le, show NUM.signed s 0 = 0 by cases s <;> rfl] using hfloor
    · exact NUM.ofInt_le hwf hfloor

/-- The difference of two values in order is not negative, unless it is a NaN. -/
theorem NUM.zero_le_sub {x y : NUM} (h : y.le x = true) : x.sub y = .nan ∨ NUM.zero.le (x.sub y) = true := by
  rw [NUM.sub, Format.sub]
  cases x with
  | nan => exact .inl (by rw [Format.add])
  | inf s =>
    rcases y with _ | t | _
    · exact .inl (by simp [Format.add, NUM.neg])
    · cases s <;> cases t <;> simp_all [Format.add, NUM.neg, NUM.le, NUM.zero]
    · cases s <;> simp_all [Format.add, NUM.neg, NUM.le, NUM.zero]
  | fin s m =>
    rcases y with _ | t | ⟨t, n⟩
    · exact .inl (by simp [Format.add, NUM.neg])
    · cases t <;> simp_all [Format.add, NUM.neg, NUM.le, NUM.zero]
    · right
      have hsum : NUM.signed s m + NUM.signed (!t) n = NUM.signed s m - NUM.signed t n := by
        cases t <;> simp [NUM.signed]; omega
      simp only [NUM.le, decide_eq_true_eq] at h
      simp only [NUM.neg, Format.add, hsum, binary64_round]
      split
      · simp [NUM.zero, NUM.le, NUM.signed]
      · rw [decide_eq_false (by omega)]
        exact NUM.zero_le_finish _ _

theorem NUM.lt_of_not_le {x y : NUM} (hx : x ≠ .nan) (hy : y ≠ .nan) (h : ¬x.le y = true) : y.lt x = true := by
  cases x <;> cases y <;> simp_all [NUM.le, NUM.lt]

/-- R13: the fractional part of a binary64 value lies in [0, 1), of a NaN and the infinities too: the guard catches a NaN and a difference that
rounds to 1.0. -/
theorem NUM.fr_inUnit {x : NUM} (hwf : x.wf = true) : x.fr.inUnit = true := by
  rw [NUM.fr, Format.fr]
  split
  · decide +kernel
  · rename_i hguard
    simp only [Bool.or_eq_true, decide_eq_true_eq, not_or] at hguard
    obtain ⟨hnan, hone⟩ := hguard
    have hx : x ≠ .nan := by
      rintro rfl
      exact hnan (by simp [Format.sub, Format.add])
    have hzero := (NUM.zero_le_sub (NUM.floor_le hwf hx)).resolve_left hnan
    rw [NUM.inUnit, hzero, NUM.lt_of_not_le (by simp) hnan hone, Bool.true_and]

/-! ### Integers as operands -/

/-- An integer converted to NUM is its literal (R11). -/
theorem Format.ofInt_natCast (F : Format) (n : Nat) : F.ofInt (n : Int) = F.lit n := by
  rw [Format.ofInt, Format.lit, Format.ofRatio, Int.natAbs_natCast, decide_eq_false (by omega)]

/-! ### Ranges of the table fields -/

/-- A finite binary64 value of positive sign, as the literals are. -/
def NUM.isAmount : NUM → Bool
  | .fin false m => (NUM.fin false m).wf
  | _ => false

theorem NUM.exists_of_isAmount {x : NUM} (h : x.isAmount = true) : ∃ m, NUM.Mag m ∧ x = .fin false m := by
  rcases x with _ | _ | ⟨_ | _, m⟩
  case fin.false => exact ⟨m, h, rfl⟩
  all_goals cases h

/-- A value up to a magnitude that lies below a limit is below that limit. -/
theorem NUM.Within.between {lo n : Nat} {x hi : NUM} (hx : NUM.Within lo n x) (h : (NUM.fin false n).lt hi = true) :
    x.between (.fin false lo) hi = true := by
  obtain ⟨s, m, rfl, hlo, hhi⟩ := hx
  rcases hi with _ | _ | ⟨t, k⟩
  · simp [NUM.lt] at h
  · simp_all [NUM.between, NUM.le, NUM.lt, NUM.signed]
  · simp only [NUM.lt, show NUM.signed false n = (n : Int) from rfl, decide_eq_true_eq] at h
    simp only [NUM.between, NUM.le, NUM.lt, show NUM.signed false lo = (lo : Int) from rfl, Bool.and_eq_true, decide_eq_true_eq]
    omega

/-- A closed check of a table field: with the largest fraction below 1 as `u`, `span × u` is finite and below `hi`. -/
def NUM.spanFits (span hi : NUM) : Bool :=
  span.isAmount && (span.mul .belowOne).isAmount && (span.mul .belowOne).lt hi

/-- A closed check of a table field: with the largest fraction below 1 as `u`, `low + span × u` is finite and below `hi`. -/
def NUM.spreadFits (low span hi : NUM) : Bool :=
  low.isAmount && span.isAmount && (span.mul .belowOne).isAmount && (low.add (span.mul .belowOne)).isAmount &&
    (low.add (span.mul .belowOne)).lt hi

/-- `span × fr(x)` lies from 0 to below `hi` for every `x`, if it does at the largest fraction. -/
theorem NUM.mul_fr_between {span hi x : NUM} (hwf : x.wf = true) (h : NUM.spanFits span hi = true) :
    (span.mul x.fr).between .zero hi = true := by
  simp only [NUM.spanFits, Bool.and_eq_true] at h
  obtain ⟨⟨hspan, htop⟩, hlt⟩ := h
  obtain ⟨d, -, rfl⟩ := NUM.exists_of_isAmount hspan
  obtain ⟨m, -, hm⟩ := NUM.exists_of_isAmount htop
  rw [hm] at hlt
  exact (NUM.within_mul_of_top (NUM.within_of_inUnit (NUM.fr_wf x) (NUM.fr_inUnit hwf)) hm).between hlt

/-- `low + span × fr(x)` lies from `low` to below `hi` for every `x`, if it does at the largest fraction. -/
theorem NUM.spread_fr_between {low span hi x : NUM} (hwf : x.wf = true) (h : NUM.spreadFits low span hi = true) :
    (low.add (span.mul x.fr)).between low hi = true := by
  simp only [NUM.spreadFits, Bool.and_eq_true] at h
  obtain ⟨⟨⟨⟨hlow, hspan⟩, hprod⟩, hsum⟩, hlt⟩ := h
  obtain ⟨c, hc, rfl⟩ := NUM.exists_of_isAmount hlow
  obtain ⟨d, -, rfl⟩ := NUM.exists_of_isAmount hspan
  obtain ⟨m, -, hm⟩ := NUM.exists_of_isAmount hprod
  rw [hm] at hsum hlt
  obtain ⟨n, -, hn⟩ := NUM.exists_of_isAmount hsum
  rw [hn] at hlt
  have hfr := NUM.within_of_inUnit (NUM.fr_wf x) (NUM.fr_inUnit hwf)
  exact (NUM.within_add_of_top hc (NUM.within_mul_of_top hfr hm) hn).between hlt

end Sys2Proof

namespace Sys2Proof.Machine

/-! ### Seeds and selectors -/

theorem seed1_params (n : Fin 128) :
    seed1 params n = (params.trig.sin ((lit n.val).mul (dec 1234 10000))).mul (lit 1000) := by
  rw [seed1, params_num, Format.ofInt_natCast, seedMul1, seedScale]

theorem seed2_params (n : Fin 128) :
    seed2 params n = (params.trig.cos ((lit n.val).mul (dec 5678 10000))).mul (lit 1000) := by
  rw [seed2, params_num, Format.ofInt_natCast, seedMul2, seedScale]

theorem seed3_params (n : Fin 128) :
    seed3 params n = (params.trig.sin ((lit n.val).mul (dec 9876 10000))).mul (lit 1000) := by
  rw [seed3, params_num, Format.ofInt_natCast, seedMul3, seedScale]

theorem Wave.code_ofMod (k : Nat) : (Wave.ofMod k).code = k % 12 := by
  have hk : k % 12 < 12 := Nat.mod_lt k (by omega)
  rw [Wave.ofMod]
  interval_cases k % 12 <;> rfl

theorem Effect.code_ofMod (k : Nat) : (Effect.ofMod k).code = k % 8 := by
  have hk : k % 8 < 8 := Nat.mod_lt k (by omega)
  rw [Effect.ofMod]
  interval_cases k % 8 <;> rfl

theorem Filter.code_ofMod (k : Nat) : (Filter.ofMod k).code = k % 12 := by
  have hk : k % 12 < 12 := Nat.mod_lt k (by omega)
  rw [Filter.ofMod]
  interval_cases k % 12 <;> rfl

theorem Wave.ofMod_add_twelve (k : Nat) : Wave.ofMod (k + 12) = Wave.ofMod k := by
  rw [Wave.ofMod, Wave.ofMod, Nat.add_mod_right]

theorem Filter.ofMod_add_twelve (k : Nat) : Filter.ofMod (k + 12) = Filter.ofMod k := by
  rw [Filter.ofMod, Filter.ofMod, Nat.add_mod_right]

/-! ### The knob variants -/

theorem knobVariant_params (n : Fin 128) (k : Nat) :
    knobVariant params n k = defaultKvMap binary64 params.trig (lit (128 * n.val + k)) := by
  rw [knobVariant, params_num, Format.ofInt_natCast, params_kvMap]

end Sys2Proof.Machine

namespace Sys2Proof.Proofs

open Sys2Proof.Machine

/-- Settles O40: the seeds are products, so `fr` of each is a fraction below 1, and each field's formula is checked at the largest such fraction. -/
theorem profileTable : Obligations.ProfileTable := by
  unfold Obligations.ProfileTable
  intro n
  dsimp only
  rw [← seed1_params, ← seed2_params, ← seed3_params]
  have h1 : (seed1 params n).wf = true := NUM.mul_wf _ _
  have h2 : (seed2 params n).wf = true := NUM.mul_wf _ _
  have h3 : (seed3 params n).wf = true := NUM.mul_wf _ _
  refine ⟨Wave.code_ofMod _, Filter.code_ofMod _, Effect.code_ofMod _, ?periodic, ⟨rfl, ?wobbleRate⟩, ⟨rfl, ?glitchChance⟩,
    ⟨rfl, ?harmonicMix⟩, ⟨rfl, ?ringModFreq⟩, ⟨rfl, ?filterFreq⟩, ⟨rfl, ?bitDepth⟩, ⟨rfl, ?grainSize⟩⟩
  case periodic =>
    intro m hm
    simp only [profile, hm, Wave.ofMod_add_twelve, Filter.ofMod_add_twelve, and_self]
  case wobbleRate => exact NUM.spread_fr_between h1 (by decide +kernel)
  case glitchChance => exact NUM.fr_inUnit h2
  case harmonicMix => exact NUM.spread_fr_between h3 (by decide +kernel)
  case ringModFreq => exact NUM.spread_fr_between (NUM.mul_wf _ _) (by decide +kernel)
  case filterFreq => exact NUM.spread_fr_between (NUM.mul_wf _ _) (by decide +kernel)
  case bitDepth => exact NUM.spread_fr_between (NUM.mul_wf _ _) (by decide +kernel)
  case grainSize => exact NUM.spread_fr_between (NUM.mul_wf _ _) (by decide +kernel)

/-- Settles O41: the argument of each `fr` is a product, and each field's formula is checked at the largest fraction below 1. -/
theorem knobVariantTable : Obligations.KnobVariantTable := by
  unfold Obligations.KnobVariantTable
  intro n k _
  dsimp only
  rw [knobVariant_params]
  exact ⟨rfl, rfl, rfl, NUM.fr_inUnit (NUM.mul_wf _ _), NUM.spread_fr_between (NUM.mul_wf _ _) (by decide +kernel),
    NUM.mul_fr_between (NUM.mul_wf _ _) (by decide +kernel)⟩

end Sys2Proof.Proofs
end

section
/-!
PROOFS. The knob bucket (R156) and the pseudo-instructions (R128): a clamped knob times 127 lies from 0 to 127, and so does the integer nearest to it;
and `k / 127`, rounded to binary32, stays so near to `k / 127` that 127 times it rounds to `k`.
-/

namespace Sys2Proof

/-! ### Clamping -/

theorem NUM.clamp_of_low {x lo hi : NUM} (h : x = .nan ∨ x.lt lo = true) : x.clamp lo hi = lo := by
  rw [NUM.clamp, if_pos (by simpa using h)]

theorem NUM.clamp_of_one_lt {x : NUM} (h : NUM.one.lt x = true) : x.clamp .zero .one = .one := by
  have hnan : x ≠ .nan := by
    rintro rfl
    simp [NUM.lt] at h
  have hlow : x.lt .zero = false := by
    rcases x with _ | s | ⟨s, m⟩
    · exact absurd rfl hnan
    · simpa [NUM.lt, NUM.zero] using h
    · simp [NUM.lt, NUM.zero, NUM.signed] at h ⊢
      omega
  rw [NUM.clamp, if_neg (by simp [hnan, hlow]), if_pos h]

/-- A clamp to [0, 1] answers a value there, for a NaN and the infinities too (R16). -/
theorem NUM.clamp_within_unit (x : NUM) : NUM.Within 0 NUM.unit (x.clamp .zero .one) := by
  rw [NUM.within_iff_le, NUM.clamp]
  split
  · exact ⟨by decide +kernel, by decide +kernel⟩
  · rename_i hlow
    simp only [Bool.or_eq_true, decide_eq_true_eq, not_or] at hlow
    split
    · exact ⟨by decide +kernel, by decide +kernel⟩
    · rename_i hhigh
      rcases x with _ | s | ⟨s, m⟩
      · exact absurd rfl hlow.1
      · cases s <;> simp_all [NUM.lt, NUM.zero]
      · simp_all [NUM.lt, NUM.le, NUM.zero]

/-- A clamp to [0, 1] keeps a value's bounds where the lower one is not above 1. -/
theorem NUM.Within.clamp_unit {lo hi : Nat} {x : NUM} (hx : NUM.Within lo hi x) (hlo : lo ≤ NUM.unit) :
    NUM.Within lo hi (x.clamp .zero .one) := by
  obtain ⟨s, m, rfl, hm, hm', hs, hsigned⟩ := hx.mag
  have hlow : (NUM.fin s m).lt .zero = false := by
    simp only [NUM.lt, NUM.zero, hsigned, show NUM.signed false 0 = 0 from rfl, decide_eq_false_iff_not]
    omega
  rw [NUM.clamp, if_neg (by simp [hlow])]
  split
  · rename_i hhigh
    simp only [binary64_one, NUM.lt, hsigned, show NUM.signed false NUM.unit = (NUM.unit : Int) from rfl, decide_eq_true_eq] at hhigh
    rw [NUM.one, binary64_one]
    exact NUM.within_fin false (by simp) hlo (by omega)
  · exact hx

/-! ### Rounding to an integer -/

/-- Half up, for a value that is not negative (R15). -/
theorem NUM.rhaInt?_of_nonneg {s : Bool} {m : Nat} (hs : s = true → m = 0) :
    (NUM.fin s m).rhaInt? = some (((2 * m + NUM.unit) / (2 * NUM.unit) : Nat) : Int) := by
  have hpos := NUM.unit_pos
  have hdiv := Nat.div_add_mod' m NUM.unit
  have hmod := Nat.mod_lt m hpos
  have hround : (if NUM.unit ≤ 2 * (m % NUM.unit) then m / NUM.unit + 1 else m / NUM.unit) = (2 * m + NUM.unit) / (2 * NUM.unit) := by
    symm
    split
    · rw [Nat.div_eq_iff (by omega), Nat.succ_mul, Nat.mul_left_comm]
      omega
    · rw [Nat.div_eq_iff (by omega), Nat.mul_left_comm]
      omega
  simp only [NUM.rhaInt?, Format.rhaInt?, binary64_unit, hround]
  cases s with
  | false => rfl
  | true =>
    rw [hs rfl, Nat.div_eq_of_lt (by omega)]
    rfl

/-- The integer nearest to a value from 0 to `n` is a natural number up to `n` (R15). -/
theorem NUM.rhaInt?_of_within {n : Nat} {x : NUM} (h : NUM.Within 0 (n * NUM.unit) x) :
    ∃ k : Nat, k ≤ n ∧ x.rhaInt? = some (k : Int) := by
  obtain ⟨s, m, rfl, -, hm, hs, -⟩ := h.mag
  have hpos := NUM.unit_pos
  refine ⟨_, Nat.lt_add_one_iff.mp ((Nat.div_lt_iff_lt_mul (by omega)).mpr ?_), NUM.rhaInt?_of_nonneg hs⟩
  rw [Nat.mul_left_comm, Nat.add_one_mul n]
  omega

/-- An integer less than one half away is the one nearest. -/
theorem NUM.rhaInt?_of_near {k lo hi : Nat} {x : NUM} (hx : NUM.Within lo hi x) (hlo : 2 * (k * NUM.unit) < 2 * lo + NUM.unit)
    (hhi : 2 * hi < 2 * (k * NUM.unit) + NUM.unit) : x.rhaInt? = some (k : Int) := by
  obtain ⟨s, m, rfl, hm, hm', hs, -⟩ := hx.mag
  have hpos := NUM.unit_pos
  have hk : (2 * m + NUM.unit) / (2 * NUM.unit) = k := by
    rw [Nat.div_eq_iff (by omega), Nat.mul_left_comm]
    omega
  rw [NUM.rhaInt?_of_nonneg hs, hk]

/-! ### The sixteen-bit grid: a knob position lies between two neighbours of it, and each is a binary32 value -/

/-- `j × 2^−16`, in units. -/
def NUM.grid (j : Nat) : Nat := j * 2 ^ (NUM.scale - 16)

theorem NUM.grid_le_grid {a b : Nat} (h : a ≤ b) : NUM.grid a ≤ NUM.grid b := Nat.mul_le_mul_right _ h

theorem NUM.grid_mul_le {a b c d : Nat} (h : a * b ≤ c * d) : NUM.grid a * NUM.grid b ≤ NUM.grid c * NUM.grid d := by
  rw [NUM.grid, NUM.grid, NUM.grid, NUM.grid, Nat.mul_mul_mul_comm, Nat.mul_mul_mul_comm c]
  exact Nat.mul_le_mul_right _ h

theorem NUM.unit_eq_grid : NUM.unit = NUM.grid (2 ^ 16) := by
  rw [NUM.grid, NUM.unit_eq, ← Nat.pow_add, Nat.add_sub_cancel' (by rw [NUM.scale_eq]; omega)]

theorem NUM.mag_grid {j : Nat} (h : j < 2 ^ 53) : NUM.Mag (NUM.grid j) := by
  refine NUM.wf_fin.mpr ⟨NUM.roundTo_mul_pow h, ?_⟩
  calc NUM.grid j < 2 ^ 53 * 2 ^ (NUM.scale - 16) := Nat.mul_lt_mul_of_pos_right h (Nat.two_pow_pos _)
    _ = 2 ^ (53 + (NUM.scale - 16)) := (Nat.pow_add ..).symm
    _ ≤ NUM.top := by
      rw [NUM.top_eq]
      exact Nat.pow_le_pow_right (by omega) (by rw [NUM.scale_eq, NUM.topScale_eq]; omega)

/-- On the grid, bounds hold through binary32: rounding moves no value across a binary32 value. -/
theorem NUM.within_binary32 {a b : Nat} {x : NUM} (hx : NUM.Within (NUM.grid a) (NUM.grid b) x) (ha : a < 2 ^ 24) (hb : b < 2 ^ 24) :
    NUM.Within (NUM.grid a) (NUM.grid b) (NUM.ofBits32 (NUM.bits32 0 x)) := by
  obtain ⟨s, m, rfl, hm, hm', hs, -⟩ := hx.mag
  have hunits : ∀ j, NUM.grid j = j * 2 ^ 133 * 2 ^ (NUM.scale - 149) := fun j => by
    rw [NUM.grid, Nat.mul_assoc, ← Nat.pow_add, show 133 + (NUM.scale - 149) = NUM.scale - 16 by rw [NUM.scale_eq]]
  have hpos := Nat.two_pow_pos (NUM.scale - 149)
  have hfinite : m < 2 ^ (NUM.scale + 128) - 2 ^ (NUM.scale + 103) := by
    have hgrid : NUM.grid b < 2 ^ (24 + (NUM.scale - 16)) := by
      rw [NUM.grid, Nat.pow_add]
      exact Nat.mul_lt_mul_of_pos_right hb (Nat.two_pow_pos _)
    have hscale : 24 + (NUM.scale - 16) ≤ NUM.scale + 127 := by rw [NUM.scale_eq]; omega
    have htop := Nat.pow_le_pow_right (n := 2) (by omega) hscale
    have hhalf : 2 ^ (NUM.scale + 103) ≤ 2 ^ (NUM.scale + 127) := Nat.pow_le_pow_right (by omega) (by omega)
    have hdouble : 2 ^ (NUM.scale + 128) = 2 ^ (NUM.scale + 127) * 2 := Nat.pow_succ ..
    omega
  rw [NUM.ofBits32_bits32_fin 0 s hfinite]
  rw [hunits] at hm hm' ⊢
  rw [hunits]
  have hlow := NUM.le_roundTo (by omega) hpos (NUM.roundTo_mul_pow ha) hm
  have hhigh := NUM.roundTo_le hpos (NUM.roundTo_mul_pow hb) hm'
  refine NUM.within_fin s (fun h => ?_) (Nat.mul_le_mul_right _ hlow) (Nat.mul_le_mul_right _ hhigh)
  rw [hs h, NUM.roundTo_zero, Nat.zero_mul]

end Sys2Proof

namespace Sys2Proof.Machine

/-! ### The bucket of a pattern -/

theorem Params.rhaInt_of_some {x : NUM} {z : Int} (h : x.rhaInt? = some z) : params.rhaInt x = z :=
  congrArg (params.orFree x) h

/-- The bucket is found from the clamped knob alone. -/
theorem knobBucket_of_clamp {w : Word} {v : NUM} (h : (NUM.ofBits32 w).clamp .zero .one = v) :
    knobBucket params w = (params.rhaInt (v.mul (lit 127))).toNat := by
  rw [← h, knobBucket, params_num]

theorem knobBucket_le (w : Word) : knobBucket params w ≤ 127 := by
  have hlit : NUM.Within (127 * NUM.unit) (127 * NUM.unit) (lit 127) := NUM.within_iff_le.mpr ⟨by decide +kernel, by decide +kernel⟩
  have hmag : NUM.Mag (127 * NUM.unit) := by decide +kernel
  have hscaled : NUM.Within 0 (127 * NUM.unit) (((NUM.ofBits32 w).clamp .zero .one).mul (lit 127)) :=
    NUM.within_mul (NUM.clamp_within_unit _) hlit NUM.mag_zero hmag (by omega) (by rw [Nat.mul_comm])
  obtain ⟨k, hk, hrha⟩ := NUM.rhaInt?_of_within hscaled
  rw [knobBucket_of_clamp rfl, Params.rhaInt_of_some hrha, Int.toNat_natCast]
  exact hk

theorem knobBucket_of_low {w : Word} (h : NUM.ofBits32 w = .nan ∨ (NUM.ofBits32 w).lt .zero = true) : knobBucket params w = 0 := by
  rw [knobBucket_of_clamp (NUM.clamp_of_low h)]
  decide +kernel

theorem knobBucket_of_one_lt {w : Word} (h : NUM.one.lt (NUM.ofBits32 w) = true) : knobBucket params w = 127 := by
  rw [knobBucket_of_clamp (NUM.clamp_of_one_lt h)]
  decide +kernel

theorem lit_eq_grid {n : Nat} (h : n < 2 ^ 37) : lit n = .fin false (NUM.grid (n * 2 ^ 16)) := by
  rw [lit, Format.lit, Format.ofRatio, binary64_unit, binary64_round]
  refine NUM.finish_exact false Nat.one_pos (NUM.mag_grid (by omega)) ?_
  rw [NUM.unit_eq_grid, NUM.grid, NUM.grid]
  ring

theorem lit_within_grid {n : Nat} (h : n < 2 ^ 37) : NUM.Within (NUM.grid (n * 2 ^ 16)) (NUM.grid (n * 2 ^ 16)) (lit n) := by
  rw [lit_eq_grid h]
  exact NUM.within_fin false (by simp) le_rfl le_rfl

/-- SET_KNOB_POS `k` hands over a word whose bucket is `k` (R128): `k / 127` stays between two neighbours of the grid on its way through binary32,
and 127 times either is less than one half away from `k`. -/
theorem knobBucket_floatWord {k : Nat} (hk : k < 128) : knobBucket params (floatWord ((lit k).div (lit 127))) = k := by
  obtain ⟨j, hlo, hhi⟩ : ∃ j, 127 * j ≤ k * 2 ^ 16 ∧ k * 2 ^ 16 < 127 * (j + 1) := ⟨k * 2 ^ 16 / 127, by omega, by omega⟩
  have hunit := NUM.unit_eq_grid
  have hquotient : NUM.Within (NUM.grid j) (NUM.grid (j + 1)) ((lit k).div (lit 127)) := by
    refine NUM.within_div (lit_within_grid (by omega)) (lit_within_grid (by omega)) ?_ (NUM.mag_grid (by omega))
      (NUM.mag_grid (by omega)) ?_ ?_
    · exact Nat.mul_pos (by omega) (Nat.two_pow_pos _)
    · rw [hunit]
      exact NUM.grid_mul_le (by omega)
    · rw [hunit]
      exact NUM.grid_mul_le (by omega)
  have hknob := (NUM.within_binary32 hquotient (by omega) (by omega)).clamp_unit (hunit ▸ NUM.grid_le_grid (by omega))
  have hscaled := NUM.within_mul (lo := NUM.grid (127 * j)) (hi := NUM.grid (127 * (j + 1))) hknob (lit_within_grid (n := 127) (by omega))
    (NUM.mag_grid (by omega)) (NUM.mag_grid (by omega)) (hunit ▸ NUM.grid_mul_le (by omega)) (hunit ▸ NUM.grid_mul_le (by omega))
  have hstep := Nat.two_pow_pos (NUM.scale - 16)
  have hrha := NUM.rhaInt?_of_near (k := k) hscaled
    (by
      rw [hunit, NUM.grid, NUM.grid]
      linarith [Nat.mul_lt_mul_of_pos_right (show 2 * (k * 2 ^ 16) < 2 * (127 * j) + 2 ^ 16 by omega) hstep])
    (by
      rw [hunit, NUM.grid, NUM.grid]
      linarith [Nat.mul_lt_mul_of_pos_right (show 2 * (127 * (j + 1)) < 2 * (k * 2 ^ 16) + 2 ^ 16 by omega) hstep])
  rw [knobBucket_of_clamp rfl, floatWord, Params.rhaInt_of_some hrha, Int.toNat_natCast]

end Sys2Proof.Machine

namespace Sys2Proof.Proofs

open Sys2Proof.Machine

/-- Settles O42: the clamp decides the corner cases, and what it answers times 127 rounds to an integer up to 127. -/
theorem knobBuckets : Obligations.KnobBuckets := by
  unfold Obligations.KnobBuckets
  refine ⟨fun w => ⟨knobBucket_of_clamp rfl, knobBucket_le w, fun h => knobBucket_of_low (.inl h), fun h => knobBucket_of_low (.inr h),
    knobBucket_of_one_lt⟩, ?minusZero, ?infinity, ?half, ?belowHalfStep, rfl, rfl, fun _ _ => rfl, fun _ hk => ⟨rfl, knobBucket_floatWord hk⟩⟩
  case minusZero => decide +kernel
  case infinity => exact knobBucket_of_one_lt (by decide +kernel)
  case half => decide +kernel
  case belowHalfStep => decide +kernel

end Sys2Proof.Proofs
end

section
/-!
PROOFS. A draw of the generator (R188): the 24 bits of a draw are few enough for binary64, so that the division by `2^24` is exact.
-/

namespace Sys2Proof

/-- A number of up to 53 bits, shifted by no more than the format's exponents reach, is a binary64 magnitude. -/
theorem NUM.mag_mul_two_pow {f k : Nat} (hf : f < 2 ^ 53) (hk : 53 + k ≤ NUM.topScale) : NUM.Mag (f * 2 ^ k) := by
  refine NUM.wf_fin.mpr ⟨NUM.roundTo_mul_pow hf, ?_⟩
  calc f * 2 ^ k < 2 ^ 53 * 2 ^ k := Nat.mul_lt_mul_of_pos_right hf (Nat.two_pow_pos k)
    _ = 2 ^ (53 + k) := (Nat.pow_add ..).symm
    _ ≤ NUM.top := by
      rw [NUM.top_eq]
      exact Nat.pow_le_pow_right (by omega) hk

theorem NUM.unit_eq_mul_two_pow {n : Nat} (hn : n ≤ NUM.scale) : NUM.unit = 2 ^ n * 2 ^ (NUM.scale - n) := by
  rw [NUM.unit_eq, ← Nat.pow_add, Nat.add_sub_cancel' hn]

/-- A fraction over `2^24` below 1 is a binary64 value, so that no rounding changes it. -/
theorem NUM.ofRatio_two_pow_24 {k : Nat} (hk : k < 2 ^ 24) :
    NUM.ofRatio k (2 ^ 24) = .fin false (k * 2 ^ (NUM.scale - 24)) := by
  have hscale := NUM.scale_eq
  have htop := NUM.topScale_eq
  rw [NUM.ofRatio, Format.ofRatio, binary64_unit, binary64_round]
  refine NUM.finish_exact false (Nat.two_pow_pos 24) (NUM.mag_mul_two_pow (by omega) (by omega)) ?_
  rw [NUM.unit_eq_mul_two_pow (n := 24) (by omega), Nat.mul_comm (2 ^ 24), Nat.mul_assoc]

end Sys2Proof

namespace Sys2Proof.Machine

theorem prngNext_params (r : BitVec 32) : prngNext params r = 1013904223 + 1664525 * r := by
  rw [prngNext_eq, params_prng, lcg_next]

theorem drawValue_params (r : BitVec 32) : drawValue params r = NUM.ofRatio (r >>> 8).toNat (2 ^ 24) := by
  rw [drawValue_eq, params_prng, lcg_draw]

theorem prngNext_params_toNat (r : BitVec 32) : (prngNext params r).toNat = (1664525 * r.toNat + 1013904223) % 2 ^ 32 := by
  simp only [prngNext_params, BitVec.toNat_add, BitVec.toNat_mul, BitVec.reduceToNat]
  omega

/-- The upper 24 bits of the state, in units of `2^−24`. -/
theorem drawValue_params_fin (r : BitVec 32) :
    drawValue params r = .fin false (r.toNat / 2 ^ 8 * 2 ^ (NUM.scale - 24)) := by
  have hr := r.isLt
  rw [drawValue_params, BitVec.toNat_ushiftRight, Nat.shiftRight_eq_div_pow, NUM.ofRatio_two_pow_24 (by omega)]

/-- A draw lies from 0 to `1 − 2^−24` (R188). -/
theorem drawValue_params_within (r : BitVec 32) :
    NUM.Within 0 ((2 ^ 24 - 1) * 2 ^ (NUM.scale - 24)) (drawValue params r) := by
  have hr := r.isLt
  rw [drawValue_params_fin]
  exact NUM.within_fin false (by simp) (Nat.zero_le _) (Nat.mul_le_mul_right _ (by omega))

end Sys2Proof.Machine

namespace Sys2Proof.Proofs

open Sys2Proof.Machine

/-- Settles O22: the step is arithmetic modulo `2^32`, and a draw counts its 24 bits exactly, so that its range is that of the bits. -/
theorem generatorDraw : Obligations.GeneratorDraw := by
  unfold Obligations.GeneratorDraw
  refine ⟨fun r => ⟨prngNext_params_toNat r, drawValue_params_fin r, ?below, (NUM.within_iff_le.mp (drawValue_params_within r)).2⟩,
    ?seed, ?first, ?second, ?third⟩
  case below => exact NUM.inUnit_iff.mpr ((drawValue_params_within r).mono le_rfl (by decide +kernel))
  case seed => decide +kernel
  all_goals
    rw [prngNext_params]
    decide +kernel

end Sys2Proof.Proofs
end

section
/-!
PROOFS. The oscillator bank (R182 to R194). The meaning of a wave's instruction is its wave stage; each clause is that stage's formula at the
defaults, an example is the formula at a phase, and the ranges are those of the ramp `2 × p − 1`, bounded on both sides of 0.
-/

namespace Sys2Proof

/-! ### Sums of either sign -/

/-- Binary64 bounds of an exact sum, one on each side of 0, are bounds of the rounded one. -/
theorem NUM.add_fin_bounds {s t : Bool} {m n lo hi : Nat} (hlo : NUM.Mag lo) (hhi : NUM.Mag hi)
    (h1 : -(lo : Int) ≤ NUM.signed s m + NUM.signed t n) (h2 : NUM.signed s m + NUM.signed t n ≤ hi) :
    (NUM.fin true lo).le ((NUM.fin s m).add (.fin t n)) = true ∧ ((NUM.fin s m).add (.fin t n)).le (.fin false hi) = true := by
  simp only [NUM.add, Format.add, binary64_round]
  generalize NUM.signed s m + NUM.signed t n = z at *
  split
  · simp [NUM.le, NUM.signed]
  · rcases Int.lt_or_le z 0 with hz | hz
    · obtain ⟨k, hk, hle⟩ := NUM.finish_le (p := z.natAbs) true Nat.one_pos hlo (by omega)
      rw [decide_eq_true hz, hk]
      simp only [NUM.le, NUM.signed, Bool.false_eq_true, if_false, if_true, decide_eq_true_eq]
      omega
    · obtain ⟨k, hk, hle⟩ := NUM.finish_le (p := z.natAbs) false Nat.one_pos hhi (by omega)
      rw [decide_eq_false (by omega), hk]
      simp only [NUM.le, NUM.signed, Bool.false_eq_true, if_false, if_true, decide_eq_true_eq]
      omega

theorem NUM.lt_fin_of_le_fin {x : NUM} {a b : Nat} (hx : x.le (.fin false a) = true) (hab : a < b) : x.lt (.fin false b) = true := by
  cases x with
  | nan => simp [NUM.le] at hx
  | inf s => simpa [NUM.le, NUM.lt] using hx
  | fin s m =>
    simp only [NUM.le, NUM.lt, show ∀ n, NUM.signed false n = (n : Int) from fun _ => rfl, decide_eq_true_eq] at hx ⊢
    omega

end Sys2Proof

namespace Sys2Proof.Machine

/-! ### The ramp -/

theorem lit_two_within : NUM.Within (2 * NUM.unit) (2 * NUM.unit) (lit 2) :=
  NUM.within_iff_le.mpr ⟨by decide +kernel, by decide +kernel⟩

/-- The ramp of a value from 0 to `h` lies from −1 to `2h − 1`. -/
theorem ramp_bounds {h hi : Nat} {x : NUM} (hx : NUM.Within 0 h x) (hdouble : NUM.Mag (2 * h)) (hhi : NUM.Mag hi)
    (hle : 2 * h ≤ NUM.unit + hi) :
    NUM.one.neg.le (ramp binary64 x) = true ∧ (ramp binary64 x).le (.fin false hi) = true := by
  have htwice : NUM.Within 0 (2 * h) (binary64.mul (binary64.lit 2) x) :=
    NUM.within_mul lit_two_within hx NUM.mag_zero hdouble (by omega) (by rw [Nat.mul_right_comm])
  obtain ⟨s, m, he, -, hm, -, hsigned⟩ := htwice.mag
  rw [ramp, he, Format.sub, NUM.one, binary64_one]
  have hone : NUM.signed (!false) NUM.unit = -(NUM.unit : Int) := rfl
  exact NUM.add_fin_bounds NUM.mag_unit hhi (by rw [hsigned, hone]; omega) (by rw [hsigned, hone]; omega)

/-! ### The meaning of a wave's instruction -/

/-- The triangle of a phase (R185). -/
def triangle (F : Format) (p : NUM) : NUM := ramp F (ramp F p).abs

/-- A wave's instruction runs the stage its selector names (R180). -/
theorem exec_waveInstr (w : Wave) (s : State) : exec w.instr s = .next (waveStage params w s) := by
  cases w <;> rfl

/-- A wave that reads `PH` alone: its value at a phase is what it hands on from every state at that phase. -/
theorem exec_of_ph {i : Instr} {f : NUM → NUM} (hi : ∀ s, exec i s = .next (s.setX0 (f s.voice.ph))) {p x : NUM} (hx : f p = x) :
    ∀ s : State, s.voice.ph = p → exec i s = .next (s.setX0 x) := by
  rintro s rfl
  rw [hi, hx]

theorem exec_wSquare (s : State) : exec .wSquare s = .next (s.setX0 (pulse binary64 (dec 1 2) s.voice.ph)) :=
  exec_waveInstr .square s

theorem exec_wPulse25 (s : State) : exec .wPulse25 s = .next (s.setX0 (pulse binary64 (dec 1 4) s.voice.ph)) :=
  exec_waveInstr .pulse25 s

theorem exec_wPulse75 (s : State) : exec .wPulse75 s = .next (s.setX0 (pulse binary64 (dec 3 4) s.voice.ph)) :=
  exec_waveInstr .pulse75 s

theorem exec_wSaw (s : State) : exec .wSaw s = .next (s.setX0 (ramp binary64 s.voice.ph)) :=
  exec_waveInstr .saw s

theorem exec_wTriangle (s : State) : exec .wTriangle s = .next (s.setX0 (triangle binary64 s.voice.ph)) :=
  exec_waveInstr .triangle s

theorem exec_wSupersaw (s : State) : exec .wSupersaw s = .next (s.setX0
    ((s.voice.phSs.nums.foldl (sawSum binary64) .zero).div (lit 7))) :=
  exec_waveInstr .supersaw s

end Sys2Proof.Machine

namespace Sys2Proof.Proofs

open Sys2Proof.Machine

/-- Settles O19: the formulas are the stages' own; twice the largest value below 1 is exact, so that the sawtooth stays as far below 1. -/
theorem rampWaves : Obligations.RampWaves := by
  unfold Obligations.RampWaves
  refine ⟨fun s => ⟨exec_wSaw s, exec_wTriangle s, exec_wSupersaw s, ?supersawAtZero⟩, ?sawBelowOne, ?examples⟩
  case supersawAtZero =>
    intro hzero
    rw [exec_wSupersaw, hzero]
    exact congrArg (fun x => Host.Outcome.next (s.setX0 x)) (by decide +kernel)
  case sawBelowOne =>
    intro x hwf hx
    have hle := (ramp_bounds (hi := NUM.unit - 2 ^ (NUM.scale - 52)) (NUM.within_of_inUnit hwf hx) (by decide +kernel)
      (by decide +kernel) (by decide +kernel)).2
    rw [NUM.one, binary64_one]
    exact NUM.lt_fin_of_le_fin hle (by decide +kernel)
  case examples =>
    simp only [List.forall_mem_cons, List.not_mem_nil, false_imp_iff, implies_true, and_true]
    exact ⟨exec_of_ph exec_wSaw (by decide +kernel), exec_of_ph exec_wSaw (by decide +kernel),
      exec_of_ph exec_wTriangle (by decide +kernel), exec_of_ph exec_wTriangle (by decide +kernel),
      exec_of_ph exec_wTriangle (by decide +kernel), exec_of_ph exec_wTriangle (by decide +kernel)⟩

/-- Settles O17: the meaning of each instruction is its stage, whose formula is the rule's at the default parameters. -/
theorem sineWaves : Obligations.SineWaves := by
  unfold Obligations.SineWaves
  exact fun s => ⟨exec_waveInstr .sine s, exec_waveInstr .fm s, exec_waveInstr .sub s⟩

/-- Settles O18: each wave is the pulse of its duty, and the pulse is −1.0 at the duty itself. -/
theorem pulseWaves : Obligations.PulseWaves := by
  unfold Obligations.PulseWaves
  refine ⟨fun s => ⟨exec_wSquare s, exec_wPulse25 s, exec_wPulse75 s⟩, ?examples⟩
  simp only [List.forall_mem_cons, List.not_mem_nil, false_imp_iff, implies_true, and_true]
  exact ⟨exec_of_ph exec_wSquare (by decide +kernel), exec_of_ph exec_wSquare (by decide +kernel),
    exec_of_ph exec_wPulse25 (by decide +kernel), exec_of_ph exec_wPulse25 (by decide +kernel),
    exec_of_ph exec_wPulse75 (by decide +kernel), exec_of_ph exec_wPulse75 (by decide +kernel)⟩

/-- Settles O20: the range of white noise is that of the ramp over the range of a draw; the two updates are the stages'. -/
theorem noiseWaves : Obligations.NoiseWaves := by
  unfold Obligations.NoiseWaves
  refine ⟨fun r => ?range, fun s => ⟨?white, ?pink⟩⟩
  case range =>
    rw [show NUM.one.sub (dec 1 (2 ^ 23)) = .fin false (NUM.unit - 2 ^ (NUM.scale - 23)) by decide +kernel]
    exact ramp_bounds (hi := NUM.unit - 2 ^ (NUM.scale - 23)) (drawValue_params_within r) (by decide +kernel) (by decide +kernel) (by decide +kernel)
  case white =>
    rw [← drawValue_params, ← prngNext_params]
    exact (exec_waveInstr .white s).trans (congrArg _ (waveWhite_eq params s))
  case pink =>
    rw [← drawValue_params, ← prngNext_params]
    exact (exec_waveInstr .pink s).trans (congrArg _ (wavePink_eq params s))

/-- Settles O21: a running timer and one at 0 are the two branches of the stage. -/
theorem crackleWave : Obligations.CrackleWave := by
  unfold Obligations.CrackleWave
  refine fun s => ⟨fun hrunning => ?running, fun hzero => ?impulse⟩
  case running => exact (exec_waveInstr .crackle s).trans (congrArg _ (waveCrackle_running params s hrunning))
  case impulse =>
    dsimp only
    rw [← prngNext_params, ← prngNext_params, ← drawValue_params, ← drawValue_params]
    exact (exec_waveInstr .crackle s).trans (congrArg _ (waveCrackle_impulse params s hzero))

end Sys2Proof.Proofs
end

section
/-!
PROOFS. The weird modulator bank (R222 to R229). The meaning of an effect's instruction is its effect at the defaults; where an effect branches, a
lemma of its own says what each branch writes.
-/

namespace Sys2Proof.Machine

/-! ### The operations the effects share, at the defaults -/

theorem sinePhase_params (p : NUM) : sinePhase params p = params.trig.sin (NUM.twoPi.mul p) := rfl

theorem advance_binary64 (phase rate fs : NUM) : advance binary64 phase rate fs = (phase.add (rate.div fs)).wrap := rfl

theorem blend_binary64 (a carrier : NUM) : blend binary64 a carrier = (NUM.one.sub a).add (a.mul carrier) := rfl

/-- The sample of an evaluated glitch (R223): the second threshold is half the first. -/
theorem glitchSample_params (x r T : NUM) : glitchSample params x r T =
    if r.lt T then x.mul (if r.lt ((dec 1 2).mul T) then (lit 2).neg else lit 4) else x := rfl

/-- An effect without registers changes the wire it hands on, and nothing else (R220). -/
theorem State.setX1_eq (x : NUM) (s : State) : s.setX1 x = { s with wires := { s.wires with x1 := x } } := rfl

/-- An effect with registers changes them and the wire it hands on, and nothing else (R220). -/
theorem State.setX1_setVoice (v : Voice) (x : NUM) (s : State) :
    (s.setVoice v).setX1 x = { s with voice := v, wires := { s.wires with x1 := x } } := rfl

/-! ### The branches of the Glitcher and of the Granular -/

theorem effectGlitcher_counting (P : Params) (s : State) (h : s.voice.glitchCnt + 1 < s.gp) :
    effectGlitcher P s = (s.setVoice { s.voice with glitchCnt := s.voice.glitchCnt + 1 }).setX1 s.wires.x0 :=
  if_neg (Nat.not_le.mpr h)

theorem effectGlitcher_evaluating (P : Params) (s : State) (h : s.gp ≤ s.voice.glitchCnt + 1) :
    effectGlitcher P s = (s.setVoice { s.voice with glitchCnt := 0 }).setX1 (glitchSample P s.wires.x0
      (P.num.fr (P.trig.sin (P.num.mul s.voice.ph (glitchHash P.num)))) (P.num.mul (s.profile P).glitchChance (s.variant P).amount)) :=
  if_pos h

/-- The sample of the Granular: the gain is blended toward half a sine over the grain (R228). -/
def grainSample (P : Params) (s : State) : NUM :=
  P.num.mul s.wires.x0 (blend P.num (s.variant P).amount (P.trig.sin (P.num.mul P.num.pi s.voice.grainPh)))

/-- The grain phase one tick on, before its wrap (R228). -/
def grainAdvanced (P : Params) (s : State) : NUM :=
  P.num.add s.voice.grainPh (P.num.div P.num.one (P.num.mul (s.profile P).grainSize s.fs))

/-- The two branches as one update: only a wrap keeps the fraction and sets `GRAIN_RESET` (R228). -/
theorem effectGranular_eq (P : Params) (s : State) : effectGranular P s = { s with
    voice := { s.voice with
      grainPh := if P.num.one.le (grainAdvanced P s) then P.num.sub (grainAdvanced P s) (P.num.floor (grainAdvanced P s))
        else grainAdvanced P s }
    wires := { s.wires with
      x1 := grainSample P s
      grainReset := if P.num.one.le (grainAdvanced P s) then true else s.wires.grainReset } } := by
  cases h : P.num.one.le (grainAdvanced P s) with
  | false => exact if_neg (Bool.eq_false_iff.mp h)
  | true => exact if_pos h

end Sys2Proof.Machine

namespace Sys2Proof.Proofs

open Sys2Proof.Machine

/-- Settles O23: the LFO is the sine of `WOB_PH`, which is advanced in the same update. -/
theorem wobbler : Obligations.Wobbler := by
  unfold Obligations.Wobbler
  intro s
  simp only [exec_eq_execWith, execWith, effectWobbler, State.setX1_setVoice, sinePhase_params, advance_binary64, params_num, wobbleDepth]

/-- Settles O24: below the period the effect counts, and from it on it evaluates the hash. -/
theorem glitcher : Obligations.Glitcher := by
  unfold Obligations.Glitcher
  intro s
  simp only [exec_eq_execWith, execWith]
  refine ⟨fun hcounting => ?counting, fun hperiod => ?period⟩
  case counting => rw [effectGlitcher_counting params s hcounting, State.setX1_setVoice]
  case period =>
    rw [effectGlitcher_evaluating params s hperiod, State.setX1_setVoice, glitchSample_params, params_num, glitchHash]

/-- Settles O25: the oscillator is the sine of `HARM_PH`, which is advanced in the same update. -/
theorem harmonizer : Obligations.Harmonizer := by
  unfold Obligations.Harmonizer
  intro s
  simp only [exec_eq_execWith, execWith, effectHarmonizer, State.setX1_setVoice, sinePhase_params, advance_binary64, params_num]

/-- Settles O26: both gains are the blend toward a carrier, and the RingMod alone has a register. -/
theorem reverserAndRingmod : Obligations.ReverserAndRingmod := by
  unfold Obligations.ReverserAndRingmod
  intro s
  simp only [exec_eq_execWith, execWith, ← blend_binary64]
  refine ⟨?reverser, ?ringmod⟩
  case reverser => rw [effectReverser, State.setX1_eq, sinePhase_params, params_num, reverserMult]
  case ringmod => rw [effectRingmod, State.setX1_setVoice, sinePhase_params, params_num, advance_binary64]

/-- Settles O27: the effect has no register, and its bit count is taken as it is. -/
theorem bitcrusher : Obligations.Bitcrusher := by
  unfold Obligations.Bitcrusher
  intro s
  simp only [exec_eq_execWith, execWith, effectBitcrusher, State.setX1_eq, params_num, crushBits0, crushSlope]

/-- Settles O28: the two branches of the effect are one update, in which only the wrap decides. -/
theorem granular : Obligations.Granular := by
  unfold Obligations.Granular
  intro s
  rw [exec_eq_execWith]
  exact congrArg Host.Outcome.next (effectGranular_eq params s)

/-- Settles O29: the highpass reads the lowpass just updated, and `WOB_PH` is advanced in the same update. -/
theorem filterSweep : Obligations.FilterSweep := by
  unfold Obligations.FilterSweep
  intro s
  simp only [exec_eq_execWith, execWith, effectFiltersweep, State.setX1_setVoice, sinePhase_params, advance_binary64, params_num,
    params_sweepDepth, params_fGuard, sweepResGain]

end Sys2Proof.Proofs
end

section
/-!
PROOFS. The chaos filter bank (R250 to R265). The meaning of a filter's instruction is its filter at the defaults; the stages and coefficients that
the filters share are said once, as the rules write them.
-/

namespace Sys2Proof.Machine

/-! ### The coefficients and stages the filters share, at the defaults -/

theorem filterCoeff_params (fs c : NUM) :
    filterCoeff params fs c = ((c.div (fs.div (lit 2))).clamp .zero (dec 116 100)).min (dec 99 100) := rfl

theorem filterRes_binary64 (r : NUM) : filterRes binary64 r = r.clamp .zero (dec 95 100) := rfl

theorem bandCoeff_params (fs f : NUM) : bandCoeff params fs f = (f.div (fs.div (lit 2))).min (dec 99 100) := rfl

theorem feedback_binary64 (rc f : NUM) : feedback binary64 rc f = rc.add (rc.div (NUM.one.sub f)) := rfl

theorem stageIn_binary64 (f fb x a b : NUM) :
    stageIn binary64 f fb x a b = a.add (f.mul ((x.sub a).add (fb.mul (a.sub b)))) := rfl

theorem stage_binary64 (f a b : NUM) : stage binary64 f a b = b.add (f.mul (a.sub b)) := rfl

theorem allpassOut_binary64 (al u z : NUM) : allpassOut binary64 al u z = (al.mul u).add z := rfl

theorem allpassState_binary64 (al u v : NUM) : allpassState binary64 al u v = u.sub (al.mul v) := rfl

theorem combDelay_params (fs c : NUM) (len : Nat) : combDelay params fs c len =
    if params.rhaInt (fs.div c) < 1 then 1 else if (len : Int) < params.rhaInt (fs.div c) then (len : Int) else params.rhaInt (fs.div c) := rfl

/-- A filter changes its registers and the wire it hands on, and nothing else (R250). -/
theorem State.setX2_setVoice (v : Voice) (x : NUM) (s : State) :
    (s.setVoice v).setX2 x = { s with voice := v, wires := { s.wires with x2 := x } } := rfl

/-! ### The vowels are one filter at five frequency pairs -/

/-- Each vowel's instruction is the vowel primitive at its own pair (R259 to R263). -/
theorem exec_vowel :
    ∀ c ∈ [(Instr.fVowelA, 730, 1090), (.fVowelE, 530, 1840), (.fVowelI, 270, 2290), (.fVowelO, 570, 840), (.fVowelU, 300, 870)],
    ∀ s : State, exec c.1 s = .next (vowel params ⟨lit c.2.1, lit c.2.2⟩ s) := by
  simp only [List.forall_mem_cons, List.not_mem_nil, false_imp_iff, implies_true, and_true, exec_eq_execWith, execWith,
    filterVowelA, filterVowelE, filterVowelI, filterVowelO, filterVowelU,
    params_vowelA, params_vowelE, params_vowelI, params_vowelO, params_vowelU]

end Sys2Proof.Machine

namespace Sys2Proof.Proofs

open Sys2Proof.Machine

/-- Settles O30: the four filters write the same four stages, each stage from the new value before it; only the tap is their own. -/
theorem ladderFilters : Obligations.LadderFilters := by
  unfold Obligations.LadderFilters
  intro s
  simp only [exec_eq_execWith, execWith, filterLadderLp, filterLadderHp, filterLadderBp, filterNotch, State.setX2_setVoice, ladderNext, ladderCore,
    params_num, filterCoeff_params, filterRes_binary64, feedback_binary64, stageIn_binary64, stage_binary64, and_self]

/-- Settles O31: the entry is read before it is written, and a write changes what its own index reads alone. -/
theorem combFilter : Obligations.CombFilter := by
  unfold Obligations.CombFilter
  intro s
  refine ⟨?next, (Memory.read_write_same ..).1, fun j hj => (Memory.read_write_other hj ..).1⟩
  case next =>
    simp only [exec_eq_execWith, execWith, filterComb, State.setX2_setVoice, combReadIndex, combDelay_params, params_num, filterRes_binary64]

/-- Settles O32: the five instructions are one filter, whose two bands run the same stages on `x1`, each at its own frequency and on its own registers. -/
theorem vowelFilters : Obligations.VowelFilters := by
  unfold Obligations.VowelFilters
  intro c hc s
  simp only [exec_vowel c hc s, vowel, State.setX2_setVoice, vowelNext, params_num, bandCoeff_params, filterRes_binary64, feedback_binary64,
    stageIn_binary64, stage_binary64, params_vowelW0, params_vowelW1]

/-- Settles O33: each all-pass stage takes the output of the one before it, and `FLFO_PH` is advanced in the same update. -/
theorem phaserFilter : Obligations.PhaserFilter := by
  unfold Obligations.PhaserFilter
  intro s
  simp only [exec_eq_execWith, execWith, filterPhaser, State.setX2_setVoice, phaserCoeff, params_num, allpassOut_binary64, allpassState_binary64,
    sinePhase_params, advance_binary64, params_phaserDepth, phaserCap, phaserLfoHz, half]

/-- Settles O34: X phases are advanced in the same update. -/
theorem ringFilter : Obligations.RingFilter := by
  unfold Obligations.RingFilter
  intro s
  simp only [exec_eq_execWith, execWith, filterRingmod, State.setX2_setVoice, params_num, filterCoeff_params, stage_binary64, sinePhase_params,
    advance_binary64, params_rmfDepth, params_rmfSweepHz]

end Sys2Proof.Proofs
end

section
/-!
PROOFS. The voice engine (R290 to R297, R302). A sounding tick is written out once, as the state after the banks with the scaled sample appended. Of the
note, which is `VSTATE` with `ACTIVE`, it is said once which instruction writes it: only five do, and a tick does so only where a release ends.
-/

namespace Sys2Proof.Machine

/-! ### The envelope step -/

theorem envelopeStep_of_sounding {P : Params} {fs : NUM} {v : Voice} (h : v.vstate = .sounding) :
    envelopeStep P fs v = { v with env := P.num.one.min (P.num.add v.env (attackStep P.num fs)) } := by
  simp only [envelopeStep, h]

theorem envelopeStep_of_silent {P : Params} {fs : NUM} {v : Voice} (h : v.vstate = .silent) :
    envelopeStep P fs v = { v with env := NUM.zero.max (P.num.sub v.env (releaseStep P fs)) } := by
  simp only [envelopeStep, h]

theorem envelopeStep_of_releasing {P : Params} {fs : NUM} {v : Voice} (h : v.vstate = .releasing)
    (hpos : (NUM.zero.max (P.num.sub v.env (releaseStep P fs))).isZero = false) :
    envelopeStep P fs v = { v with env := NUM.zero.max (P.num.sub v.env (releaseStep P fs)) } := by
  simp only [envelopeStep, h, hpos, Bool.false_eq_true, if_false]

theorem envelopeStep_of_release_end {P : Params} {fs : NUM} {v : Voice} (h : v.vstate = .releasing)
    (hzero : (NUM.zero.max (P.num.sub v.env (releaseStep P fs))).isZero = true) :
    envelopeStep P fs v =
      { v with env := NUM.zero.max (P.num.sub v.env (releaseStep P fs)), vstate := .silent, active := none } := by
  simp only [envelopeStep, h, hzero, if_true]

theorem attackStep_binary64 (fs : NUM) : attackStep binary64 fs = NUM.one.div ((dec 1 100).mul fs) := rfl

theorem releaseStep_params (fs : NUM) : releaseStep params fs = NUM.one.div ((dec 1 10).mul fs) := rfl

/-- The envelope step writes `ENV`, `VSTATE` and `ACTIVE` alone (R291). -/
theorem envelopeStep_eq (P : Params) (fs : NUM) (v : Voice) :
    envelopeStep P fs v = { v with
      env := (envelopeStep P fs v).env, vstate := (envelopeStep P fs v).vstate, active := (envelopeStep P fs v).active } := by
  obtain ⟨_, _, _, h, -⟩ := envelopeStep_frame P fs v
  rw [h]

/-! ### The note over a tick and a RENDER -/

/-- From `v` to `u` the note is as it was, or its release has ended (R291). -/
def Voice.NoteKeptOrEnded (v u : Voice) : Prop :=
  (u.vstate = v.vstate ∧ u.active = v.active) ∨ (v.vstate = .releasing ∧ u.vstate = .silent ∧ u.active = none)

open Voice (NoteKeptOrEnded)

theorem Voice.NoteKeptOrEnded.trans {v u x : Voice} (hvu : NoteKeptOrEnded v u) (hux : NoteKeptOrEnded u x) :
    NoteKeptOrEnded v x := by
  obtain ⟨hstate, hactive⟩ | ⟨hreleasing, hsilent, hnone⟩ := hvu
  · simpa only [NoteKeptOrEnded, hstate, hactive] using hux
  · obtain ⟨hstate, hactive⟩ | ⟨-, hend⟩ := hux
    · exact .inr ⟨hreleasing, hstate.trans hsilent, hactive.trans hnone⟩
    · exact .inr ⟨hreleasing, hend⟩

theorem Voice.NoteKeptOrEnded.silenced {s t : State} (h : NoteKeptOrEnded s.voice t.voice) (hs : s.Silenced) : t.Silenced := by
  obtain ⟨hstate, hactive⟩ | ⟨-, hend⟩ := h
  · exact ⟨hstate.trans hs.1, hactive.trans hs.2⟩
  · exact hend

theorem envelopeStep_note (P : Params) (fs : NUM) (v : Voice) : NoteKeptOrEnded v (envelopeStep P fs v) := by
  obtain ⟨_, _, _, he, h⟩ := envelopeStep_frame P fs v
  rw [he]
  exact h

theorem tick_note (P : Params) (s : State) : NoteKeptOrEnded s.voice (tick P s).voice := by
  obtain ⟨_, _, _, _, ht, -, -, -, hstate, hactive⟩ := tick_frame P s
  rw [ht]
  exact (envelopeStep_note P s.fs s.voice).trans (.inl ⟨hstate, hactive⟩)

theorem renderTicks_note (P : Params) (m : Nat) (s : State) : NoteKeptOrEnded s.voice (renderTicks P m s).voice :=
  renderTicks_induction P (fun u => NoteKeptOrEnded s.voice u.voice) (fun u h => h.trans (tick_note P u)) (fun _ _ h => h) m s
    (.inl ⟨rfl, rfl⟩)

/-! ### The note over an instruction -/

theorem noteOn_vstate (P : Params) (n : Nat) (d : Word) (s : State) :
    (noteOn P n d s).voice.vstate = if n < 128 then .sounding else .silent := by
  by_cases h : n < 128 <;> simp [noteOn, validNote, h, captureNote, State.voiceReset, Voice.silentWith]

/-- A NOTE_ON of an invalid note leaves the voice that was just reset (R321). -/
theorem noteOn_silenced (P : Params) {n : Nat} (h : 128 ≤ n) (d : Word) (s : State) : (noteOn P n d s).Silenced := by
  simp [noteOn, validNote, Nat.not_lt.mpr h, State.Silenced, State.voiceReset, Voice.silentWith]

/-- A NOTE_OFF writes the voice only where it begins the release of the active note (R322). -/
theorem noteOff_voice (n : Nat) (s : State) : (noteOff n s).voice = s.voice ∨
    ∃ k : Fin 128, n = k.val ∧ s.voice.vstate = .sounding ∧ s.voice.active = some k ∧
      (noteOff n s).voice.vstate = .releasing := by
  by_cases hn : n < 128
  · by_cases hs : s.voice.vstate = .sounding ∧ s.voice.active = some ⟨n, hn⟩
    · exact .inr ⟨⟨n, hn⟩, rfl, hs.1, hs.2, by simp [noteOff, validNote, hn, hs]⟩
    · exact .inl (by simp [noteOff, validNote, hn, hs])
  · exact .inl (by simp [noteOff, validNote, hn])

/-- A rate that is refused leaves the voice, and one that is taken resets it (R323). -/
theorem setRate_voice (P : Params) (d : Word) (s : State) : (setRate P d s).voice = s.voice ∨ (setRate P d s).Silenced := by
  by_cases hbad : badRate P (P.num.ofBits32 d) = true
  · exact .inl (by simp [setRate, hbad])
  · exact .inr (by simp [setRate, hbad, State.Silenced, State.voiceReset, Voice.silentWith])

theorem render_note (P : Params) (m : Nat) (s : State) : NoteKeptOrEnded s.voice (render P m s).voice := by
  by_cases hrate : s.rateValid = true
  · simpa [render, hrate] using renderTicks_note P m { s with knobSnap := s.knob }
  · exact .inl (by simp [render, hrate])

theorem powerOn_silenced (s : State) : (powerOn s).Silenced := ⟨rfl, rfl⟩

/-- An instruction leaves the note, or it is one of the five that write it (R297). -/
theorem execWith_note {P : Params} {i : Instr} {s t : State} (h : execWith P i s = .next t) :
    (t.voice.vstate = s.voice.vstate ∧ t.voice.active = s.voice.active) ∨
    (∃ n d, i = .noteOn n d ∧ t = noteOn P n d s) ∨
    (∃ n, i = .noteOff n ∧ t = noteOff n s) ∨
    (∃ d, i = .setRate d ∧ t = setRate P d s) ∨
    (∃ m, i = .render m ∧ t = render P m s) ∨
    (i = .reset ∧ t = powerOn s) := by
  cases i <;> obtain rfl := Host.Outcome.next.inj h
  case noteOn n d => exact .inr (.inl ⟨n, d, rfl, rfl⟩)
  case noteOff n => exact .inr (.inr (.inl ⟨n, rfl, rfl⟩))
  case setRate d => exact .inr (.inr (.inr (.inl ⟨d, rfl, rfl⟩)))
  case render m => exact .inr (.inr (.inr (.inr (.inl ⟨m, rfl, rfl⟩))))
  case reset => exact .inr (.inr (.inr (.inr (.inr ⟨rfl, rfl⟩))))
  case getActiveNote | getWaveType | getWeirdType | getFilterType | getStatus => simp only [State.respond_voice, and_self, true_or]
  case getKnob => simp only [State.respondCtl_voice, and_self, true_or]
  case wCrackle => exact .inl (by unfold waveCrackle; split <;> exact ⟨rfl, rfl⟩)
  case eGlitcher => exact .inl (by unfold effectGlitcher; dsimp only; split <;> exact ⟨rfl, rfl⟩)
  case eGranular => exact .inl (effectGranular_eq P s ▸ ⟨rfl, rfl⟩)
  all_goals exact .inl ⟨rfl, rfl⟩

/-! ### The stages of a tick as instructions -/

theorem decode_waveCode (w : Wave) : decode (.bank .wave) [BitVec.ofNat 32 w.code] = .ok w.instr [] := by
  cases w <;> rfl

theorem decode_effectCode (e : Effect) : decode (.bank .effect) [BitVec.ofNat 32 e.code] = .ok e.instr [] := by
  cases e <;> rfl

theorem decode_filterCode (t : Filter) : decode (.bank .filter) [BitVec.ofNat 32 t.code] = .ok t.instr [] := by
  cases t <;> rfl

/-- The effect stage is the meaning of the instruction its selector names, once `GRAIN_RESET` is cleared (R220). -/
theorem exec_effectInstr (e : Effect) (s : State) :
    exec e.instr { s with wires := { s.wires with grainReset := false } } = .next (effectStage params e s) := by
  cases e <;> rfl

/-- A filter's instruction runs the stage its selector names (R250). -/
theorem exec_filterInstr (t : Filter) (s : State) : exec t.instr s = .next (filterStage params t s) := by
  cases t <;> rfl

/-- What a stage reads of the tables is the note's profile and its variant at the latched knob (R160, R293). -/
theorem State.tables_of_active (P : Params) {s : State} {n : Fin 128} (h : s.voice.active = some n) :
    s.profile P = Machine.profile P n ∧ s.variant P = knobVariant P n (knobBucket P s.knobSnap) := by
  simp only [State.profile, State.variant, State.profileNote, h, and_self]

theorem waveStage_tables (P : Params) (w : Wave) (s : State) :
    (waveStage P w s).profile P = s.profile P ∧ (waveStage P w s).variant P = s.variant P := by
  obtain ⟨_, _, _, _, h⟩ := waveStage_frame P w s
  rw [h]
  exact ⟨rfl, rfl⟩

theorem effectStage_tables (P : Params) (e : Effect) (s : State) :
    (effectStage P e s).profile P = s.profile P ∧ (effectStage P e s).variant P = s.variant P := by
  obtain ⟨_, _, _, _, _, _, _, _, h⟩ := effectStage_frame P e s
  rw [h]
  exact ⟨rfl, rfl⟩

/-! ### The sample -/

/-- Only a NaN's word depends on the free value (R84). -/
theorem NUM.bits32_of_ne_nan {v : NUM} (h : v ≠ .nan) (free : BitVec 24) : NUM.bits32 free v = NUM.bits32 0 v := by
  cases v with
  | nan => exact absurd rfl h
  | inf neg => rw [NUM.bits32_inf, NUM.bits32_inf]
  | fin neg m => rw [NUM.bits32_fin, NUM.bits32_fin]

theorem State.emitSample_eq (P : Params) (v : NUM) (s : State) :
    ∃ draws, s.emitSample P v = { s with out := s.out.push (P.num.bits32 (P.nanBits s.draws) v), draws := draws } := by
  unfold State.emitSample
  dsimp only
  split <;> exact ⟨_, rfl⟩

/-- The sample of a sounding tick (R295). -/
def tickSample (P : Params) (s : State) : NUM :=
  outputScale P (bankStages P s).wires.x2 (bankStages P s).voice.env (bankStages P s).voice.vel

/-- A sounding tick in one update of the state after its banks: the phases advance at the rate before it and one word is appended (R294 to R296). -/
theorem soundTick_eq (P : Params) (s : State) : ∃ draws, soundTick P s = { bankStages P s with
    voice := phaseAdvance P s.fs (bankStages P s).wires.grainReset (bankStages P s).voice
    out := s.out.push (P.num.bits32 (P.nanBits s.draws) (tickSample P s))
    wires := Wires.idle
    draws := draws } := by
  obtain ⟨_, _, hb, -⟩ := bankStages_frame P s
  have hfs : (bankStages P s).fs = s.fs := by rw [hb]
  have hout : (bankStages P s).out = s.out := by rw [hb]
  have hdraws : (bankStages P s).draws = s.draws := by rw [hb]
  rw [← hfs, ← hout, ← hdraws]
  exact State.emitSample_eq ..

/-! ### A silent machine -/

theorem tick_of_silenced (P : Params) {s : State} (h : s.Silenced) :
    tick P s = (s.setVoice (envelopeStep P s.fs s.voice)).emit 0 :=
  tick_of_silent (by rw [envelopeStep_of_silent h.1]; exact h.1)

/-- While the voice is silent every tick of a RENDER appends +0.0 (R302). -/
theorem renderTicks_of_silenced (P : Params) (m : Nat) {s : State} (h : s.Silenced) (hd : s.out.depth = none) :
    (renderTicks P m s).out.words = s.out.words ++ List.replicate m 0 := by
  induction m generalizing s with
  | zero => simp [renderTicks]
  | succ m ih =>
    have hout : (tick P s).out = s.out.push 0 := by rw [tick_of_silenced P h]; rfl
    have hfull : s.out.full = false := by simp [Stream.full, hd]
    have hrest := ih ((tick_note P s).silenced h) (by rw [hout]; exact hd)
    rw [hout] at hrest
    simp only [renderTicks, hfull, Bool.false_eq_true, if_false, hrest, Stream.push_words, List.replicate_succ, List.append_assoc,
      List.singleton_append]

end Sys2Proof.Machine

namespace Sys2Proof.Proofs

open Sys2Proof.Machine

/-- Settles O35: one clause per branch of the envelope step. -/
theorem envelopeStep : Obligations.EnvelopeStep := by
  unfold Obligations.EnvelopeStep
  intro fs v
  dsimp only
  rw [← attackStep_binary64, ← releaseStep_params]
  exact ⟨envelopeStep_of_sounding (P := params), envelopeStep_of_silent (P := params), envelopeStep_of_releasing (P := params),
    envelopeStep_of_release_end (P := params)⟩

/-- Settles O36: the tick is the envelope step and one word, and the step writes three registers. -/
theorem silentTick : Obligations.SilentTick := by
  unfold Obligations.SilentTick
  intro s h
  have hstep := envelopeStep_eq params s.fs s.voice
  rw [h] at hstep
  rw [tick_of_silent h]
  exact congrArg (fun v => (s.setVoice v).emit 0) hstep

/-- Settles O37: the three instructions are those of the selected types, whose meanings are the stages of the tick. -/
theorem soundingTick : Obligations.SoundingTick := by
  unfold Obligations.SoundingTick
  refine ⟨fun s h => by rw [tick_of_silent h]; rfl, fun s h => ?_⟩
  intro s1 pr
  obtain ⟨draws, hsound⟩ := soundTick_eq params s1
  have htick := (tick_of_not_silent (P := params) h).trans hsound
  refine ⟨?active, pr.wave.instr, pr.effect.instr, pr.filter.instr, waveStage params pr.wave s1,
    effectStage params pr.effect (waveStage params pr.wave s1), bankStages params s1, ?tables,
    decode_waveCode pr.wave, exec_waveInstr pr.wave s1, decode_effectCode pr.effect, exec_effectInstr pr.effect _,
    decode_filterCode pr.filter, exec_filterInstr pr.filter _, NUM.bits32 (params.nanBits s1.draws) (tickSample params s1),
    fun hnum => NUM.bits32_of_ne_nan hnum _, fun hnan => ?nan, ?tick⟩
  case active =>
    rintro ⟨-, -, -, hsilent, -⟩
    refine Option.ne_none_iff_exists'.mp fun hnone => h ?_
    rw [envelopeStep_of_silent (hsilent.mpr hnone)]
    exact hsilent.mpr hnone
  case tables =>
    intro n hn
    have h1 := State.tables_of_active params (s := s1) ((envelopeStep_active h).trans hn)
    have hwave := waveStage_tables params pr.wave s1
    have heffect := effectStage_tables params pr.effect (waveStage params pr.wave s1)
    simp only [List.forall_mem_cons, heffect, hwave]
    exact ⟨h1, h1, h1, by simp⟩
  case nan =>
    rw [show tickSample params s1 = .nan from hnan]
    exact NUM.ofBits32_bits32_nan _
  case tick =>
    rw [htick]
    rfl

/-- Settles O54: only a valid NOTE_ON writes the note of a silent machine, and until then each tick appends 0. -/
theorem silenceInvariant : Obligations.SilenceInvariant := by
  unfold Obligations.SilenceInvariant
  refine ⟨⟨rfl, rfl⟩, ?reset, ?kept, ?render⟩
  case reset =>
    rintro s t h
    obtain rfl := Host.Outcome.next.inj h
    exact powerOn_silenced s
  case kept =>
    intro i s t hs hvalid h
    rw [exec_eq_execWith] at h
    obtain ⟨hstate, hactive⟩ | ⟨n, d, rfl, rfl⟩ | ⟨n, rfl, rfl⟩ | ⟨d, rfl, rfl⟩ | ⟨m, rfl, rfl⟩ | ⟨rfl, rfl⟩ := execWith_note h
    · exact ⟨hstate.trans hs.1, hactive.trans hs.2⟩
    · exact noteOn_silenced params (hvalid n d rfl) d s
    · obtain hv | ⟨k, -, hsounding, -⟩ := noteOff_voice n s
      · rwa [State.Silenced, hv]
      · rw [hs.1] at hsounding
        cases hsounding
    · obtain hv | hsilenced := setRate_voice params d s
      · rwa [State.Silenced, hv]
      · exact hsilenced
    · exact (render_note params m s).silenced hs
    · exact powerOn_silenced s
  case render =>
    intro m s hs hrate hd
    refine ⟨render params m s, rfl, ?_⟩
    rw [render, if_pos hrate]
    exact renderTicks_of_silenced params m hs hd

/-- Settles O57: of the five instructions that write the note, each says where it leads. -/
theorem voiceTransitions : Obligations.VoiceTransitions := by
  unfold Obligations.VoiceTransitions
  intro i p s t _ h hchange
  rw [exec_eq_execWith] at h
  obtain ⟨hstate, -⟩ | ⟨n, d, rfl, rfl⟩ | ⟨n, rfl, rfl⟩ | ⟨d, rfl, rfl⟩ | ⟨m, rfl, rfl⟩ | ⟨rfl, rfl⟩ := execWith_note h
  · exact absurd hstate hchange
  · exact .inl ⟨n, d, rfl, noteOn_vstate params n d s⟩
  · obtain hv | ⟨k, rfl, hsounding, hactive, hreleasing⟩ := noteOff_voice n s
    · exact absurd (congrArg Voice.vstate hv) hchange
    · exact .inr (.inl ⟨k, rfl, hsounding, hactive, hreleasing⟩)
  · obtain hv | ⟨hsilent, -⟩ := setRate_voice params d s
    · exact absurd (congrArg Voice.vstate hv) hchange
    · exact .inr (.inr (.inr (.inl ⟨d, rfl, hsilent⟩)))
  · obtain ⟨hstate, -⟩ | hend := render_note params m s
    · exact absurd hstate hchange
    · exact .inr (.inr (.inl ⟨m, rfl, hend⟩))
  · exact .inr (.inr (.inr (.inr ⟨rfl, (powerOn_silenced s).1⟩)))

end Sys2Proof.Proofs
end

section
/-!
PROOFS. The commands (R321 to R333) but for GET_STATUS. First the words: what the fields of an assembled command word are, so that the decoder finds the
command with its operands. Then each command: one equation for each of its branches, and the loop of a RENDER that nothing holds.
-/

namespace Sys2Proof

/-! ### Assembled command words -/

theorem commandWord_toNat {opc n : Nat} (hopc : opc < 2 ^ 8) (hn : n < 2 ^ 24) : (commandWord opc n).toNat = opc * 2 ^ 24 + n := by
  rw [commandWord, BitVec.toNat_ofNat, Nat.mod_eq_of_lt (by omega)]

theorem opcode_commandWord {opc n : Nat} (hopc : opc < 2 ^ 8) (hn : n < 2 ^ 24) : opcode (commandWord opc n) = opc := by
  rw [opcode, commandWord_toNat hopc hn]
  omega

theorem operand_commandWord {opc n : Nat} (hopc : opc < 2 ^ 8) (hn : n < 2 ^ 24) : operand (commandWord opc n) = n := by
  rw [operand, commandWord_toNat hopc hn]
  omega

theorem noteField_commandWord {opc n : Nat} (hopc : opc < 2 ^ 8) (hn : n < 2 ^ 8) : noteField (commandWord opc n) = n := by
  rw [noteField, commandWord_toNat hopc (by omega)]
  omega

/-- A note leaves the reserved bits of its word zero (R112). -/
theorem reserved_commandWord {opc n : Nat} (hopc : opc < 2 ^ 8) (hn : n < 2 ^ 8) : operand (commandWord opc n) / 2 ^ 8 = 0 := by
  rw [operand_commandWord hopc (by omega)]
  omega

theorem decode_noteOn_word {note : Nat} (h : note < 2 ^ 8) (data : Word) (rest : List Word) :
    decode (.port .cmd) (commandWord 0x01 note :: data :: rest) = .ok (.noteOn note data) rest := by
  have hopc : 0x01 < 2 ^ 8 := by omega
  rw [decode_cmd_noteOn (opcode_commandWord hopc (by omega)), formatND, if_pos (reserved_commandWord hopc h), noteField_commandWord hopc h]

theorem decode_noteOff_word {note : Nat} (h : note < 2 ^ 8) (rest : List Word) :
    decode (.port .cmd) (commandWord 0x02 note :: rest) = .ok (.noteOff note) rest := by
  have hopc : 0x02 < 2 ^ 8 := by omega
  rw [decode_cmd_noteOff (opcode_commandWord hopc (by omega)), formatN, if_pos (reserved_commandWord hopc h), noteField_commandWord hopc h]

theorem decode_render_word {m : Nat} (h : m < 2 ^ 24) (rest : List Word) :
    decode (.port .cmd) (commandWord 0x04 m :: rest) = .ok (.render m) rest := by
  have hopc : 0x04 < 2 ^ 8 := by omega
  rw [decode_cmd_render (opcode_commandWord hopc h), formatC, operand_commandWord hopc h]

end Sys2Proof

namespace Sys2Proof.Machine

/-! ### The notes -/

theorem validNote_of_lt {note : Nat} (h : note < 128) : validNote note = some ⟨note, h⟩ := dif_pos h

theorem validNote_of_le {note : Nat} (h : 128 ≤ note) : validNote note = none := dif_neg (Nat.not_lt.mpr h)

theorem noteOn_of_lt (P : Params) {note : Nat} (h : note < 128) (data : Word) (s : State) :
    noteOn P note data s = s.voiceReset.setVoice (captureNote P ⟨note, h⟩ data s.voiceReset.voice) := by
  simp only [noteOn, validNote_of_lt h]

theorem noteOn_of_le (P : Params) {note : Nat} (h : 128 ≤ note) (data : Word) (s : State) :
    noteOn P note data s = s.voiceReset.raise .badNote := by
  simp only [noteOn, validNote_of_le h]

/-- The capture at the defaults (R299, R300). -/
theorem captureNote_params (n : Fin 128) (data : Word) (v : Voice) : captureNote params n data v = { v with
    active := some n
    vel := (NUM.ofBits32 data).clamp .zero .one
    freq := (lit 440).mul (params.trig.pow2 ((NUM.ofInt ((n.val : Int) - 69)).div (lit 12)))
    vstate := .sounding
    prng := 0x9E3779B9#32 ^^^ BitVec.ofNat 32 n.val } := rfl

theorem noteOff_of_le {note : Nat} (h : 128 ≤ note) (s : State) : noteOff note s = s.raise .badNote := by
  simp only [noteOff, validNote_of_le h]

theorem noteOff_of_lt {note : Nat} (h : note < 128) (s : State) : noteOff note s =
    if s.voice.vstate = .sounding ∧ s.voice.active = some ⟨note, h⟩ then s.setVoice { s.voice with vstate := .releasing } else s := by
  simp only [noteOff, validNote_of_lt h]

/-! ### The rate -/

theorem lit_one : lit 1 = .fin false NUM.unit := by decide +kernel

/-- What is not above zero, of either sign, is below the least rate (R323). -/
theorem lt_lit_one_of_le_zero {x : NUM} (h : x.le .zero = true) : x.lt (lit 1) = true := by
  rw [lit_one]
  exact NUM.lt_fin_of_le_fin h NUM.unit_pos

theorem badRate_params_iff (r : NUM) :
    badRate params r = true ↔ r = .nan ∨ r.lt (lit 1) = true ∨ r = .inf false ∨ 192000 < params.rhaInt r := by
  simp only [badRate, Bool.or_eq_true, beq_iff_eq, decide_eq_true_eq, or_assoc]
  rw [params_rateMin, params_delayMax, Nat.cast_ofNat]

theorem setRate_of_bad {P : Params} {data : Word} (h : badRate P (P.num.ofBits32 data) = true) (s : State) :
    setRate P data s = s.raise .badRate := if_pos h

theorem setRate_of_good {P : Params} {data : Word} (h : ¬badRate P (P.num.ofBits32 data) = true) (s : State) :
    setRate P data s = State.voiceReset { s with
      fs := P.num.ofBits32 data
      rateValid := true
      dlLen := delayLength P (P.num.ofBits32 data)
      gp := glitchPeriod P (P.num.ofBits32 data) } := if_neg h

theorem delayLength_params (r : NUM) : delayLength params r = max 1 (params.rhaInt (r.mul (lit 1))).toNat := rfl

theorem glitchPeriod_params (r : NUM) : glitchPeriod params r = (params.rhaInt ((dec 1 100).mul r)).toNat := rfl

/-! ### RENDER -/

theorem render_of_no_rate (P : Params) (m : Nat) {s : State} (h : s.rateValid = false) : render P m s = s.raise .noRate :=
  if_neg (by simp [h])

theorem render_of_rate (P : Params) (m : Nat) {s : State} (h : s.rateValid = true) :
    render P m s = renderTicks P m { s with knobSnap := s.knob } := if_pos h

/-- With no flag set, `NO_RATE` then stands alone (R18, R361). -/
theorem State.raise_noRate_of_clear {s : State} (h : s.err = 0) : s.raise .noRate = { s with err := 0b00100#5 } := by
  rw [State.raise, h, show 0 ||| ErrFlag.noRate.mask = 0b00100#5 by decide]

theorem tick_out_depth (P : Params) (s : State) : (tick P s).out.depth = s.out.depth := by
  obtain ⟨_, _, _, _, h, -⟩ := tick_frame P s
  rw [h, Stream.push_depth]

/-- On an unbounded `OUT` no tick is held (R324, R399). -/
theorem renderTicks_unbounded (P : Params) (m : Nat) (s : State) (hd : s.out.depth = none) :
    renderTicks P m s = { (tick P)^[m] s with renderLeft := 0 } := by
  induction m generalizing s with
  | zero => rfl
  | succ m ih =>
    have hfull : s.out.full = false := by simp only [Stream.full, hd]
    rw [renderTicks, if_neg (by simp [hfull]), ih (tick P s) ((tick_out_depth P s).trans hd), Function.iterate_succ_apply]

/-! ### The responses -/

theorem State.respond_of_room {s : State} (h : s.rsp.full = false) (w : Word) : s.respond w = { s with rsp := s.rsp.push w } :=
  if_neg (by simp [h])

theorem State.respondCtl_of_room {s : State} (h : s.crsp.full = false) (w : Word) : s.respondCtl w = { s with crsp := s.crsp.push w } :=
  if_neg (by simp [h])

end Sys2Proof.Machine

namespace Sys2Proof.Proofs

open Sys2Proof.Machine

/-- Settles O11: on an unbounded `OUT` the loop is the tick iterated, and each tick appends one word. -/
theorem renderRunsTicks : Obligations.RenderRunsTicks := by
  unfold Obligations.RenderRunsTicks
  refine ⟨fun m hm => decode_render_word hm [], fun m s => ⟨fun hrate => ?noRate, fun hrate hdepth => ⟨?ticks, ?words⟩⟩⟩
  case noRate => exact congrArg Host.Outcome.next (render_of_no_rate params m hrate)
  case ticks => exact congrArg Host.Outcome.next ((render_of_rate params m hrate).trans (renderTicks_unbounded params m _ hdepth))
  case words => exact tick_iterate_out params m { s with knobSnap := s.knob }

/-- Settles O8: the voice is reset whatever the note is; a valid note is then captured. -/
theorem noteOnResetsAndCaptures : Obligations.NoteOnResetsAndCaptures := by
  unfold Obligations.NoteOnResetsAndCaptures
  refine ⟨fun note data hnote => decode_noteOn_word hnote data [], fun note data s => ⟨fun hvalid => ?valid, fun hinvalid => ?invalid⟩,
    fun x => ⟨NUM.clamp_of_low, NUM.clamp_of_one_lt⟩, ?negativeZero⟩
  case valid =>
    refine congrArg Host.Outcome.next ((noteOn_of_lt params hvalid data s).trans ?_)
    rw [captureNote_params]
    rfl
  case invalid => exact congrArg Host.Outcome.next (noteOn_of_le params hinvalid data s)
  case negativeZero => decide +kernel

/-- Settles O9: of a valid note the one test decides, and an invalid one raises the flag. -/
theorem noteOffReleases : Obligations.NoteOffReleases := by
  unfold Obligations.NoteOffReleases
  refine ⟨fun note hnote => decode_noteOff_word hnote [], fun note s => ⟨fun hinvalid => ?invalid, fun hvalid => ⟨fun hactive => ?active,
    fun hother => ?other⟩⟩⟩
  case invalid => exact congrArg Host.Outcome.next (noteOff_of_le hinvalid s)
  case active => exact congrArg Host.Outcome.next ((noteOff_of_lt hvalid s).trans (if_pos hactive))
  case other => exact congrArg Host.Outcome.next ((noteOff_of_lt hvalid s).trans (if_neg (not_and_or.mpr hother)))

/-- Settles O10: the four grounds are the model's test at the defaults, and each of its branches is one update. -/
theorem setRateAcceptsOrRejects : Obligations.SetRateAcceptsOrRejects := by
  unfold Obligations.SetRateAcceptsOrRejects
  refine ⟨fun _ => rfl, fun data s => ?branches, fun _ => lt_lit_one_of_le_zero⟩
  case branches =>
    dsimp only
    rw [← badRate_params_iff, ← delayLength_params, ← glitchPeriod_params]
    exact ⟨fun hbad => congrArg Host.Outcome.next (setRate_of_bad hbad s), fun hgood => congrArg Host.Outcome.next (setRate_of_good hgood s)⟩

/-- Settles O13: each accessor responds with its word, and a response with room is one word appended. -/
theorem typeAccessors : Obligations.TypeAccessors := by
  unfold Obligations.TypeAccessors
  refine ⟨by decide, fun s hroom => ?_⟩
  have hanswer (w : Word) := congrArg (Host.Outcome.next (φ := Fault) (ρ := Refusal)) (State.respond_of_room hroom w)
  exact ⟨hanswer _, hanswer _, hanswer _, hanswer _⟩

/-- Settles O15: RESET is the power-on state with the streams and ports kept, and that state has no rate. -/
theorem clearErrAndReset : Obligations.ClearErrAndReset := by
  unfold Obligations.ClearErrAndReset
  refine ⟨by decide, by decide, fun s => ⟨rfl, powerOn s, rfl, rfl, ?status, fun m => ?render⟩⟩
  case status =>
    change Machine.statusWord State.reset = 0x0000FF00
    decide
  case render =>
    exact congrArg Host.Outcome.next ((render_of_no_rate params m (s := powerOn s) rfl).trans (State.raise_noRate_of_clear rfl))

/-- Settles O16: the pattern goes in and out as it is. -/
theorem knobPort : Obligations.KnobPort := by
  unfold Obligations.KnobPort
  exact ⟨fun _ => rfl, by decide, fun data s => ⟨rfl, fun hroom => congrArg Host.Outcome.next (State.respondCtl_of_room hroom s.knob)⟩⟩

end Sys2Proof.Proofs
end

section
/-!
PROOFS. The whole-machine rules of the commands (R67, R93, R334, R374). A command that branches has a frame lemma that says once
what it may write on any branch; which command writes a register is then read off the frames.
-/

namespace Sys2Proof.Machine

/-! ### What a command may write -/

/-- NOTE_ON writes the voice, and a flag (R321). -/
theorem noteOn_frame (P : Params) (n : Nat) (d : Word) (s : State) :
    ∃ v err, noteOn P n d s = { s with voice := v, err := err } := by
  unfold noteOn
  cases validNote n <;> exact ⟨_, _, rfl⟩

/-- NOTE_OFF writes `VSTATE` alone of the voice, and a flag (R322). -/
theorem noteOff_frame (n : Nat) (s : State) :
    ∃ vstate err, noteOff n s = { s with voice := { s.voice with vstate := vstate }, err := err } := by
  unfold noteOff
  cases validNote n with
  | none => exact ⟨_, _, rfl⟩
  | some k => dsimp only; split <;> exact ⟨_, _, rfl⟩

/-- SET_RATE writes the four rate registers and the voice, or a flag (R323). -/
theorem setRate_frame (P : Params) (d : Word) (s : State) :
    ∃ v fs rateValid dlLen gp err, setRate P d s =
      { s with voice := v, fs := fs, rateValid := rateValid, dlLen := dlLen, gp := gp, err := err } := by
  by_cases hbad : badRate P (P.num.ofBits32 d) = true
  · exact ⟨_, _, _, _, _, _, setRate_of_bad hbad s⟩
  · exact ⟨_, _, _, _, _, _, setRate_of_good hbad s⟩

/-- RENDER latches the knob and writes what its ticks write, `VEL` and `FREQ` excepted, or it writes a flag (R324). -/
theorem render_frame (P : Params) (m : Nat) (s : State) :
    ∃ v knobSnap err out left w draws, render P m s = { s with
        voice := v, knobSnap := knobSnap, err := err, out := out, renderLeft := left, wires := w, draws := draws } ∧
      v.vel = s.voice.vel ∧ v.freq = s.voice.freq := by
  by_cases hrate : s.rateValid = true
  · obtain ⟨_, _, _, _, _, hticks, -, hvel, hfreq⟩ := renderTicks_frame P m { s with knobSnap := s.knob }
    exact ⟨_, _, _, _, _, _, _, (render_of_rate P m hrate).trans hticks, hvel, hfreq⟩
  · exact ⟨_, _, _, _, _, _, _, render_of_no_rate P m (Bool.eq_false_of_not_eq_true hrate), rfl, rfl⟩

/-- A response on the control port writes `CRSP` alone (R65, R399). -/
theorem State.respondCtl_frame (w : Word) (s : State) : ∃ crsp, s.respondCtl w = { s with crsp := crsp } := by
  unfold State.respondCtl
  split <;> exact ⟨_, rfl⟩

end Sys2Proof.Machine

namespace Sys2Proof.Proofs

open Sys2Proof.Machine

/-- Settles O56: each clause is read off the command's frame; the operations of the banks have no port as their source. -/
theorem whoWrites : Obligations.WhoWrites := by
  unfold Obligations.WhoWrites
  intro i p s t hsource h
  cases i <;> cases hsource <;> obtain rfl := Host.Outcome.next.inj h
  case noteOn n d =>
    obtain ⟨v, err, hframe⟩ := noteOn_frame params n d s
    simp [hframe]
  case noteOff n =>
    obtain ⟨vstate, err, hframe⟩ := noteOff_frame n s
    simp [hframe]
  case setRate d =>
    obtain ⟨v, fs, rateValid, dlLen, gp, err, hframe⟩ := setRate_frame params d s
    simp [hframe]
  case render m =>
    obtain ⟨v, knobSnap, err, out, left, w, draws, hframe, hvel, hfreq⟩ := render_frame params m s
    simp [hframe, hvel, hfreq]
  case getKnob =>
    obtain ⟨crsp, hframe⟩ := State.respondCtl_frame s.knob s
    simp [hframe]
  case reset => simp [powerOn]
  case getActiveNote | getWaveType | getWeirdType | getFilterType | getStatus => simp
  case clearErr | setKnob => simp

end Sys2Proof.Proofs
end

section
/-!
PROOFS. Decoding and encoding (R110 to R123) undo each other: each format, and each selector table, reads back the words that its instructions are
assembled from, and accepts no other words.
-/

namespace Sys2Proof

/-! ### What the decoder accepts -/

/-- The instruction is well-formed, belongs to the source, and is assembled from an opcode, an operand field and the data words `data`. -/
structure Instr.AssembledFrom (src : Source) (opc n : Nat) (data : List Word) (i : Instr) : Prop where
  wf : i.wf = true
  source : i.source = src
  encode : encode i = commandWord opc n :: data

/-- What was found is the encoding of a well-formed instruction of its source, with `rest` behind it. -/
structure Instr.Reads (src : Source) (ws rest : List Word) (i : Instr) : Prop where
  wf : i.wf = true
  source : i.source = src
  words : ws = encode i ++ rest

/-- A word is its opcode and its operand field (R110). -/
theorem commandWord_fields (w : Word) : commandWord (opcode w) (operand w) = w := by
  refine BitVec.eq_of_toNat_eq ?_
  have hw := w.isLt
  rw [commandWord_toNat (by unfold opcode; omega) (by unfold operand; omega), opcode, operand]
  omega

/-- With the reserved bits zero, a note is the whole operand field (R112). -/
theorem operand_eq_noteField {w : Word} (h : operand w / 2 ^ 8 = 0) : operand w = noteField w := by
  unfold operand noteField at *
  omega

theorem noteField_lt (w : Word) : noteField w < 2 ^ 8 := Nat.mod_lt _ (by omega)

theorem operand_lt (w : Word) : operand w < 2 ^ 24 := Nat.mod_lt _ (by omega)

theorem note_wf {n : Nat} (h : n < 2 ^ 8) : decide (n < noteValues) = true := decide_eq_true h

theorem frameCount_wf {m : Nat} (h : m < 2 ^ 24) : decide (m ≤ frameMax) = true := decide_eq_true (Nat.le_sub_one_of_lt h)

section

variable {src : Source} {w : Word} {rest tail : List Word} {i : Instr}

/-- An instruction assembled from a word's own fields and the data behind it is what the words encode. -/
theorem Instr.AssembledFrom.reads {n : Nat} {data : List Word} (h : i.AssembledFrom src (opcode w) n data) (hn : operand w = n) :
    i.Reads src (w :: (data ++ rest)) rest where
  wf := h.wf
  source := h.source
  words := by rw [h.encode, ← hn, commandWord_fields, List.cons_append]

theorem formatZ_reads {j : Instr} (hj : j.AssembledFrom src (opcode w) 0 []) (h : formatZ w tail j = .ok i rest) :
    i.Reads src (w :: tail) rest := by
  by_cases h0 : operand w = 0
  · rw [formatZ, if_pos h0] at h
    cases h
    exact hj.reads h0
  · rw [formatZ_illegal h0] at h
    cases h

theorem formatN_reads {j : Nat → Instr} (hj : ∀ n < 2 ^ 8, (j n).AssembledFrom src (opcode w) n []) (h : formatN w tail j = .ok i rest) :
    i.Reads src (w :: tail) rest := by
  by_cases h0 : operand w / 2 ^ 8 = 0
  · rw [formatN, if_pos h0] at h
    cases h
    exact (hj _ (noteField_lt w)).reads (operand_eq_noteField h0)
  · rw [formatN_illegal h0] at h
    cases h

theorem formatC_reads {j : Nat → Instr} (hj : ∀ n < 2 ^ 24, (j n).AssembledFrom src (opcode w) n []) (h : formatC w tail j = .ok i rest) :
    i.Reads src (w :: tail) rest := by
  cases h
  exact (hj _ (operand_lt w)).reads rfl

theorem formatND_reads {j : Nat → Word → Instr} (hj : ∀ n < 2 ^ 8, ∀ d, (j n d).AssembledFrom src (opcode w) n [d])
    (h : formatND w tail j = .ok i rest) : i.Reads src (w :: tail) rest := by
  cases tail with
  | nil => cases h
  | cons d tail =>
    by_cases h0 : operand w / 2 ^ 8 = 0
    · rw [formatND, if_pos h0] at h
      cases h
      exact (hj _ (noteField_lt w) d).reads (operand_eq_noteField h0)
    · rw [formatND_illegal h0] at h
      cases h

theorem formatD_reads {j : Word → Instr} (hj : ∀ d, (j d).AssembledFrom src (opcode w) 0 [d]) (h : formatD w tail j = .ok i rest) :
    i.Reads src (w :: tail) rest := by
  cases tail with
  | nil => cases h
  | cons d tail =>
    by_cases h0 : operand w = 0
    · rw [formatD, if_pos h0] at h
      cases h
      exact (hj d).reads h0
    · rw [formatD_illegal h0] at h
      cases h

/-- What decodes on `CMD` reads back (R115): a format per opcode, and none for the reserved ones. -/
theorem decodeCmd_reads {ws : List Word} (h : decodeCmd ws = .ok i rest) : i.Reads (.port .cmd) ws rest := by
  cases ws with
  | nil => cases h
  | cons w tail =>
    simp only [decodeCmd] at h
    split at h <;> rename_i hopc
    · exact formatND_reads (j := .noteOn) (fun n hn d => ⟨note_wf hn, rfl, by rw [hopc]; rfl⟩) h
    · exact formatN_reads (j := .noteOff) (fun n hn => ⟨note_wf hn, rfl, by rw [hopc]; rfl⟩) h
    · exact formatD_reads (fun d => ⟨rfl, rfl, by rw [hopc]; rfl⟩) h
    · exact formatC_reads (j := .render) (fun n hn => ⟨frameCount_wf hn, rfl, by rw [hopc]; rfl⟩) h
    iterate 7 exact formatZ_reads ⟨rfl, rfl, by rw [hopc]; rfl⟩ h
    · cases h

/-- What decodes on `CTL` reads back (R116). -/
theorem decodeCtl_reads {ws : List Word} (h : decodeCtl ws = .ok i rest) : i.Reads (.port .ctl) ws rest := by
  cases ws with
  | nil => cases h
  | cons w tail =>
    simp only [decodeCtl] at h
    split at h <;> rename_i hopc
    · exact formatD_reads (fun d => ⟨rfl, rfl, by rw [hopc]; rfl⟩) h
    · exact formatZ_reads ⟨rfl, rfl, by rw [hopc]; rfl⟩ h
    · cases h

/-- A selector code is the encoding of the operation it names (R121 to R123). -/
theorem decodeSelector_eq_some {b : Bank} {c : Nat} (h : decodeSelector b c = some i) :
    i.wf = true ∧ i.source = .bank b ∧ encode i = [BitVec.ofNat 32 c] := by
  cases b
  case wave =>
    simp only [decodeSelector, decodeWave] at h
    split at h <;> cases h <;> exact ⟨rfl, rfl, rfl⟩
  case effect =>
    simp only [decodeSelector, decodeEffect] at h
    split at h <;> cases h <;> exact ⟨rfl, rfl, rfl⟩
  case filter =>
    simp only [decodeSelector, decodeFilter] at h
    split at h <;> cases h <;> exact ⟨rfl, rfl, rfl⟩

/-- Whatever decodes reads back. -/
theorem decode_reads {ws : List Word} (h : decode src ws = .ok i rest) : i.Reads src ws rest := by
  cases src with
  | port p =>
    cases p
    · exact decodeCmd_reads h
    · exact decodeCtl_reads h
  | bank b =>
    cases ws with
    | nil => cases h
    | cons w tail =>
      rw [Machine.decode_bank] at h
      cases hsel : decodeSelector b w.toNat with
      | none => simp [hsel] at h
      | some j =>
        simp only [hsel, Decoded.ok.injEq] at h
        obtain ⟨rfl, rfl⟩ := h
        obtain ⟨hwf, hsource, henc⟩ := decodeSelector_eq_some hsel
        exact ⟨hwf, hsource, by rw [henc, BitVec.ofNat_toNat, BitVec.setWidth_eq, List.singleton_append]⟩

end

/-! ### What the encoder assembles -/

/-- A well-formed instruction is found again in front of any words: by the fields of its command word, or by its selector table. -/
theorem decode_encode {i : Instr} (h : i.wf = true) (rest : List Word) : decode i.source (encode i ++ rest) = .ok i rest := by
  cases i
  case noteOn n d => exact decode_noteOn_word (of_decide_eq_true h) d rest
  case noteOff n => exact decode_noteOff_word (of_decide_eq_true h) rest
  case render m => exact decode_render_word (Nat.lt_succ_of_le (of_decide_eq_true h)) rest
  all_goals rfl

end Sys2Proof

namespace Sys2Proof.Proofs

/-- Settles O2: a note and a frame count fit their fields, and every other word is a constant or a data word. -/
theorem encodeThenDecode : Obligations.EncodeThenDecode := by
  unfold Obligations.EncodeThenDecode
  exact fun _ rest hwf => decode_encode hwf rest

/-- Settles O3: the opcode, or the bank, decides the format, and each format accepts only the words it is assembled from. -/
theorem decodeThenEncode : Obligations.DecodeThenEncode := by
  unfold Obligations.DecodeThenEncode
  intro src ws rest i h
  exact ⟨(decode_reads h).wf, (decode_reads h).source, (decode_reads h).words⟩

/-- Settles O1: the decoder evaluates each example. -/
theorem sampleWordsDecode : Obligations.SampleWordsDecode := by
  unfold Obligations.SampleWordsDecode
  decide

end Sys2Proof.Proofs
end

section
/-!
PROOFS. The step (R95, R96, R320, R399, R402): whose turn it is in each case of readiness and what the step then does, a step that holds, a bank that is
handed a code, and the flags a step may write.
-/

namespace Sys2Proof.Machine

section

variable {P : Params} {run : Instr → State → Host.Outcome State Fault Refusal} {s : State} {i : Instr} {rest : List Word}

/-! ### Readiness -/

theorem stepPort_of_ok {p : Port} (hd : decode (.port p) (s.waiting p) = .ok i rest) :
    stepPort run p s = run i (s.setWaiting p rest) := by
  simp only [stepPort, hd]

/-- A whole command can be performed when it is illegal or does not hold (R120, R399). -/
theorem performable_iff {d : Decoded} :
    performable d s = true ↔ (∃ rest, d = .illegal rest) ∨ ∃ i rest, d = .ok i rest ∧ holds i s = false := by
  cases d <;> simp [performable]

theorem cmdReady_of_ok (h0 : s.renderLeft = 0) (hd : decode (.port .cmd) s.cmd = .ok i rest) : cmdReady s = !holds i s := by
  simp only [cmdReady, h0, if_true, hd, performable]

theorem ctlReady_of_ok (hd : decode (.port .ctl) s.ctl = .ok i rest) : ctlReady s = !holds i s := by
  simp only [ctlReady, hd, performable]

theorem cmdReady_of_renderLeft (h : s.renderLeft ≠ 0) : cmdReady s = !s.out.full := if_neg h

theorem cmdReady_iff : cmdReady s = true ↔ if s.renderLeft = 0 then
      (∃ rest, decode (.port .cmd) s.cmd = .illegal rest) ∨ ∃ i rest, decode (.port .cmd) s.cmd = .ok i rest ∧ holds i s = false
    else s.out.full = false := by
  by_cases h : s.renderLeft = 0
  · simp only [cmdReady, h, if_true, performable_iff]
  · simp only [cmdReady, h, if_false, Bool.not_eq_true']

/-! ### The step in each case -/

/-- While neither port is ready the block idles (R402). -/
theorem stepOf_idle (hh : s.handed = none) (hcmd : cmdReady s = false) (hctl : ctlReady s = false) : stepOf P run s = .next s := by
  simp only [stepOf, hh, turn, hcmd, hctl]

/-- A held RENDER goes on once `OUT` has room and `CTL` has nothing to perform (R399). -/
theorem stepOf_resumes (hh : s.handed = none) (h0 : s.renderLeft ≠ 0) (hroom : s.out.full = false) (hctl : ctlReady s = false) :
    stepOf P run s = .next (renderTicks P s.renderLeft s) := by
  have hcmd : cmdReady s = true := by rw [cmdReady_of_renderLeft h0, hroom, Bool.not_false]
  simp only [stepOf, hh, turn, hcmd, hctl, h0, if_false, resumeRender, afterTurn_of_one_ready (s := s) (by simp only [hctl, Bool.and_false])]

section

variable (hh : s.handed = none) (hcmd : cmdReady s = true) (hctl : ctlReady s = true)

include hcmd hctl in
/-- The draw of a turn is counted where both ports are ready (R96). -/
theorem afterTurn_of_both_ready : afterTurn s = { s with turns := s.turns + 1 } := by
  simp only [afterTurn, hcmd, hctl, Bool.and_self, if_true]

include hh hcmd hctl

/-- Both ports are ready and the draw is for `CTL` (R96). -/
theorem stepOf_both_ctl (hturn : P.ctlTurn s.turns = true) :
    stepOf P run s = stepPort run .ctl { s with turns := s.turns + 1 } := by
  simp only [stepOf, hh, turn, hcmd, hctl, hturn, if_true, afterTurn_of_both_ready hcmd hctl]

/-- Both ports are ready and the draw is for a command of `CMD` (R96). -/
theorem stepOf_both_cmd (hturn : ¬P.ctlTurn s.turns = true) (h0 : s.renderLeft = 0) :
    stepOf P run s = stepPort run .cmd { s with turns := s.turns + 1 } := by
  simp only [stepOf, hh, turn, hcmd, hctl, hturn, if_false, h0, if_true, afterTurn_of_both_ready hcmd hctl, Bool.false_eq_true]

/-- Both ports are ready and the draw is for the held RENDER (R96, R399). -/
theorem stepOf_both_resumes (hturn : ¬P.ctlTurn s.turns = true) (h0 : s.renderLeft ≠ 0) :
    stepOf P run s = .next (renderTicks P s.renderLeft { s with turns := s.turns + 1 }) := by
  simp only [stepOf, hh, turn, hcmd, hctl, hturn, if_false, h0, resumeRender, afterTurn_of_both_ready hcmd hctl, Bool.false_eq_true]

end

/-- A bank runs the operation its code names (R121 to R123). -/
theorem stepOf_selector {b : Bank} {w : Word} (hh : s.handed = some ⟨b, w⟩) (hi : decodeSelector b w.toNat = some i) :
    stepOf P run s = run i { s with handed := none } := by
  simp only [stepOf, hh, stepSelector, decode_bank, hi]

/-- A bank refuses a reserved code (R121, R123). -/
theorem stepOf_reserved {b : Bank} {w : Word} (hh : s.handed = some ⟨b, w⟩) (hi : decodeSelector b w.toNat = none) :
    stepOf P run s = .refused (.reservedSelector b w) := by
  simp only [stepOf, hh, stepSelector, decode_bank, hi]

/-- What a port performs answers a next state (R360). -/
theorem stepPort_next (p : Port) (s : State) : ∃ t, stepPort exec p s = .next t := by
  unfold stepPort
  split
  · exact ⟨_, rfl⟩
  · exact ⟨_, rfl⟩
  · exact exec_next _ _

/-- While no bank is handed a code, every step goes on (R360). -/
theorem step_next_of_handed_none (hh : s.handed = none) : s.GoesOn := by
  unfold State.GoesOn step stepOf
  rw [hh]
  dsimp only
  split
  · exact ⟨_, rfl⟩
  · exact stepPort_next _ _
  · split
    · exact stepPort_next _ _
    · exact ⟨_, rfl⟩

/-! ### Reserved selector codes -/

theorem decodeWave_eq_none_iff {c : Nat} : decodeWave c = none ↔ 12 ≤ c := by
  refine ⟨fun h => ?_, fun h => ?_⟩
  · by_contra hc
    interval_cases c <;> cases h
  · obtain ⟨k, rfl⟩ := Nat.exists_eq_add_of_le' h
    rfl

theorem decodeEffect_eq_none_iff {c : Nat} : decodeEffect c = none ↔ 8 ≤ c := by
  refine ⟨fun h => ?_, fun h => ?_⟩
  · by_contra hc
    interval_cases c <;> cases h
  · obtain ⟨k, rfl⟩ := Nat.exists_eq_add_of_le' h
    rfl

theorem decodeFilter_eq_none_iff {c : Nat} : decodeFilter c = none ↔ 12 ≤ c := by
  refine ⟨fun h => ?_, fun h => ?_⟩
  · by_contra hc
    interval_cases c <;> cases h
  · obtain ⟨k, rfl⟩ := Nat.exists_eq_add_of_le' h
    rfl

/-! ### Held commands -/

theorem State.respond_of_full (h : s.rsp.full = true) (w : Word) : s.respond w = s := if_pos h

theorem State.respondCtl_of_full (h : s.crsp.full = true) (w : Word) : s.respondCtl w = s := if_pos h

/-- The five commands that respond on `RSP` (R325 to R329). -/
def responders : List Instr := [.getActiveNote, .getWaveType, .getWeirdType, .getFilterType, .getStatus]

theorem exec_responder (hi : i ∈ responders) (s : State) : ∃ w, exec i s = .next (s.respond w) := by
  simp only [responders, List.mem_cons, List.not_mem_nil, or_false] at hi
  obtain rfl | rfl | rfl | rfl | rfl := hi <;> exact ⟨_, rfl⟩

theorem holds_responder (hi : i ∈ responders) (s : State) : holds i s = s.rsp.full := by
  simp only [responders, List.mem_cons, List.not_mem_nil, or_false] at hi
  obtain rfl | rfl | rfl | rfl | rfl := hi <;> rfl

/-- A stream of depth `d` is full from `d` words on (R399). -/
theorem Stream.full_of_depth {q : Stream} {d : Nat} (h : q.depth = some d) : q.full = decide (d ≤ q.words.length) := by
  simp only [Stream.full, h]

/-- The loop of a RENDER on an `OUT` of depth `d`: `k` words are appended, and where ticks are owed `OUT` is full. -/
theorem renderTicks_holds (P : Params) (m d : Nat) (s : State) (hd : s.out.depth = some d) :
    let k := min m (d - s.out.words.length)
    let t := { (tick P)^[k] s with renderLeft := m - k }
    renderTicks P m s = t ∧ (∃ ws : List Word, ws.length = k ∧ t.out = { s.out with words := s.out.words ++ ws }) ∧
      (k < m → t.out.full = true) := by
  intro k t
  obtain ⟨ws, hlen, hout⟩ := tick_iterate_out P k s
  refine ⟨renderTicks_bounded P m d s hd, ⟨ws, hlen, hout⟩, fun hk => ?_⟩
  have hdepth : t.out.depth = some d := (congrArg Stream.depth hout).trans hd
  have hwords : t.out.words = s.out.words ++ ws := congrArg Stream.words hout
  rw [Stream.full_of_depth hdepth, decide_eq_true_eq, hwords, List.length_append, hlen]
  omega

end

end Sys2Proof.Machine

namespace Sys2Proof.Proofs

open Sys2Proof.Machine

/-- Settles O38: with one port ready the step is that port's, with both the draw decides, and what a port performs is read off its words. -/
theorem stepPerforms : Obligations.StepPerforms := by
  unfold Obligations.StepPerforms
  refine ⟨fun s hh => ⟨?cmd, ?ctl, ?both, stepOf_idle hh, fun h0 hroom hctl => stepOf_resumes hh h0 hroom hctl, cmdReady_iff, performable_iff⟩,
    fun i s => by rw [exec_eq_execWith], fun s => by rw [step_eq_stepWith], reset_eq_resetWith⟩
  case cmd =>
    intro i rest hd hhold h0 hctl
    exact (stepOf_cmd_alone hh h0 (by rw [cmdReady_of_ok h0 hd, hhold, Bool.not_false]) hctl).trans (stepPort_of_ok hd)
  case ctl =>
    intro i rest hd hhold hcmd
    exact (stepOf_ctl_alone hh hcmd (by rw [ctlReady_of_ok hd, hhold, Bool.not_false])).trans (stepPort_of_ok hd)
  case both =>
    intro hcmd hctl u
    split <;> rename_i hturn
    · have hstep := stepOf_both_ctl (P := params) (run := exec) hh hcmd hctl hturn
      exact ⟨fun j rest hd => hstep.trans (stepPort_of_ok hd), fun rest hd => hstep.trans (stepPort_of_illegal (s := u) hd)⟩
    · have hstep := stepOf_both_cmd (P := params) (run := exec) hh hcmd hctl hturn
      exact ⟨stepOf_both_resumes hh hcmd hctl hturn, fun i rest h0 hd => (hstep h0).trans (stepPort_of_ok hd),
        fun rest h0 hd => (hstep h0).trans (stepPort_of_illegal (s := u) hd)⟩

/-- Settles O39: the code decodes or not, by the three tables; only a bank that is handed a code can refuse. -/
theorem selectorStep : Obligations.SelectorStep := by
  unfold Obligations.SelectorStep
  refine ⟨fun s b w hh => ⟨fun i hi => stepOf_selector hh hi, fun hi => stepOf_reserved hh hi⟩,
    fun c => ⟨decodeWave_eq_none_iff, decodeEffect_eq_none_iff, decodeFilter_eq_none_iff⟩, fun s => ?_⟩
  rcases hh : s.handed with _ | ⟨b, w⟩
  · exact .inl (step_next_of_handed_none hh)
  · rcases hi : decodeSelector b w.toNat with _ | i
    · exact .inr ⟨b, w, rfl, hi⟩
    · obtain ⟨t, ht⟩ := exec_next i { s with handed := none }
      exact .inl ⟨t, (stepOf_selector hh hi).trans ht⟩

/-- Settles O12: a GET that holds is not ready, and the loop of a RENDER runs the ticks that `OUT` has room for. -/
theorem outputHolds : Obligations.OutputHolds := by
  unfold Obligations.OutputHolds
  refine ⟨fun s hfull i hi => ⟨?response, fun rest hh h0 hctl hd => ?heldResponse⟩,
    fun s hfull => ⟨congrArg Host.Outcome.next (State.respondCtl_of_full hfull s.knob), fun rest hh hcmd hd => ?heldKnob⟩,
    fun m d s hrate hdepth => ?render, fun d s hdepth hroom h0 hh hctl => ?resumed⟩
  case response =>
    obtain ⟨w, hw⟩ := exec_responder hi s
    rw [hw, State.respond_of_full hfull]
  case heldResponse =>
    exact stepOf_idle hh (by rw [cmdReady_of_ok h0 hd, holds_responder hi, hfull, Bool.not_true]) hctl
  case heldKnob =>
    refine stepOf_idle hh hcmd ?_
    rw [ctlReady_of_ok hd, holds, hfull, Bool.not_true]
  case render =>
    intro k t
    obtain ⟨hticks, hwords, hfull⟩ := renderTicks_holds params m d { s with knobSnap := s.knob } hdepth
    refine ⟨congrArg Host.Outcome.next ((render_of_rate params m hrate).trans hticks), hwords, fun hk => ⟨hfull hk, fun hh hctl => ?_⟩⟩
    have howed : t.renderLeft ≠ 0 := Nat.sub_ne_zero_of_lt hk
    exact stepOf_idle hh (by rw [cmdReady_of_renderLeft howed, hfull hk, Bool.not_true]) hctl
  case resumed =>
    intro k t
    obtain ⟨hticks, hwords, hfull⟩ := renderTicks_holds params s.renderLeft d s hdepth
    have hnotFull : s.out.full = false := by rw [Stream.full_of_depth hdepth]; exact decide_eq_false (by omega)
    exact ⟨(stepOf_resumes hh h0 hnotFull hctl).trans (congrArg Host.Outcome.next hticks), by omega, hwords, hfull⟩

end Sys2Proof.Proofs
end

section
/-!
PROOFS. Arithmetic (R11, R13 to R15): a result that is rounded once is the nearest one, with the sign of its exact value; the whole part and the fraction
of a value are themselves representable, so that `wrap` is exact; and the integer that `rha` takes is at most one half away.
-/

namespace Sys2Proof

/-! ### Signed magnitudes -/

theorem NUM.natAbs_signed (s : Bool) (m : Nat) : (NUM.signed s m).natAbs = m := by cases s <;> simp [NUM.signed]

theorem NUM.signed_not (s : Bool) (m : Nat) : NUM.signed (!s) m = -NUM.signed s m := by cases s <;> simp [NUM.signed]

theorem NUM.signed_mul (s t : Bool) (m n : Nat) : NUM.signed s m * NUM.signed t n = NUM.signed (s != t) (m * n) := by
  cases s <;> cases t <;> simp [NUM.signed]

theorem NUM.signed_neg_iff {m : Nat} (s : Bool) (h : m ≠ 0) : s = true ↔ NUM.signed s m < 0 := by
  cases s
  · simp [NUM.signed]
  · simpa [NUM.signed] using Nat.pos_of_ne_zero h

/-! ### The nearest result (R11) -/

/-- A rounding of an exact value in the sign of the value is the nearest. -/
theorem NUM.nearest_finish_signed (s : Bool) (p : Nat) {q : Nat} (hq : 0 < q) : NUM.Nearest (NUM.signed s p) q (NUM.finish s p q) :=
  NUM.nearest_finish hq (NUM.natAbs_signed s p) (NUM.signed_neg_iff s)

theorem NUM.add_of_zero_sum {s t : Bool} {m n : Nat} (h : NUM.signed s m + NUM.signed t n = 0) :
    (NUM.fin s m).add (.fin t n) = .fin (s && t) 0 := by
  simp only [NUM.add, Format.add, h, if_true]

theorem NUM.nearest_add (s t : Bool) (m n : Nat) :
    NUM.Nearest (NUM.signed s m + NUM.signed t n) 1 ((NUM.fin s m).add (.fin t n)) := by
  by_cases h : NUM.signed s m + NUM.signed t n = 0
  · rw [NUM.add_of_zero_sum h, h, ← NUM.finish_self (s && t) NUM.wf_zero]
    exact NUM.nearest_finish Nat.one_pos rfl (by simp)
  · simp only [NUM.add, Format.add, binary64_round, if_neg h]
    exact NUM.nearest_finish Nat.one_pos rfl fun _ => decide_eq_true_iff

theorem NUM.nearest_sub (s t : Bool) (m n : Nat) :
    NUM.Nearest (NUM.signed s m - NUM.signed t n) 1 ((NUM.fin s m).sub (.fin t n)) := by
  rw [sub_eq_add_neg, ← NUM.signed_not, NUM.sub, Format.sub]
  exact NUM.nearest_add s (!t) m n

theorem NUM.mul_fin (s t : Bool) (m n : Nat) : (NUM.fin s m).mul (.fin t n) = NUM.finish (s != t) (m * n) NUM.unit := by
  simp only [NUM.mul, Format.mul, binary64_round, binary64_unit]

theorem NUM.div_fin (s t : Bool) (m : Nat) {n : Nat} (h : n ≠ 0) :
    (NUM.fin s m).div (.fin t n) = NUM.finish (s != t) (m * NUM.unit) n := by
  simp only [NUM.div, Format.div, binary64_round, binary64_unit, if_neg h]

theorem NUM.div_fin_zero (s t : Bool) (m : Nat) : (NUM.fin s m).div (.fin t 0) = if m = 0 then .nan else .inf (s != t) := by
  simp only [NUM.div, Format.div, if_true]

/-- A finite result has the sign it was rounded in. -/
theorem NUM.sign_of_finish {s u : Bool} {p q k : Nat} (h : NUM.finish s p q = .fin u k) : u = s := by
  obtain ⟨-, e⟩ | ⟨-, e⟩ := NUM.finish_cases s p q <;> rw [e] at h <;> cases h
  rfl

theorem NUM.sign_of_div {s t u : Bool} {m n k : Nat} (h : (NUM.fin s m).div (.fin t n) = .fin u k) : u = (s != t) := by
  by_cases hn : n = 0
  · rw [hn, NUM.div_fin_zero] at h
    split at h <;> cases h
  · rw [NUM.div_fin s t m hn] at h
    exact NUM.sign_of_finish h

/-- A NaN operand gives a NaN (R11). -/
theorem NUM.nan_operand {a b : NUM} (h : a = .nan ∨ b = .nan) : a.add b = .nan ∧ a.sub b = .nan ∧ a.mul b = .nan ∧ a.div b = .nan := by
  obtain rfl | rfl := h
  · cases b <;> simp [Format.add, Format.sub, Format.mul, Format.div, NUM.neg]
  · cases a <;> simp [Format.add, Format.sub, Format.mul, Format.div, NUM.neg]

/-! ### Whole part and fraction -/

theorem NUM.two_pow_dvd_unit {k : Nat} (h : k ≤ NUM.scale) : 2 ^ k ∣ NUM.unit := by
  rw [NUM.unit_eq]
  exact Nat.pow_dvd_pow 2 h

theorem NUM.unit_dvd_two_pow {k : Nat} (h : NUM.scale ≤ k) : NUM.unit ∣ 2 ^ k := by
  rw [NUM.unit_eq]
  exact Nat.pow_dvd_pow 2 h

theorem NUM.mag_iff {m : Nat} : NUM.Mag m ↔ 2 ^ (Nat.log2 m + 1 - 53) ∣ m ∧ m < NUM.top := by
  rw [NUM.Mag, NUM.wf_fin, NUM.roundTo_self]

/-- The fraction of a binary64 magnitude is one: its last place is no larger. -/
theorem NUM.mag_mod_unit {m : Nat} (h : NUM.Mag m) : NUM.Mag (m % NUM.unit) := by
  rw [NUM.mag_iff] at h ⊢
  obtain ⟨hdvd, htop⟩ := h
  have hle := Nat.mod_le m NUM.unit
  have hlog : Nat.log2 (m % NUM.unit) ≤ NUM.scale := by
    have hlt := Nat.mod_lt m NUM.unit_pos
    calc Nat.log2 (m % NUM.unit) ≤ Nat.log2 NUM.unit := by
          rw [Nat.log2_eq_log_two, Nat.log2_eq_log_two]
          exact Nat.log_mono_right hlt.le
      _ = NUM.scale := by rw [NUM.unit_eq, Nat.log2_two_pow]
  have hunit : 2 ^ (Nat.log2 (m % NUM.unit) + 1 - 53) ∣ NUM.unit := NUM.two_pow_dvd_unit (by omega)
  exact ⟨(Nat.dvd_mod_iff hunit).mpr ((NUM.ulp_mono hle).trans hdvd), by omega⟩

/-- The whole part of a binary64 magnitude is one: either its last place divides 1, or it has no fraction. -/
theorem NUM.mag_whole {m : Nat} (h : NUM.Mag m) : NUM.Mag (m / NUM.unit * NUM.unit) := by
  have hle := Nat.div_mul_le_self m NUM.unit
  rcases le_total (Nat.log2 (m / NUM.unit * NUM.unit) + 1 - 53) NUM.scale with hsmall | hlarge
  · rw [NUM.mag_iff] at h ⊢
    exact ⟨(NUM.two_pow_dvd_unit hsmall).mul_left _, by omega⟩
  · have hdvd : NUM.unit ∣ m := (NUM.unit_dvd_two_pow hlarge).trans ((NUM.ulp_mono hle).trans (NUM.mag_iff.mp h).1)
    rwa [Nat.div_mul_cancel hdvd]

/-- `floor` of a value that is not negative is its whole part, exactly (R12). -/
theorem NUM.floor_fin {m : Nat} (h : NUM.Mag m) : (NUM.fin false m).floor = .fin false (m / NUM.unit * NUM.unit) := by
  have hz : NUM.signed false m / (NUM.unit : Int) = ((m / NUM.unit : Nat) : Int) := rfl
  simp only [NUM.floor, Format.floor, binary64_unit, hz]
  split
  · rename_i h0
    rw [Int.natCast_eq_zero.mp h0, Nat.zero_mul]
  · rw [Format.ofInt, binary64_round, binary64_unit, Int.natAbs_natCast, decide_eq_false (Int.natCast_nonneg _).not_gt]
    exact NUM.finish_self false (NUM.mag_whole h)

/-- `wrap` of a value that is not negative is its fraction, exactly (R14). -/
theorem NUM.wrap_fin {m : Nat} (h : NUM.Mag m) : (NUM.fin false m).wrap = .fin false (m % NUM.unit) := by
  have hz : NUM.signed false m + NUM.signed true (m / NUM.unit * NUM.unit) = ((m % NUM.unit : Nat) : Int) := by
    have hsplit := Nat.div_add_mod' m NUM.unit
    simp only [NUM.signed, if_true, Bool.false_eq_true, if_false]
    omega
  have hfloor : binary64.floor (.fin false m) = .fin false (m / NUM.unit * NUM.unit) := NUM.floor_fin h
  rw [NUM.wrap, Format.wrap, hfloor, Format.sub, NUM.neg, Bool.not_false]
  by_cases h0 : m % NUM.unit = 0
  · exact (NUM.add_of_zero_sum (by rw [hz, h0]; rfl)).trans (by rw [h0]; rfl)
  · simp only [Format.add, hz, Int.natCast_eq_zero, h0, if_false, binary64_round, Int.natAbs_natCast]
    rw [decide_eq_false (Int.natCast_nonneg _).not_gt]
    exact NUM.finish_self false (NUM.mag_mod_unit h)

theorem NUM.wrap_neg_zero : (NUM.fin true 0).wrap = .zero := by decide +kernel

/-- `wrap` of a finite binary64 value from 0 on lies in [0, 1) (R14). -/
theorem NUM.wrap_inUnit {hi : Nat} {x : NUM} (hwf : x.wf = true) (hx : NUM.Within 0 hi x) : x.wrap.inUnit = true := by
  obtain ⟨s, m, rfl, -, -, hs, -⟩ := hx.mag
  have hunit := NUM.unit_pos
  rw [NUM.inUnit_iff]
  cases s with
  | true =>
    rw [hs rfl, NUM.wrap_neg_zero]
    exact NUM.within_fin false (fun _ => rfl) le_rfl (Nat.zero_le _)
  | false =>
    rw [NUM.wrap_fin hwf]
    exact NUM.within_fin false (by simp) (Nat.zero_le _) (Nat.le_sub_one_of_lt (Nat.mod_lt m hunit))

/-- The difference of a finite value and its floor is no NaN. -/
theorem NUM.sub_floor_ne_nan (s : Bool) (m : Nat) : (NUM.fin s m).sub (NUM.fin s m).floor ≠ .nan := by
  have hfin : ∀ x : NUM, x ≠ .nan → (NUM.fin s m).sub x ≠ .nan := by
    intro x hx
    cases x with
    | nan => exact absurd rfl hx
    | inf t => simp [Format.sub, Format.add, NUM.neg]
    | fin t n =>
      have hnear := NUM.nearest_sub s t m n
      intro hnan
      rw [hnan] at hnear
      exact hnear
  refine hfin _ ?_
  simp only [NUM.floor, Format.floor]
  split
  · simp
  · rw [Format.ofInt, binary64_round]
    obtain ⟨-, e⟩ | ⟨-, e⟩ := NUM.finish_cases (decide (NUM.signed s m / (binary64.unit : Int) < 0))
      ((NUM.signed s m / (binary64.unit : Int)).natAbs * binary64.unit) 1 <;> rw [e] <;> simp

/-! ### Half away from zero -/

/-- Half up, `m` lies from one half below to less than one half above its integer `k`, in units `u`; so no integer is nearer, and of two that are as near
`k` is the larger in size. -/
theorem half_up_nearest {u m k : Int} (hu : 0 < u) (hm : 0 ≤ m) (hlo : 2 * (k * u) ≤ 2 * m + u) (hhi : 2 * m < 2 * (k * u) + u) (y : Int) :
    (k * u - m).natAbs ≤ (y * u - m).natAbs ∧ ((k * u - m).natAbs = (y * u - m).natAbs → y.natAbs ≤ k.natAbs) := by
  rcases lt_trichotomy y k with h | rfl | h
  · have hgap : y * u + u ≤ k * u := by nlinarith
    refine ⟨by omega, fun htie => ?_⟩
    have hy : y = k - 1 := mul_right_cancel₀ hu.ne' (by rw [sub_one_mul]; omega)
    have hk : 0 < k := pos_of_mul_pos_left (show 0 < k * u by omega) hu.le
    omega
  · exact ⟨le_rfl, fun _ => le_rfl⟩
  · have hgap : k * u + u ≤ y * u := by nlinarith
    exact ⟨by omega, fun htie => by omega⟩

/-- The integer `rha` takes of a magnitude is nearest, and of two the larger (R15). -/
theorem NUM.rhaInt?_nearest (s : Bool) (m : Nat) : ∃ k : Nat, (NUM.fin s m).rhaInt? = some (NUM.signed s k) ∧
    ∀ y : Int, (NUM.signed s k * NUM.unit - NUM.signed s m).natAbs ≤ (y * NUM.unit - NUM.signed s m).natAbs ∧
      ((NUM.signed s k * NUM.unit - NUM.signed s m).natAbs = (y * NUM.unit - NUM.signed s m).natAbs → y.natAbs ≤ (NUM.signed s k).natAbs) := by
  have hunit := NUM.unit_pos
  have hdiv := Nat.div_add_mod' m NUM.unit
  have hmod := Nat.mod_lt m hunit
  obtain ⟨k, hk, hlo, hhi⟩ : ∃ k, (NUM.fin s m).rhaInt? = some (NUM.signed s k) ∧ 2 * (k * NUM.unit) ≤ 2 * m + NUM.unit ∧
      2 * m < 2 * (k * NUM.unit) + NUM.unit := by
    simp only [NUM.rhaInt?, Format.rhaInt?, binary64_unit]
    split
    · have hup := Nat.add_one_mul (m / NUM.unit) NUM.unit
      exact ⟨_, rfl, by omega, by omega⟩
    · exact ⟨_, rfl, by omega, by omega⟩
  refine ⟨k, hk, fun y => ?_⟩
  have hnear := half_up_nearest (u := NUM.unit) (m := m) (k := k) (by omega) (by omega) (by exact_mod_cast hlo) (by exact_mod_cast hhi)
  cases s with
  | false => exact hnear y
  | true =>
    have hmirror : ∀ a : Int, (a * NUM.unit - -(m : Int)).natAbs = (-a * NUM.unit - m).natAbs := fun a => by rw [neg_mul]; omega
    simpa only [NUM.signed, if_true, hmirror, neg_neg, Int.natAbs_neg] using hnear (-y)

end Sys2Proof

namespace Sys2Proof.Proofs

/-- Settles O43: the guard's NaN test is idle on a finite value, and `wrap` subtracts an exact whole part. -/
theorem fractionalParts : Obligations.FractionalParts := by
  unfold Obligations.FractionalParts
  refine ⟨by decide +kernel, fun neg m hwf => ⟨?guard, NUM.fr_inUnit hwf⟩, fun m hwf => ⟨NUM.wrap_fin hwf, ?range⟩, NUM.wrap_neg_zero⟩
  case guard => simp only [NUM.fr, Format.fr, NUM.sub_floor_ne_nan, decide_false, Bool.false_or]
  case range => exact NUM.wrap_inUnit hwf (NUM.within_fin false (by simp) (Nat.zero_le m) le_rfl)

/-- Settles O44: on the magnitude `rha` is half up, and the sign mirrors it. -/
theorem roundHalfAway : Obligations.RoundHalfAway := by
  unfold Obligations.RoundHalfAway
  intro neg m
  obtain ⟨k, hk, hnear⟩ := NUM.rhaInt?_nearest neg m
  refine ⟨NUM.signed neg k, hk, ?_, fun y => (hnear y).1, fun y => (hnear y).2⟩
  simp only [NUM.rha, Format.rha, show binary64.rhaInt? (.fin neg m) = _ from hk]

/-- Settles O46: of finite operands each operation is one rounding of the exact result; the rest is by cases. -/
theorem nearestBinary64 : Obligations.NearestBinary64 := by
  unfold Obligations.NearestBinary64
  refine ⟨fun s t m n => ⟨NUM.nearest_add s t m n, NUM.nearest_sub s t m n, ?product, ?quotient, NUM.add_of_zero_sum, ?signOfProduct,
    fun u k => NUM.sign_of_div, NUM.div_fin_zero s t m⟩, fun a b => NUM.nan_operand, fun s t n => ?infinities⟩
  case product =>
    rw [NUM.signed_mul, NUM.mul_fin]
    exact NUM.nearest_finish_signed _ _ NUM.unit_pos
  case quotient =>
    intro hn
    rw [NUM.div_fin s t m hn]
    exact NUM.nearest_finish_signed _ _ (Nat.pos_of_ne_zero hn)
  case signOfProduct =>
    intro u k h
    rw [NUM.mul_fin] at h
    exact NUM.sign_of_finish h
  case infinities =>
    cases s <;> cases t <;> simp [Format.add, Format.sub, Format.mul, Format.div, NUM.neg]

end Sys2Proof.Proofs
end

section
/-!
PROOFS. What a step may change of the registers, said once: `Change` has a constructor for each way a step can write a register that an invariant
speaks of, and an invariant that every `Change` keeps is kept by every step. `TickStable` does the same for the parts of a tick and the loop of a RENDER.
-/

namespace Sys2Proof.Machine

section

variable {P : Params} {s t : State} {i : Instr}

/-! ### The operations of the banks -/

/-- A code that a bank decodes names a wave, an effect or a filter (R121 to R123). -/
theorem decodeSelector_instr {b : Bank} {c : Nat} (h : decodeSelector b c = some i) :
    (∃ w, i = Wave.instr w) ∨ (∃ e, i = Effect.instr e) ∨ ∃ f, i = Filter.instr f := by
  cases b
  case wave =>
    simp only [decodeSelector, decodeWave] at h
    exact .inl ⟨Wave.ofMod c, by split at h <;> cases h <;> rfl⟩
  case effect =>
    simp only [decodeSelector, decodeEffect] at h
    exact .inr (.inl ⟨Effect.ofMod c, by split at h <;> cases h <;> rfl⟩)
  case filter =>
    simp only [decodeSelector, decodeFilter] at h
    exact .inr (.inr ⟨Filter.ofMod c, by split at h <;> cases h <;> rfl⟩)

theorem execWith_waveInstr (P : Params) (w : Wave) (s : State) : execWith P w.instr s = .next (waveStage P w s) := by
  cases w <;> rfl

theorem execWith_filterInstr (P : Params) (f : Filter) (s : State) : execWith P f.instr s = .next (filterStage P f s) := by
  cases f <;> rfl

/-! ### The flags -/

/-- An instruction keeps the flags, or raises one, or is one of the two that clear them (R63, R330, R331, R368). -/
theorem execWith_err (h : execWith P i s = .next t) :
    t.err = s.err ∨ (∃ f : ErrFlag, t.err = s.err ||| f.mask) ∨ (t.err = 0 ∧ (i = .clearErr ∨ i = .reset)) := by
  cases i <;> obtain rfl := Host.Outcome.next.inj h
  case noteOn n d =>
    rcases Nat.lt_or_ge n 128 with hn | hn
    · exact .inl (by rw [noteOn_of_lt P hn]; rfl)
    · exact .inr (.inl ⟨.badNote, by rw [noteOn_of_le P hn]; rfl⟩)
  case noteOff n =>
    rcases Nat.lt_or_ge n 128 with hn | hn
    · exact .inl (by rw [noteOff_of_lt hn]; split <;> rfl)
    · exact .inr (.inl ⟨.badNote, by rw [noteOff_of_le hn]; rfl⟩)
  case setRate d =>
    by_cases hbad : badRate P (P.num.ofBits32 d) = true
    · exact .inr (.inl ⟨.badRate, by rw [setRate_of_bad hbad]; rfl⟩)
    · exact .inl (by rw [setRate_of_good hbad]; rfl)
  case render m =>
    by_cases hrate : s.rateValid = true
    · obtain ⟨_, _, _, _, _, hticks, -⟩ := renderTicks_frame P m { s with knobSnap := s.knob }
      exact .inl (by rw [render_of_rate P m hrate, hticks])
    · exact .inr (.inl ⟨.noRate, by rw [render_of_no_rate P m (Bool.eq_false_of_not_eq_true hrate)]; rfl⟩)
  case clearErr => exact .inr (.inr ⟨rfl, .inl rfl⟩)
  case reset => exact .inr (.inr ⟨rfl, .inr rfl⟩)
  case getActiveNote | getWaveType | getWeirdType | getFilterType | getStatus => exact .inl (State.respond_err ..)
  case getKnob => exact .inl (State.respondCtl_err ..)
  case wCrackle => exact .inl (by unfold waveCrackle; split <;> rfl)
  case eGlitcher => exact .inl (by unfold effectGlitcher; dsimp only; split <;> rfl)
  case eGranular => exact .inl (effectGranular_eq P s ▸ rfl)
  all_goals exact .inl rfl

/-- An operation of a bank raises and clears no flag. -/
theorem execWith_err_of_selector {b : Bank} {c : Nat} (hi : decodeSelector b c = some i) (h : execWith P i s = .next t) :
    t.err = s.err ∨ ∃ f : ErrFlag, t.err = s.err ||| f.mask := by
  obtain hkept | hraised | ⟨-, rfl | rfl⟩ := execWith_err h
  · exact .inl hkept
  · exact .inr hraised
  all_goals exact absurd (decodeSelector_eq_some hi).2.1 (by simp [Instr.source])

/-! ### The state without what no invariant speaks of -/

/-- The state with the knobs, the flags, the streams, the waiting words, `GRAIN_RESET` and the counts of draws cleared: no invariant speaks of these. -/
def State.bare (s : State) : State :=
  { s with
    knob := 0, knobSnap := 0, err := 0, out := State.reset.out, rsp := State.reset.rsp, crsp := State.reset.crsp, cmd := [], ctl := []
    wires := { s.wires with grainReset := false }, draws := 0, turns := 0 }

/-- What speaks of the bare state alone passes from a state to any other that differs in nothing else. -/
theorem of_bare_eq {I : State → Prop} (hbare : ∀ s, I s ↔ I s.bare) (h : s.bare = t.bare) (hs : I s) : I t :=
  (hbare t).mpr (h ▸ (hbare s).mp hs)

theorem State.bare_setWaiting (p : Port) (ws : List Word) (s : State) : (s.setWaiting p ws).bare = s.bare := by cases p <;> rfl

theorem bare_afterTurn (s : State) : (afterTurn s).bare = s.bare := by
  unfold afterTurn
  split <;> rfl

theorem State.bare_respond (w : Word) (s : State) : (s.respond w).bare = s.bare := by
  unfold State.respond
  split <;> rfl

theorem State.bare_respondCtl (w : Word) (s : State) : (s.respondCtl w).bare = s.bare := by
  unfold State.respondCtl
  split <;> rfl

theorem bare_emitSample (P : Params) (v : NUM) (s : State) : (s.emitSample P v).bare = s.bare := by
  obtain ⟨_, h⟩ := State.emitSample_eq P v s
  rw [h]
  rfl

/-! ### What a step may change -/

/-- An effect's instruction differs from its stage in `GRAIN_RESET` alone, which the stage clears first (R220). -/
theorem execWith_effectInstr (P : Params) (e : Effect) (s : State) :
    ∃ u, execWith P e.instr s = .next u ∧ u.bare = (effectStage P e s).bare := by
  cases e <;> refine ⟨_, rfl, ?_⟩
  case glitcher =>
    rw [effectStage]
    rcases Nat.lt_or_ge (s.voice.glitchCnt + 1) s.gp with h | h
    · rw [effectGlitcher_counting P s h, effectGlitcher_counting P (s.setWires _)]
      exacts [rfl, h]
    · rw [effectGlitcher_evaluating P s h, effectGlitcher_evaluating P (s.setWires _)]
      exacts [rfl, h]
  case granular =>
    rw [effectStage, effectGranular_eq, effectGranular_eq]
    rfl
  all_goals rfl

/-- The bare state with the rate of `data` taken (R323). -/
def State.withRate (P : Params) (data : Word) (s : State) : State :=
  { s with
    fs := P.num.ofBits32 data
    rateValid := true
    dlLen := delayLength P (P.num.ofBits32 data)
    gp := glitchPeriod P (P.num.ofBits32 data) }

/-- The ways a step can write the registers, one for each operation of a bank and each command that writes any: from a state to the state after it. -/
inductive Change (P : Params) (s : State) : State → Prop
  | kept : Change P s s
  | wave (w : Wave) : s.handed ≠ none → Change P s (waveStage P w { s with handed := none })
  | effect (e : Effect) : s.handed ≠ none → Change P s (effectStage P e { s with handed := none })
  | filter (f : Filter) : s.handed ≠ none → Change P s (filterStage P f { s with handed := none })
  | silence : Change P s s.voiceReset
  | note (n : Fin 128) (data : Word) : Change P s (s.voiceReset.setVoice (captureNote P n data s.voiceReset.voice))
  | release : s.voice.active ≠ none → Change P s (s.setVoice { s.voice with vstate := .releasing })
  | rate (data : Word) : badRate P (P.num.ofBits32 data) = false → s.renderLeft = 0 → Change P s (s.withRate P data).voiceReset
  | ticks (m : Nat) : s.rateValid = true ∨ s.renderLeft ≠ 0 → Change P s (renderTicks P m s)
  | powerOn : s.handed = none → Change P s (powerOn s)

/-- Up to what no invariant speaks of, `t` is `s` after one of the changes. -/
def Changes (P : Params) (s t : State) : Prop := ∃ u v, u.bare = s.bare ∧ Change P u v ∧ v.bare = t.bare

theorem Changes.of_bare_eq (h : t.bare = s.bare) : Changes P s t := ⟨s, s, rfl, .kept, h.symm⟩

theorem Changes.of_change (h : Change P s t) : Changes P s t := ⟨s, t, rfl, h, rfl⟩

theorem Changes.from_bare {u : State} (hu : u.bare = s.bare) (h : Changes P u t) : Changes P s t := by
  obtain ⟨u', v, hu', hchange, hv⟩ := h
  exact ⟨u', v, hu'.trans hu, hchange, hv⟩

theorem noteOn_changes (P : Params) (n : Nat) (d : Word) (s : State) : Changes P s (noteOn P n d s) := by
  rcases Nat.lt_or_ge n 128 with hn | hn
  · rw [noteOn_of_lt P hn]
    exact .of_change (.note ⟨n, hn⟩ d)
  · rw [noteOn_of_le P hn]
    exact ⟨s, s.voiceReset, rfl, .silence, rfl⟩

theorem noteOff_changes (P : Params) (n : Nat) (s : State) : Changes P s (noteOff n s) := by
  rcases Nat.lt_or_ge n 128 with hn | hn
  · rw [noteOff_of_lt hn]
    split
    · rename_i h
      exact .of_change (.release (by simp [h.2]))
    · exact .of_bare_eq rfl
  · rw [noteOff_of_le hn]
    exact .of_bare_eq rfl

theorem setRate_changes (d : Word) (h0 : s.renderLeft = 0) : Changes P s (setRate P d s) := by
  by_cases hbad : badRate P (P.num.ofBits32 d) = true
  · rw [setRate_of_bad hbad]
    exact .of_bare_eq rfl
  · rw [setRate_of_good hbad]
    exact .of_change (.rate d (Bool.eq_false_of_not_eq_true hbad) h0)

theorem render_changes (P : Params) (m : Nat) (s : State) : Changes P s (render P m s) := by
  by_cases hrate : s.rateValid = true
  · rw [render_of_rate P m hrate]
    exact .from_bare (u := { s with knobSnap := s.knob }) rfl (.of_change (.ticks m (.inl hrate)))
  · rw [render_of_no_rate P m (Bool.eq_false_of_not_eq_true hrate)]
    exact .of_bare_eq rfl

/-- A port's command, while no bank is handed a code, and a SET_RATE while no ticks are owed (R399). -/
theorem execWith_changes {p : Port} (hsource : i.source = .port p) (hh : s.handed = none) (h0 : p = .cmd → s.renderLeft = 0)
    (h : execWith P i s = .next t) : Changes P s t := by
  cases i <;> cases hsource <;> obtain rfl := Host.Outcome.next.inj h
  case noteOn n d => exact noteOn_changes P n d s
  case noteOff n => exact noteOff_changes P n s
  case setRate d => exact setRate_changes d (h0 rfl)
  case render m => exact render_changes P m s
  case reset => exact .of_change (.powerOn hh)
  case getActiveNote | getWaveType | getWeirdType | getFilterType | getStatus => exact .of_bare_eq (State.bare_respond ..)
  case getKnob => exact .of_bare_eq (State.bare_respondCtl ..)
  case clearErr | setKnob => exact .of_bare_eq rfl

/-- The operation of a bank that was handed a code. -/
theorem execWith_changes_of_selector {b : Bank} {c : Nat} (hi : decodeSelector b c = some i) (hh : s.handed ≠ none)
    (h : execWith P i { s with handed := none } = .next t) : Changes P s t := by
  obtain ⟨w, rfl⟩ | ⟨e, rfl⟩ | ⟨f, rfl⟩ := decodeSelector_instr hi
  · rw [execWith_waveInstr] at h
    cases h
    exact .of_change (.wave w hh)
  · obtain ⟨u, hu, hbare⟩ := execWith_effectInstr P e { s with handed := none }
    rw [hu] at h
    cases h
    exact ⟨s, _, rfl, .effect e hh, hbare.symm⟩
  · rw [execWith_filterInstr] at h
    cases h
    exact .of_change (.filter f hh)

/-- Every step changes the registers in one of those ways. -/
theorem stepWith_changes (h : stepWith P s = .next t) : Changes P s t := by
  have hturn := bare_afterTurn s
  obtain rfl | ⟨sel, i, hh, hi, hrun⟩ | ⟨hh, ⟨p, rest, -, rfl⟩ | ⟨p, i, rest, hd, h0, hrun⟩ | ⟨hleft, rfl⟩⟩ := stepOf_cases h
  · exact .of_bare_eq rfl
  · exact execWith_changes_of_selector hi (by simp [hh]) hrun
  · exact .of_bare_eq ((State.bare_setWaiting p rest (afterTurn s)).trans hturn)
  · have hu := (State.bare_setWaiting p rest (afterTurn s)).trans hturn
    have hhanded : ((afterTurn s).setWaiting p rest).handed = none := (congrArg State.handed hu).trans hh
    have howed (hp : p = .cmd) : ((afterTurn s).setWaiting p rest).renderLeft = 0 := (congrArg State.renderLeft hu).trans (h0 hp)
    exact .from_bare hu (execWith_changes (decode_reads hd).source hhanded howed hrun)
  · exact .from_bare (u := afterTurn s) hturn (.of_change (.ticks _ (.inr (by rwa [afterTurn_renderLeft]))))

/-- What every change keeps, every step keeps. -/
theorem stepWith_keeps {I : State → Prop} (hbare : ∀ s, I s ↔ I s.bare) (hchange : ∀ s t, I s → Change P s t → I t)
    (hs : I s) (h : stepWith P s = .next t) : I t := by
  obtain ⟨u, v, hu, huv, hv⟩ := stepWith_changes h
  exact of_bare_eq hbare hv (hchange u v (of_bare_eq hbare hu.symm hs) huv)

end

/-! ### What a tick may change -/

/-- Every part of a tick keeps `J`, and `J` speaks of the bare state without the ticks owed. -/
structure TickStable (P : Params) (J : State → Prop) : Prop where
  bare : ∀ s, J s ↔ J s.bare
  owed : ∀ k s, J s → J { s with renderLeft := k }
  idle : ∀ s, J s → J (s.setWires Wires.idle)
  envelope : ∀ s, J s → J (s.setVoice (envelopeStep P s.fs s.voice))
  wave : ∀ w s, J s → J (waveStage P w s)
  effect : ∀ e s, J s → J (effectStage P e s)
  filter : ∀ f s, J s → J (filterStage P f s)
  phases : ∀ g s, J s → J (s.setVoice (phaseAdvance P s.fs g s.voice))

namespace TickStable

variable {P : Params} {J : State → Prop} {s : State}

theorem soundTick (hJ : TickStable P J) (hs : J s) : J (soundTick P s) := by
  have hbanks : J (bankStages P s) := hJ.filter _ _ (hJ.effect _ _ (hJ.wave _ _ hs))
  exact of_bare_eq hJ.bare (bare_emitSample ..).symm (hJ.idle _ (hJ.phases _ _ hbanks))

theorem tick (hJ : TickStable P J) (hs : J s) : J (tick P s) := by
  have henv := hJ.envelope s hs
  by_cases h : (envelopeStep P s.fs s.voice).vstate = .silent
  · rw [tick_of_silent h]
    exact of_bare_eq hJ.bare (s := s.setVoice _) rfl henv
  · rw [tick_of_not_silent h]
    exact hJ.soundTick henv

theorem renderTicks (hJ : TickStable P J) (m : Nat) (hs : J s) : J (renderTicks P m s) :=
  renderTicks_induction P J (fun _ => hJ.tick) (fun u k => hJ.owed k u) m s hs

end TickStable

end Sys2Proof.Machine

namespace Sys2Proof.Proofs

open Sys2Proof.Machine

/-- Settles O55: an illegal command raises a flag, a RENDER's ticks none, and of the commands only two clear any; these two are commands of `CMD`. -/
theorem stickyFlags : Obligations.StickyFlags := by
  unfold Obligations.StickyFlags
  intro s t h
  rw [step_eq_stepWith] at h
  obtain rfl | ⟨sel, i, -, hi, hrun⟩ | ⟨-, ⟨p, rest, -, rfl⟩ | ⟨p, i, rest, hd, -, hrun⟩ | ⟨-, rfl⟩⟩ := stepOf_cases h
  · exact .inl rfl
  · exact (execWith_err_of_selector hi hrun).imp_right .inl
  · exact .inr (.inl ⟨illegalFlag p, by cases p <;> simp [illegalCommand]⟩)
  · have herr : ((afterTurn s).setWaiting p rest).err = s.err := by cases p <;> simp
    have hcases := execWith_err hrun
    rw [herr] at hcases
    refine hcases.imp_right (.imp_right fun ⟨hzero, hclear⟩ => ⟨hzero, rest, ?_⟩)
    have hsource := (decode_reads hd).source
    obtain rfl | rfl := hclear <;> cases hsource
    · exact .inl hd
    · exact .inr hd
  · obtain ⟨_, _, _, _, _, hticks, -⟩ := renderTicks_frame params (afterTurn s).renderLeft (afterTurn s)
    exact .inl (by rw [resumeRender, hticks]; exact afterTurn_err s)

end Sys2Proof.Proofs
end

section
/-!
PROOFS. The invariants of the rate registers, the delay line and the counters (R45, R55 to R60, R375). The rate is 0 or lies from 1 to 192000.5, and from
that come the length of the delay line and the longest crackle gap; one filter writes the delay line, and one wave and one effect write the counters.
-/

namespace Sys2Proof

theorem NUM.mul_lit_one {m : Nat} (s : Bool) (h : NUM.Mag m) : (NUM.fin s m).mul (Machine.lit 1) = .fin s m := by
  rw [Machine.lit_one, NUM.mul_fin, Bool.bne_false]
  exact NUM.finish_exact s NUM.unit_pos h rfl

/-- What is rounded half up to at most `n`, in units `u`, lies below `n + 1/2`. -/
theorem double_lt_of_half_up_le {m u n : Nat} (hu : 0 < u) (h : (2 * m + u) / (2 * u) ≤ n) : 2 * m < (2 * n + 1) * u := by
  have hlt : 2 * m + u < (n + 1) * (2 * u) := (Nat.div_lt_iff_lt_mul (by omega)).mp (Nat.lt_succ_of_le h)
  have hleft : (n + 1) * (2 * u) = 2 * (n * u) + 2 * u := by ring
  have hright : (2 * n + 1) * u = 2 * (n * u) + u := by ring
  omega

/-- The integer below a value from 0 to below `n`. -/
theorem NUM.floorInt?_of_within {n hi : Nat} {x : NUM} (hx : NUM.Within 0 hi x) (h : hi < n * NUM.unit) :
    ∃ k : Nat, k < n ∧ x.floorInt? = some (k : Int) := by
  obtain ⟨s, m, rfl, -, hm, -, hsigned⟩ := hx.mag
  refine ⟨m / NUM.unit, (Nat.div_lt_iff_lt_mul NUM.unit_pos).mpr (by omega), ?_⟩
  simp only [NUM.floorInt?, Format.floorInt?, hsigned, binary64_unit]
  rfl

end Sys2Proof

namespace Sys2Proof.Machine

section

variable {P : Params} {s t : State}

/-! ### Parameters at the spec's defaults -/

/-- The parameters are the spec's defaults, with TRIG and the free values left free. -/
def Params.AtDefaults (P : Params) : Prop := ∃ T nonFinite nanBits ctlTurn, P = defaults binary64 T nonFinite nanBits ctlTurn

theorem params_atDefaults : params.AtDefaults := ⟨_, _, _, _, rfl⟩

/-! ### The rate -/

/-- The largest rate SET_RATE accepts: 192000.5, in units. -/
def rateTop : Nat := NUM.grid (384001 * 2 ^ 15)

theorem rateTop_double : 2 * rateTop = 384001 * NUM.unit := by
  rw [rateTop, NUM.unit_eq_grid, NUM.grid, NUM.grid]
  ring

theorem finite_of_good_rate (hP : P.AtDefaults) {r : NUM} (hgood : badRate P r = false) : r.isFinite = true := by
  obtain ⟨T, z, b, c, rfl⟩ := hP
  simp only [badRate, Bool.or_eq_false_iff] at hgood
  obtain ⟨⟨⟨hnan, hlow⟩, hinf⟩, -⟩ := hgood
  cases r with
  | nan => simp at hnan
  | inf neg =>
    cases neg
    · simp at hinf
    · simp [defaults, lit_one, NUM.lt] at hlow
  | fin neg m => rfl

/-- An accepted rate lies from 1 to 192000.5 (R323). -/
theorem within_of_good_rate (hP : P.AtDefaults) {r : NUM} (hgood : badRate P r = false) : NUM.Within NUM.unit rateTop r := by
  have hfin := finite_of_good_rate hP hgood
  obtain ⟨T, z, b, c, rfl⟩ := hP
  simp only [badRate, Bool.or_eq_false_iff, decide_eq_false_iff_not] at hgood
  obtain ⟨⟨⟨-, hlow⟩, -⟩, hhigh⟩ := hgood
  cases r with
  | nan => cases hfin
  | inf neg => cases hfin
  | fin neg m =>
    have hunit := NUM.unit_pos
    have hone : (NUM.unit : Int) ≤ NUM.signed neg m := by
      simpa [defaults, lit_one, NUM.lt, show ∀ n, NUM.signed false n = (n : Int) from fun _ => rfl] using hlow
    refine ⟨neg, m, rfl, hone, ?_⟩
    cases neg with
    | true => simp [NUM.signed] at hone; omega
    | false =>
      have hrha := NUM.rhaInt?_of_nonneg (s := false) (m := m) (by simp)
      have hle : (2 * m + NUM.unit) / (2 * NUM.unit) ≤ 192000 := by
        simp only [defaults, Params.rhaInt, show binary64.rhaInt? (.fin false m) = _ from hrha, Params.orFree] at hhigh
        exact_mod_cast not_lt.mp hhigh
      have hlt : 2 * m < 2 * rateTop := by
        rw [rateTop_double]
        exact double_lt_of_half_up_le hunit hle
      exact Int.ofNat_le.mpr (Nat.lt_of_mul_lt_mul_left hlt).le

theorem State.RateInvWith.of_valid (h : s.RateInvWith P) (hv : s.rateValid = true) :
    badRate P s.fs = false ∧ s.fs.isFinite = true ∧ s.dlLen = delayLength P s.fs ∧ s.gp = glitchPeriod P s.fs := by
  simpa only [State.RateInvWith, hv, if_true] using h

theorem State.RateInvWith.of_not_valid (h : s.RateInvWith P) (hv : ¬s.rateValid = true) : s.fs = .zero ∧ s.dlLen = 1 ∧ s.gp = 0 := by
  simpa only [State.RateInvWith, if_neg hv] using h

theorem State.RateInvWith.fs_within (hP : P.AtDefaults) (h : s.RateInvWith P) (hv : s.rateValid = true) :
    NUM.Within NUM.unit rateTop s.fs := within_of_good_rate hP (h.of_valid hv).1

/-- The rate is 0, or lies from 1 to 192000.5. -/
theorem State.RateInvWith.fs_cases (hP : P.AtDefaults) (h : s.RateInvWith P) : s.fs = .zero ∨ NUM.Within NUM.unit rateTop s.fs := by
  by_cases hv : s.rateValid = true
  · exact .inr (h.fs_within hP hv)
  · exact .inl (h.of_not_valid hv).1

/-- A rate that is taken brings the other rate registers with it (R323). -/
theorem withRate_rateInv (hP : P.AtDefaults) {data : Word} (hgood : badRate P (P.num.ofBits32 data) = false) (s : State) :
    (s.withRate P data).RateInvWith P := ⟨hgood, finite_of_good_rate hP hgood, rfl, rfl⟩

/-- RESET gives every register its value after power-on, and keeps nothing else that an invariant speaks of (R331). -/
theorem bare_powerOn (h : s.handed = none) : (powerOn s).bare = State.reset.bare := by
  simp only [powerOn, State.bare, h]
  rfl

theorem reset_rateInv : State.reset.RateInvWith P := ⟨rfl, rfl, rfl⟩

/-- Every step keeps the rate registers in agreement: SET_RATE writes them together. -/
theorem Change.rateInv (hP : P.AtDefaults) (hs : s.RateInvWith P) (h : Change P s t) : t.RateInvWith P := by
  cases h with
  | kept | silence | note | release => exact hs
  | wave w _ =>
    obtain ⟨_, _, _, _, hframe⟩ := waveStage_frame P w { s with handed := none }
    rw [hframe]
    exact hs
  | effect e _ =>
    obtain ⟨_, _, _, _, _, _, _, _, hframe⟩ := effectStage_frame P e { s with handed := none }
    rw [hframe]
    exact hs
  | filter f _ =>
    obtain ⟨_, _, _, _, _, _, _, _, _, hframe⟩ := filterStage_frame P f { s with handed := none }
    rw [hframe]
    exact hs
  | rate data hgood _ => exact withRate_rateInv hP hgood s
  | ticks m _ =>
    obtain ⟨_, _, _, _, _, hframe, -⟩ := renderTicks_frame P m s
    rw [hframe]
    exact hs
  | powerOn hh => exact of_bare_eq (fun _ => Iff.rfl) (bare_powerOn hh).symm reset_rateInv

end

section

variable {s t : State}

/-! ### The delay line -/

/-- The delay line of an accepted rate is not longer than the largest (R59, R89). -/
theorem delayLength_le {data : Word} (hgood : badRate params (NUM.ofBits32 data) = false) :
    delayLength params (NUM.ofBits32 data) ≤ params.delayMax := by
  have hfin := finite_of_good_rate params_atDefaults hgood
  have hwf := NUM.ofBits32_wf data
  simp only [badRate, Bool.or_eq_false_iff, decide_eq_false_iff_not, not_lt] at hgood
  obtain ⟨-, hrha⟩ := hgood
  rw [delayLength_params]
  generalize NUM.ofBits32 data = r at *
  cases r with
  | nan => cases hfin
  | inf neg => cases hfin
  | fin neg m =>
    rw [NUM.mul_lit_one neg hwf]
    exact max_le (by decide) (by omega)

theorem reset_delayInv : State.reset.DelayInv := ⟨reset_rateInv, by decide, by decide, by decide, by simp [State.reset, Voice.silentWith]⟩

/-- A voice reset leaves no valid entry and the write index at 0 (R69). -/
theorem voiceReset_delayInv (hrate : s.RateInv) (hmax : s.dlLen ≤ params.delayMax) (hpos : 0 < s.dlLen)
    (hwf : Memory.wf params.delayMax s.voice.dl = true) : s.voiceReset.DelayInv :=
  ⟨hrate, hmax, hpos, Memory.invalidate_wf hwf, fun c hc hvalid => by rw [Memory.invalidate_valid hc] at hvalid; cases hvalid⟩

/-- The comb writes at the write index, which is below `DL_LEN`, and moves it on within the line (R257). -/
theorem filterComb_delayInv (h : s.DelayInv) : (filterComb params s).DelayInv := by
  obtain ⟨hrate, hmax, hindex, hwf, hvalid⟩ := h
  refine ⟨hrate, hmax, Nat.mod_lt _ (Nat.zero_lt_of_lt hindex), Memory.write_wf hwf (hindex.trans_le hmax) _, fun c hc hcv => ?_⟩
  obtain rfl | hmem := Memory.mem_write hc
  · exact hindex
  · exact hvalid c hmem hcv

theorem delayInv_tickStable : TickStable params State.DelayInv where
  bare _ := Iff.rfl
  owed _ _ h := h
  idle _ h := h
  envelope s h := by rw [envelopeStep_eq]; exact h
  wave w s h := by
    obtain ⟨_, _, _, _, hframe⟩ := waveStage_frame params w s
    rw [hframe]
    exact h
  effect e s h := by
    obtain ⟨_, _, _, _, _, _, _, _, hframe⟩ := effectStage_frame params e s
    rw [hframe]
    exact h
  filter f s h := by
    cases f
    case comb => exact filterComb_delayInv h
    all_goals exact h
  phases _ _ h := h

theorem Change.delayInv (hs : s.DelayInv) (h : Change params s t) : t.DelayInv := by
  obtain ⟨hrate, hmax, hindex, hwf, hvalid⟩ := id hs
  cases h with
  | kept | release => exact hs
  | wave w _ => exact delayInv_tickStable.wave w _ hs
  | effect e _ => exact delayInv_tickStable.effect e _ hs
  | filter f _ => exact delayInv_tickStable.filter f _ hs
  | silence | note => exact voiceReset_delayInv hrate hmax (Nat.zero_lt_of_lt hindex) hwf
  | rate data hgood _ =>
    exact voiceReset_delayInv (withRate_rateInv params_atDefaults hgood s) (delayLength_le hgood) (Nat.lt_of_lt_of_le Nat.one_pos (le_max_left ..)) hwf
  | ticks m _ => exact delayInv_tickStable.renderTicks m hs
  | powerOn hh => exact of_bare_eq (fun _ => Iff.rfl) (bare_powerOn hh).symm reset_delayInv

/-! ### The counters -/

/-- Twice the mean gap in seconds, 0.02, is at most `1311 × 2^−16`. -/
theorem crackleMean_within : NUM.Within 0 (NUM.grid 1311) ((lit 2).mul (crackleMeanS binary64)) :=
  NUM.within_iff_le.mpr ⟨by decide +kernel, by decide +kernel⟩

/-- A gap is at most 3840 ticks (log entry 8): below the largest rate, twice the mean gap is less than 3841 ticks. -/
theorem crackleGap_le {fs u : NUM} (hfs : NUM.Within 0 rateTop fs) (hu : NUM.Within 0 NUM.unit u) : crackleGap params fs u ≤ 3840 := by
  have hmag : NUM.Mag (NUM.grid (3841 * 2 ^ 16 - 1)) := NUM.mag_grid (by norm_num)
  have hlt : NUM.grid (3841 * 2 ^ 16 - 1) < 3841 * NUM.unit := by
    rw [NUM.unit_eq_grid, NUM.grid, NUM.grid, ← Nat.mul_assoc]
    exact Nat.mul_lt_mul_of_pos_right (by norm_num) (Nat.two_pow_pos _)
  have hmean : NUM.Within 0 (NUM.grid (3841 * 2 ^ 16 - 1)) (((lit 2).mul (crackleMeanS binary64)).mul fs) := by
    refine NUM.within_mul crackleMean_within hfs NUM.mag_zero hmag (by simp) ?_
    rw [rateTop, NUM.unit_eq_grid]
    exact NUM.grid_mul_le (by norm_num)
  have hgap := NUM.within_mul hu hmean NUM.mag_zero hmag (by simp) (by rw [Nat.mul_comm])
  obtain ⟨k, hk, hfloor⟩ := NUM.floorInt?_of_within hgap hlt
  have hint : params.floorInt (u.mul (((lit 2).mul (crackleMeanS binary64)).mul fs)) = k := by
    rw [Params.floorInt, show params.num.floorInt? _ = _ from hfloor, Params.orFree]
  change (params.floorInt (u.mul (((lit 2).mul (crackleMeanS binary64)).mul fs))).toNat ≤ 3840
  rw [hint]
  omega

theorem drawValue_params_within_unit (r : BitVec 32) : NUM.Within 0 NUM.unit (drawValue params r) := by
  refine (drawValue_params_within r).mono le_rfl ?_
  rw [NUM.unit_eq_mul_two_pow (n := 24) (by rw [NUM.scale_eq]; norm_num)]
  exact Nat.mul_le_mul_right _ (by norm_num)

theorem reset_counterInv : State.reset.CounterInv := ⟨reset_rateInv, by decide, by decide⟩

/-- The crackle timer counts down, or takes a new gap (R194). -/
theorem waveCrackle_counterInv (h : s.CounterInv) : (waveCrackle params s).CounterInv := by
  obtain ⟨hrate, hcount, hcrackle⟩ := h
  rcases Nat.eq_zero_or_pos s.voice.crackleT with h0 | hpos
  · rw [waveCrackle_impulse params s h0]
    have hfs : NUM.Within 0 rateTop s.fs := by
      obtain h0 | hwithin := hrate.fs_cases params_atDefaults
      · rw [h0]
        exact NUM.within_fin false (fun _ => rfl) le_rfl (Nat.zero_le _)
      · exact hwithin.mono (Nat.zero_le _) le_rfl
    exact ⟨hrate, hcount, crackleGap_le hfs (drawValue_params_within_unit _)⟩
  · rw [waveCrackle_running params s hpos]
    exact ⟨hrate, hcount, (Nat.sub_le _ _).trans hcrackle⟩

/-- The glitch counter returns to 0 when it gets to `GP` (R223). -/
theorem effectGlitcher_counterInv (h : s.CounterInv) : (effectGlitcher params s).CounterInv := by
  obtain ⟨hrate, hcount, hcrackle⟩ := h
  rcases Nat.lt_or_ge (s.voice.glitchCnt + 1) s.gp with hlt | hge
  · rw [effectGlitcher_counting params s hlt]
    exact ⟨hrate, hlt.trans_le (le_max_left ..), hcrackle⟩
  · rw [effectGlitcher_evaluating params s hge]
    exact ⟨hrate, Nat.lt_of_lt_of_le Nat.one_pos (le_max_right ..), hcrackle⟩

theorem counterInv_tickStable : TickStable params State.CounterInv where
  bare _ := Iff.rfl
  owed _ _ h := h
  idle _ h := h
  envelope s h := by rw [envelopeStep_eq]; exact h
  wave w s h := by
    cases w
    case crackle => exact waveCrackle_counterInv h
    all_goals exact h
  effect e s h := by
    cases e
    case glitcher => exact effectGlitcher_counterInv (s := s.setWires _) h
    case granular => rw [effectStage, effectGranular_eq]; exact h
    all_goals exact h
  filter f s h := by
    obtain ⟨_, _, _, _, _, _, _, _, _, hframe⟩ := filterStage_frame params f s
    rw [hframe]
    exact h
  phases _ _ h := h

theorem voiceReset_counterInv (h : s.RateInv) : s.voiceReset.CounterInv :=
  ⟨h, Nat.lt_of_lt_of_le Nat.one_pos (le_max_right ..), Nat.zero_le _⟩

theorem Change.counterInv (hs : s.CounterInv) (h : Change params s t) : t.CounterInv := by
  cases h with
  | kept | release => exact hs
  | wave w _ => exact counterInv_tickStable.wave w _ hs
  | effect e _ => exact counterInv_tickStable.effect e _ hs
  | filter f _ => exact counterInv_tickStable.filter f _ hs
  | silence | note => exact voiceReset_counterInv hs.1
  | rate data hgood _ => exact voiceReset_counterInv (withRate_rateInv params_atDefaults hgood s)
  | ticks m _ => exact counterInv_tickStable.renderTicks m hs
  | powerOn hh => exact of_bare_eq (fun _ => Iff.rfl) (bare_powerOn hh).symm reset_counterInv

end

end Sys2Proof.Machine

namespace Sys2Proof.Proofs

open Sys2Proof.Machine

/-- Settles O49: only the comb writes an entry, at an index below `DL_LEN`; a voice reset clears the valid bits before `DL_LEN` can change. -/
theorem delayInvariant : Obligations.DelayInvariant := by
  unfold Obligations.DelayInvariant
  intro s t hs h
  rw [step_eq_stepWith] at h
  exact stepWith_keeps (fun _ => Iff.rfl) (fun _ _ => Change.delayInv) hs h

/-- Settles O50: the Glitcher counts below `GP`, and a gap is shorter than 3841 ticks at every accepted rate. -/
theorem counterInvariant : Obligations.CounterInvariant := by
  unfold Obligations.CounterInvariant
  intro s t hs h
  rw [step_eq_stepWith] at h
  exact stepWith_keeps (fun _ => Iff.rfl) (fun _ _ => Change.counterInv) hs h

end Sys2Proof.Proofs
end

section
/-!
PROOFS. The envelope (R70, R291, R298) and the voice invariant: the increments are not negative, and a sum or a difference with such an increment does
not cross a binary64 bound of the other operand, so that the envelope stays from 0 to 1 and moves one way.
-/

namespace Sys2Proof

/-! ### Minimum and maximum -/

theorem NUM.min_cases (a b : NUM) : a.min b = a ∨ a.min b = b := by
  unfold NUM.min
  split_ifs <;> simp

theorem NUM.max_cases (a b : NUM) : a.max b = a ∨ a.max b = b := by
  unfold NUM.max
  split_ifs <;> simp

theorem NUM.le_of_lt {a b : NUM} (h : a.lt b = true) : a.le b = true := by
  cases a with
  | nan => simp [NUM.lt] at h
  | inf s => cases b <;> simp_all [NUM.lt, NUM.le]
  | fin s m =>
    cases b with
    | nan => simp [NUM.lt] at h
    | inf t => simpa [NUM.lt, NUM.le] using h
    | fin t n =>
      simp only [NUM.lt, NUM.le, decide_eq_true_eq] at h ⊢
      omega

/-- A minimum is not above its first argument, unless that is a NaN. -/
theorem NUM.min_le_left {a : NUM} (b : NUM) (ha : a.le a = true) : (a.min b).le a = true := by
  unfold NUM.min
  split_ifs with hnan hb hlt
  · simp [hnan, NUM.le] at ha
  · exact ha
  · exact NUM.le_of_lt hlt
  · exact ha

/-- A maximum is not below its first argument, unless that is a NaN. -/
theorem NUM.le_max_left {a : NUM} (b : NUM) (ha : a.le a = true) : a.le (a.max b) = true := by
  unfold NUM.max
  split_ifs with hnan hb hlt
  · simp [hnan, NUM.le] at ha
  · exact ha
  · exact NUM.le_of_lt hlt
  · exact ha

/-! ### Bounds of one side -/

/-- The two zeros are one value in the order. -/
theorem NUM.Within.fin_le_iff {lo hi m : Nat} {s : Bool} (h : NUM.Within lo hi (.fin s m)) (y : NUM) :
    ((NUM.fin s m).le y = true ↔ (NUM.fin false m).le y = true) ∧ (y.le (.fin s m) = true ↔ y.le (.fin false m) = true) := by
  obtain ⟨s', m', heq, -, -, -, hsigned⟩ := h.mag
  cases heq
  cases y <;> simp [NUM.le, hsigned, show ∀ n, NUM.signed false n = (n : Int) from fun _ => rfl]

/-- A sum with a value from 0 on is not below a binary64 bound of the other operand. -/
theorem NUM.le_add {lo hi : Nat} {x a : NUM} (hlo : NUM.Mag lo) (hx : NUM.Within lo hi x) (ha : NUM.zero.le a = true) :
    (NUM.fin false lo).le (x.add a) = true := by
  obtain ⟨s, m, rfl, hm, -⟩ := hx
  cases a with
  | nan => simp [NUM.le, NUM.zero] at ha
  | inf t =>
    cases t <;> simp [NUM.le, NUM.zero] at ha
    simp [Format.add, NUM.le]
  | fin t n =>
    have hn : 0 ≤ NUM.signed t n := by simpa [NUM.le, NUM.zero, NUM.signed] using ha
    simp only [NUM.add, Format.add, binary64_round]
    split
    · rw [show lo = 0 by omega]
      simp [NUM.le, NUM.signed]
    · rw [decide_eq_false (by omega)]
      rcases NUM.le_finish (p := (NUM.signed s m + NUM.signed t n).natAbs) false Nat.one_pos hlo (by omega) with h | ⟨k, h, hk⟩
      · rw [h]; simp [NUM.le]
      · rw [h]; simpa [NUM.le, NUM.signed] using hk

/-- A difference with a value from 0 on is not above a binary64 bound of the other operand. -/
theorem NUM.sub_le {lo hi : Nat} {x a : NUM} (hhi : NUM.Mag hi) (hx : NUM.Within lo hi x) (ha : NUM.zero.le a = true) :
    (x.sub a).le (.fin false hi) = true := by
  obtain ⟨s, m, rfl, -, hm⟩ := hx
  cases a with
  | nan => simp [NUM.le, NUM.zero] at ha
  | inf t =>
    cases t <;> simp [NUM.le, NUM.zero] at ha
    simp [Format.sub, Format.add, NUM.neg, NUM.le]
  | fin t n =>
    have hn : 0 ≤ NUM.signed t n := by simpa [NUM.le, NUM.zero, NUM.signed] using ha
    simp only [NUM.sub, Format.sub, NUM.neg, Format.add, binary64_round, NUM.signed_not]
    split
    · simp [NUM.le, NUM.signed]
    · by_cases hneg : NUM.signed s m + -NUM.signed t n < 0
      · rw [decide_eq_true hneg]
        rcases NUM.finish_cases true (NUM.signed s m + -NUM.signed t n).natAbs 1 with ⟨-, h⟩ | ⟨-, h⟩ <;> rw [h]
        · simp [NUM.le, NUM.signed]
        · simp [NUM.le]
      · rw [decide_eq_false hneg]
        obtain ⟨k, h, hk⟩ := NUM.finish_le (p := (NUM.signed s m + -NUM.signed t n).natAbs) false Nat.one_pos hhi (by omega)
        rw [h]
        simpa [NUM.le, NUM.signed] using hk

/-- A quotient of a value from 0 on and a positive one is not negative. -/
theorem NUM.zero_le_div {l1 h1 l2 h2 : Nat} {x y : NUM} (hx : NUM.Within l1 h1 x) (hpos : 0 < l1) (hy : NUM.Within l2 h2 y) (hpos' : 0 < l2) :
    NUM.zero.le (x.div y) = true := by
  obtain ⟨s, m, rfl, hm, -, hs, -⟩ := hx.mag
  obtain ⟨t, n, rfl, hn, -, ht, -⟩ := hy.mag
  have hsign : ∀ b : Bool, ∀ k : Nat, 0 < k → (b = true → k = 0) → b = false := by
    intro b k hk hb
    cases b
    · rfl
    · exact absurd (hb rfl) (by omega)
  rw [hsign s m (by omega) hs, hsign t n (by omega) ht, NUM.div_fin _ _ _ (by omega), bne_self_eq_false]
  exact NUM.zero_le_finish _ _

end Sys2Proof

namespace Sys2Proof.Machine

variable {s t : State}

/-! ### The increments -/

/-- A rate times a positive constant up to 1 is positive. -/
theorem mul_rate_within {c fs : NUM} (hc : NUM.Within (NUM.grid 1) NUM.unit c) (hfs : NUM.Within NUM.unit rateTop fs) :
    NUM.Within (NUM.grid 1) rateTop (c.mul fs) :=
  NUM.within_mul hc hfs (NUM.mag_grid (by norm_num)) (NUM.mag_grid (by norm_num)) le_rfl (by rw [Nat.mul_comm])

/-- The time of an increment, in ticks, gives an increment that is not negative; at no rate the increment is infinite. -/
theorem increment_nonneg {c fs : NUM} (hc : NUM.Within (NUM.grid 1) NUM.unit c) (hzero : NUM.one.div (c.mul .zero) = .inf false)
    (hfs : fs = .zero ∨ NUM.Within NUM.unit rateTop fs) : NUM.zero.le (NUM.one.div (c.mul fs)) = true := by
  obtain rfl | hfs := hfs
  · rw [hzero]
    simp [NUM.le, NUM.zero]
  · have hone : NUM.Within NUM.unit NUM.unit NUM.one := NUM.within_iff_le.mpr ⟨by decide +kernel, by decide +kernel⟩
    exact NUM.zero_le_div hone NUM.unit_pos (mul_rate_within hc hfs) (Nat.mul_pos Nat.one_pos (Nat.two_pow_pos _))

theorem attackStep_nonneg {fs : NUM} (hfs : fs = .zero ∨ NUM.Within NUM.unit rateTop fs) : NUM.zero.le (attackStep binary64 fs) = true :=
  increment_nonneg (NUM.within_iff_le.mpr ⟨by decide +kernel, by decide +kernel⟩) (by decide +kernel) hfs

theorem releaseStep_nonneg {fs : NUM} (hfs : fs = .zero ∨ NUM.Within NUM.unit rateTop fs) : NUM.zero.le (releaseStep params fs) = true :=
  increment_nonneg (NUM.within_iff_le.mpr ⟨by decide +kernel, by decide +kernel⟩) (by decide +kernel) hfs

/-! ### The envelope step -/

section

variable {fs : NUM} {v : Voice} (hfs : fs = .zero ∨ NUM.Within NUM.unit rateTop fs) (henv : NUM.Within 0 NUM.unit v.env)

theorem envelopeStep_env_of_sounding (h : v.vstate = .sounding) :
    (envelopeStep params fs v).env = NUM.one.min (v.env.add (attackStep binary64 fs)) := by
  rw [envelopeStep_of_sounding h]
  rfl

theorem envelopeStep_env_of_not_sounding (h : v.vstate ≠ .sounding) :
    (envelopeStep params fs v).env = NUM.zero.max (v.env.sub (releaseStep params fs)) := by
  rcases hstate : v.vstate with _ | _ | _
  · rw [envelopeStep_of_silent hstate]
    rfl
  · exact absurd hstate h
  · cases hend : (NUM.zero.max (v.env.sub (releaseStep params fs))).isZero with
    | false =>
      rw [envelopeStep_of_releasing hstate hend]
      rfl
    | true =>
      rw [envelopeStep_of_release_end hstate hend]
      rfl

include hfs henv

/-- The envelope step stays from 0 to 1 (R70, R291). -/
theorem envelopeStep_within : NUM.Within 0 NUM.unit (envelopeStep params fs v).env := by
  rw [NUM.within_iff_le]
  by_cases h : v.vstate = .sounding
  · rw [envelopeStep_env_of_sounding h, ← binary64_one]
    refine ⟨?_, NUM.min_le_left _ (by decide +kernel)⟩
    rcases NUM.min_cases NUM.one (v.env.add (attackStep binary64 fs)) with e | e <;> rw [e]
    · decide +kernel
    · exact NUM.le_add NUM.mag_zero henv (attackStep_nonneg hfs)
  · rw [envelopeStep_env_of_not_sounding h]
    refine ⟨NUM.le_max_left _ (by decide +kernel), ?_⟩
    rcases NUM.max_cases NUM.zero (v.env.sub (releaseStep params fs)) with e | e <;> rw [e]
    · decide +kernel
    · exact NUM.sub_le NUM.mag_unit henv (releaseStep_nonneg hfs)

/-- A binary64 envelope does not fall while the note sounds (R298). -/
theorem le_envelopeStep (hwf : v.env.wf = true) (h : v.vstate = .sounding) : v.env.le (envelopeStep params fs v).env = true := by
  rw [envelopeStep_env_of_sounding h]
  rcases NUM.min_cases NUM.one (v.env.add (attackStep binary64 fs)) with e | e <;> rw [e]
  · rw [NUM.one, binary64_one]
    exact (NUM.within_iff_le.mp henv).2
  · have hnonneg := attackStep_nonneg hfs
    generalize v.env = env at *
    obtain ⟨s, m, rfl, -, -, hs, -⟩ := henv.mag
    exact ((henv.fin_le_iff _).1).mpr (NUM.le_add hwf (NUM.within_fin s hs le_rfl le_rfl) hnonneg)

/-- A binary64 envelope does not rise while the note does not sound (R298). -/
theorem envelopeStep_le (hwf : v.env.wf = true) (h : v.vstate ≠ .sounding) : (envelopeStep params fs v).env.le v.env = true := by
  rw [envelopeStep_env_of_not_sounding h]
  rcases NUM.max_cases NUM.zero (v.env.sub (releaseStep params fs)) with e | e <;> rw [e]
  · exact (NUM.within_iff_le.mp henv).1
  · have hnonneg := releaseStep_nonneg hfs
    generalize v.env = env at *
    obtain ⟨s, m, rfl, -, -, hs, -⟩ := henv.mag
    exact ((henv.fin_le_iff _).2).mpr (NUM.sub_le hwf (NUM.within_fin s hs le_rfl le_rfl) hnonneg)

end

/-! ### The voice invariant -/

/-- The voice invariant without the ticks owed, which each part of a tick keeps. -/
structure State.NoteInv (s : State) : Prop where
  rate : s.RateInv
  env : s.voice.env.inClosedUnit = true
  vel : s.voice.vel.inClosedUnit = true
  note : s.voice.vstate = .silent ↔ s.voice.active = none

theorem State.voiceInv_iff : s.VoiceInv ↔ s.NoteInv ∧ (s.renderLeft ≠ 0 → s.rateValid = true) :=
  ⟨fun ⟨hrate, henv, hvel, hnote, howed⟩ => ⟨⟨hrate, henv, hvel, hnote⟩, howed⟩,
    fun ⟨⟨hrate, henv, hvel, hnote⟩, howed⟩ => ⟨hrate, henv, hvel, hnote, howed⟩⟩

theorem zero_inClosedUnit : NUM.zero.inClosedUnit = true := by decide +kernel

theorem reset_voiceInv : State.reset.VoiceInv :=
  ⟨reset_rateInv, zero_inClosedUnit, zero_inClosedUnit, iff_of_true rfl rfl, fun h => absurd rfl h⟩

/-- The velocity is clamped (R299). -/
theorem velocity_inClosedUnit (data : Word) : (velocity params data).inClosedUnit = true :=
  NUM.inClosedUnit_iff.mpr (NUM.clamp_within_unit _)

theorem envelopeStep_noteInv (h : s.NoteInv) : (s.setVoice (envelopeStep params s.fs s.voice)).NoteInv where
  rate := h.rate
  env := NUM.inClosedUnit_iff.mpr (envelopeStep_within (h.rate.fs_cases params_atDefaults) (NUM.inClosedUnit_iff.mp h.env))
  vel := by rw [envelopeStep_eq]; exact h.vel
  note := by
    obtain ⟨hstate, hactive⟩ | ⟨-, hstate, hactive⟩ := envelopeStep_note params s.fs s.voice
    · rw [State.setVoice_voice, hstate, hactive]
      exact h.note
    · exact iff_of_true hstate hactive

theorem noteInv_tickStable : TickStable params State.NoteInv where
  bare _ := ⟨fun ⟨hrate, henv, hvel, hnote⟩ => ⟨hrate, henv, hvel, hnote⟩, fun ⟨hrate, henv, hvel, hnote⟩ => ⟨hrate, henv, hvel, hnote⟩⟩
  owed _ _ h := ⟨h.rate, h.env, h.vel, h.note⟩
  idle _ h := ⟨h.rate, h.env, h.vel, h.note⟩
  envelope _ := envelopeStep_noteInv
  wave w s h := by
    obtain ⟨_, _, _, _, hframe⟩ := waveStage_frame params w s
    rw [hframe]
    exact ⟨h.rate, h.env, h.vel, h.note⟩
  effect e s h := by
    obtain ⟨_, _, _, _, _, _, _, _, hframe⟩ := effectStage_frame params e s
    rw [hframe]
    exact ⟨h.rate, h.env, h.vel, h.note⟩
  filter f s h := by
    obtain ⟨_, _, _, _, _, _, _, _, _, hframe⟩ := filterStage_frame params f s
    rw [hframe]
    exact ⟨h.rate, h.env, h.vel, h.note⟩
  phases _ _ h := ⟨h.rate, h.env, h.vel, h.note⟩

theorem renderTicks_rateValid (P : Params) (m : Nat) (s : State) : (renderTicks P m s).rateValid = s.rateValid := by
  obtain ⟨_, _, _, _, _, hframe, -⟩ := renderTicks_frame P m s
  rw [hframe]

theorem Change.voiceInv (hs : s.VoiceInv) (h : Change params s t) : t.VoiceInv := by
  have hrate := h.rateInv params_atDefaults hs.1
  have hsplit := State.voiceInv_iff.mp hs
  obtain ⟨hnote, howed⟩ := hsplit
  have hbank : ({ s with handed := none } : State).NoteInv := ⟨hnote.rate, hnote.env, hnote.vel, hnote.note⟩
  cases h with
  | kept => exact hs
  | wave w _ =>
    refine State.voiceInv_iff.mpr ⟨noteInv_tickStable.wave w _ hbank, ?_⟩
    obtain ⟨_, _, _, _, hframe⟩ := waveStage_frame params w { s with handed := none }
    rw [hframe]
    exact howed
  | effect e _ =>
    refine State.voiceInv_iff.mpr ⟨noteInv_tickStable.effect e _ hbank, ?_⟩
    obtain ⟨_, _, _, _, _, _, _, _, hframe⟩ := effectStage_frame params e { s with handed := none }
    rw [hframe]
    exact howed
  | filter f _ =>
    refine State.voiceInv_iff.mpr ⟨noteInv_tickStable.filter f _ hbank, ?_⟩
    obtain ⟨_, _, _, _, _, _, _, _, _, hframe⟩ := filterStage_frame params f { s with handed := none }
    rw [hframe]
    exact howed
  | silence => exact ⟨hrate, zero_inClosedUnit, zero_inClosedUnit, iff_of_true rfl rfl, howed⟩
  | note n data => exact ⟨hrate, zero_inClosedUnit, velocity_inClosedUnit data, iff_of_false (by simp [captureNote]) (by simp [captureNote]), howed⟩
  | release hactive => exact ⟨hrate, hnote.env, hnote.vel, iff_of_false (by simp) hactive, howed⟩
  | rate data _ _ => exact ⟨hrate, zero_inClosedUnit, zero_inClosedUnit, iff_of_true rfl rfl, fun _ => rfl⟩
  | ticks m hgo =>
    refine State.voiceInv_iff.mpr ⟨noteInv_tickStable.renderTicks m hnote, fun _ => ?_⟩
    rw [renderTicks_rateValid]
    exact hgo.elim id howed
  | powerOn hh => exact of_bare_eq (fun _ => Iff.rfl) (bare_powerOn hh).symm reset_voiceInv

end Sys2Proof.Machine

namespace Sys2Proof.Proofs

open Sys2Proof.Machine

/-- Settles O48: the envelope step stays from 0 to 1 at every rate and at none, the velocity is clamped, and a note and its state are written together. -/
theorem voiceInvariant : Obligations.VoiceInvariant := by
  unfold Obligations.VoiceInvariant
  intro s t hs h
  rw [step_eq_stepWith] at h
  exact stepWith_keeps (fun _ => Iff.rfl) (fun _ _ => Change.voiceInv) hs h

/-- Settles O58: the envelope after a tick is that of its envelope step. -/
theorem envelopeMonotone : Obligations.EnvelopeMonotone := by
  unfold Obligations.EnvelopeMonotone
  rintro s ⟨hrate, henv, -⟩ hbinary -
  have hfs := State.RateInvWith.fs_cases params_atDefaults hrate
  have hwithin := NUM.inClosedUnit_iff.mp henv
  have hwf : s.voice.env.wf = true := hbinary _ (by simp [Voice.nums])
  obtain ⟨_, _, _, _, htick, -, -, hstep, -⟩ := tick_frame params s
  rw [htick]
  dsimp only
  rw [hstep]
  exact ⟨NUM.inClosedUnit_iff.mpr (envelopeStep_within hfs hwithin), le_envelopeStep hfs hwithin hwf, envelopeStep_le hfs hwithin hwf⟩

end Sys2Proof.Proofs
end

section
/-!
PROOFS. The phases (R70, R221, R296). An advance is `wrap` of a finite sum from 0 on, so it lies in [0, 1) whatever the phase was; what is left is that
each rate is finite and not negative, which the ranges of the table fields, of `FREQ` and, for the carrier of the ringmod filter, of the sine give.
-/

namespace Sys2Proof

/-! ### Bounds of parameters and table fields -/

/-- A closed check of a value's bounds. -/
theorem NUM.within_of_le {lo hi : Nat} {x : NUM} (h : ((NUM.fin false lo).le x && x.le (.fin false hi)) = true) : NUM.Within lo hi x :=
  NUM.within_iff_le.mpr ((Bool.and_eq_true ..).mp h)

theorem NUM.signed_false (m : Nat) : NUM.signed false m = m := rfl

theorem NUM.grid_add (a b : Nat) : NUM.grid a + NUM.grid b = NUM.grid (a + b) := (Nat.add_mul ..).symm

/-- Products on the grid, where one factor is at most `b × 2^−16`. -/
theorem NUM.within_mul_grid {a b c : Nat} {x y : NUM} (hx : NUM.Within 0 (NUM.grid a) x) (hy : NUM.Within 0 (NUM.grid b) y)
    (hc : c < 2 ^ 53) (h : a * b ≤ c * 2 ^ 16) : NUM.Within 0 (NUM.grid c) (x.mul y) :=
  NUM.within_mul hx hy NUM.mag_zero (NUM.mag_grid hc) (by simp) (by rw [NUM.unit_eq_grid]; exact NUM.grid_mul_le h)

/-- A table field `low + span × fr(x)` lies from `low` to `low + span` (R153). -/
theorem NUM.spread_within {a b c : Nat} {low span x : NUM} (hlow : NUM.Within (NUM.grid a) (NUM.grid b) low)
    (hspan : NUM.Within 0 (NUM.grid c) span) (hx : x.wf = true) (ha : a < 2 ^ 53) (hbc : b + c < 2 ^ 53) :
    NUM.Within (NUM.grid a) (NUM.grid (b + c)) (low.add (span.mul x.fr)) := by
  have hfr : NUM.Within 0 (NUM.grid (2 ^ 16)) x.fr :=
    NUM.unit_eq_grid ▸ (NUM.inUnit_iff.mp (NUM.fr_inUnit hx)).mono le_rfl (Nat.sub_le ..)
  exact NUM.within_add hlow (NUM.within_mul_grid hspan hfr (by omega) le_rfl) (NUM.mag_grid ha) (NUM.mag_grid hbc) le_rfl
    (NUM.grid_add b c).le

/-! ### The power of 2 -/

theorem NUM.le_of_not_lt {x y : NUM} (hx : x ≠ .nan) (hy : y ≠ .nan) (h : ¬x.lt y = true) : y.le x = true := by
  cases x with
  | nan => exact absurd rfl hx
  | inf s =>
    cases y with
    | nan => exact absurd rfl hy
    | inf t => cases s <;> cases t <;> simp_all [NUM.lt, NUM.le]
    | fin t n => simpa [NUM.lt, NUM.le] using h
  | fin s m =>
    cases y with
    | nan => exact absurd rfl hy
    | inf t => simpa [NUM.lt, NUM.le] using h
    | fin t n =>
      simp only [NUM.lt, NUM.le, decide_eq_true_eq] at h ⊢
      omega

/-- A clamp between two bounded values is bounded as they are. -/
theorem NUM.clamp_within {l h : Nat} {x lo hi : NUM} (hlo : NUM.Within l h lo) (hhi : NUM.Within l h hi) : NUM.Within l h (x.clamp lo hi) := by
  unfold NUM.clamp
  split_ifs with hlow hhigh
  · exact hlo
  · exact hhi
  · simp only [Bool.or_eq_true, decide_eq_true_eq, not_or] at hlow
    obtain ⟨s, m, rfl, hl, -⟩ := hlo
    obtain ⟨t, n, rfl, -, hh⟩ := hhi
    have hle := NUM.le_of_not_lt hlow.1 (by simp) hlow.2
    have hge := NUM.le_of_not_lt (by simp) hlow.1 hhigh
    cases x with
    | nan => simp at hlow
    | inf u => cases u <;> simp [NUM.le] at hle hge
    | fin u k =>
      simp only [NUM.le, decide_eq_true_eq] at hle hge
      exact ⟨u, k, rfl, by omega, by omega⟩

/-- A power of 2 up to the 5th is at most 32. -/
theorem NUM.pow2Int_within {k : Int} (h : k ≤ 5) : NUM.Within 0 (NUM.grid (32 * 2 ^ 16)) (NUM.pow2Int k) := by
  have htop : NUM.grid (32 * 2 ^ 16) = 2 ^ (21 + (NUM.scale - 16)) := by rw [NUM.grid, show 32 * 2 ^ 16 = 2 ^ 21 by norm_num, ← pow_add]
  unfold NUM.pow2Int
  split_ifs
  · exact NUM.within_fin false (fun _ => rfl) le_rfl (Nat.zero_le _)
  · omega
  · rw [htop]
    exact NUM.within_fin false (by simp) (Nat.zero_le _) (Nat.pow_le_pow_right (by norm_num) (by rw [NUM.scale_eq]; omega))

/-- The power of a finite exponent up to 5, as R12 bounds it, lies from 0 to 32. -/
theorem NUM.betweenPowers_within {s : Bool} {m : Nat} (h : NUM.signed s m ≤ 5 * NUM.unit) (x : NUM) :
    NUM.Within 0 (NUM.grid (32 * 2 ^ 16)) (NUM.betweenPowers (.fin s m) x) := by
  have hunit : (0 : Int) < NUM.unit := by exact_mod_cast NUM.unit_pos
  have hfloor : NUM.signed s m / (NUM.unit : Int) ≤ 5 := Int.le_of_lt_add_one (Int.ediv_lt_of_lt_mul hunit (by nlinarith))
  have hceil : -(-NUM.signed s m / (NUM.unit : Int)) ≤ 5 := neg_le.mp (Int.le_ediv_of_mul_le hunit (by linarith))
  simp only [NUM.betweenPowers]
  exact NUM.clamp_within (NUM.pow2Int_within hfloor) (NUM.pow2Int_within hceil)

end Sys2Proof

namespace Sys2Proof.Machine

variable {P : Params}

/-! ### TRIG -/

/-- The power of 2 of an exponent up to 5 lies from 0 to 32. -/
def Trig.PowInRange (T : Trig) : Prop := ∀ x, x.isFinite = true → x.le (lit 5) = true → NUM.Within 0 (NUM.grid (32 * 2 ^ 16)) (T.pow2 x)

/-- The sine lies from −1 to 1. -/
def Trig.SineInRange (T : Trig) : Prop := ∀ x, x.isFinite = true → NUM.one.neg.le (T.sin x) = true ∧ (T.sin x).le .one = true

theorem Trig.InRange.powInRange {T : Trig} (h : T.InRange) : T.PowInRange := fun x hfin hle =>
  NUM.within_iff_le.mpr ((lit_eq_grid (n := 32) (by norm_num)) ▸ h.2 x hfin hle)

/-- The machine's power of 2 needs no premise: R12 keeps it between the powers around its exponent. -/
theorem powInRange_freeTrig : freeTrig.PowInRange := by
  intro x hfin hle
  cases x with
  | nan => cases hfin
  | inf s => cases hfin
  | fin s m =>
    refine NUM.betweenPowers_within ?_ _
    rw [show lit 5 = .fin false (5 * NUM.unit) by decide +kernel] at hle
    simpa [NUM.le, NUM.signed] using hle

/-- The exponent of every note is finite and below 5 (R300). -/
theorem noteExponent_le (n : Fin 128) :
    ((NUM.ofInt ((n.val : Int) - refNote)).div (lit 12)).isFinite = true ∧ ((NUM.ofInt ((n.val : Int) - refNote)).div (lit 12)).le (lit 5) = true := by
  revert n
  decide +kernel

/-- A note's frequency lies from 0 to 440 × 32 Hz. -/
theorem noteFrequency_within (hP : P.AtDefaults) (hT : P.trig.PowInRange) (n : Fin 128) :
    NUM.Within 0 (NUM.grid (20000 * 2 ^ 16)) (noteFrequency P n) := by
  obtain ⟨T, z, b, c, rfl⟩ := hP
  have hpow := hT _ (noteExponent_le n).1 (noteExponent_le n).2
  have href : NUM.Within 0 (NUM.grid (440 * 2 ^ 16)) (refHz binary64) := (lit_within_grid (n := 440) (by norm_num)).mono (Nat.zero_le _) le_rfl
  exact NUM.within_mul_grid href hpow (by norm_num) (by norm_num)

/-! ### An advance -/

/-- The limit of every rate in the proofs below: `2^24` Hz, in steps of `2^−16`. -/
def rateLimit : Nat := NUM.grid (2 ^ 40)

theorem mag_rateLimit : NUM.Mag rateLimit := NUM.mag_grid (by norm_num)

theorem grid_le_rateLimit {k : Nat} (h : k ≤ 2 ^ 40) : NUM.grid k ≤ rateLimit := NUM.grid_le_grid h

/-- A phase and an increment from 0 on have a finite sum from 0 on. -/
theorem phase_add_within {phase d : NUM} (hp : phase.inUnit = true) (hd : NUM.Within 0 rateLimit d) :
    NUM.Within 0 (NUM.grid (2 ^ 16 + 2 ^ 40)) (phase.add d) := by
  have hphase : NUM.Within 0 (NUM.grid (2 ^ 16)) phase := NUM.unit_eq_grid ▸ (NUM.inUnit_iff.mp hp).mono le_rfl (Nat.sub_le ..)
  exact NUM.within_add hphase hd NUM.mag_zero (NUM.mag_grid (by norm_num)) (Nat.zero_le _) (NUM.grid_add ..).le

/-- A rate divided by a sample rate from 1 on is not larger. -/
theorem rate_div_within {rate fs : NUM} (hr : NUM.Within 0 rateLimit rate) (hfs : NUM.Within NUM.unit rateTop fs) :
    NUM.Within 0 rateLimit (rate.div fs) :=
  NUM.within_div hr hfs NUM.unit_pos NUM.mag_zero mag_rateLimit (by simp) le_rfl

theorem advance_inUnit {phase rate fs : NUM} (hp : phase.inUnit = true) (hr : NUM.Within 0 rateLimit rate)
    (hfs : NUM.Within NUM.unit rateTop fs) : (advance binary64 phase rate fs).inUnit = true :=
  NUM.wrap_inUnit (NUM.add_wf _ _) (phase_add_within hp (rate_div_within hr hfs))

/-! ### The rates -/

/-- The ratios of the phase advance to `FREQ` (R191 to R193, R296). -/
def Params.ratios (P : Params) : List NUM := [P.subRatio, P.fmRatio] ++ P.ssDetune.nums

theorem Params.ratios_within (hP : P.AtDefaults) : ∀ r ∈ P.ratios, NUM.Within 0 (NUM.grid (2 ^ 18)) r := by
  obtain ⟨T, z, b, c, rfl⟩ := hP
  have hcheck : ∀ r ∈ [dec 1 2, lit 2, dec 97 100, dec 98 100, dec 99 100, dec 100 100, dec 101 100, dec 102 100, dec 103 100],
      ((NUM.fin false 0).le r && r.le (.fin false (NUM.grid (2 ^ 18)))) = true := by decide +kernel
  exact fun r hr => NUM.within_of_le (hcheck r hr)

theorem freq_mul_within {freq r : NUM} (hf : NUM.Within 0 (NUM.grid (20000 * 2 ^ 16)) freq) (hr : NUM.Within 0 (NUM.grid (2 ^ 18)) r) :
    NUM.Within 0 rateLimit (freq.mul r) :=
  NUM.within_mul_grid hf hr (by norm_num) (by norm_num)

section

variable (hP : P.AtDefaults)

include hP

theorem wobbleRate_within (n : Fin 128) : NUM.Within 0 rateLimit (profile P n).wobbleRate := by
  obtain ⟨T, z, b, c, rfl⟩ := hP
  have hlow : NUM.Within (NUM.grid 0) (NUM.grid (2 ^ 15)) (dec 1 2) := NUM.within_of_le (by decide +kernel)
  have hspan : NUM.Within 0 (NUM.grid (20 * 2 ^ 16)) (lit 20) := NUM.within_of_le (by decide +kernel)
  exact (NUM.spread_within hlow hspan (NUM.mul_wf _ _) (by norm_num) (by norm_num)).mono (Nat.zero_le _) (grid_le_rateLimit (by norm_num))

theorem harmonicMix_within (n : Fin 128) : NUM.Within 0 (NUM.grid (2 ^ 18)) (profile P n).harmonicMix := by
  obtain ⟨T, z, b, c, rfl⟩ := hP
  have hlow : NUM.Within (NUM.grid 0) (NUM.grid (2 ^ 15)) (dec 1 2) := NUM.within_of_le (by decide +kernel)
  have hspan : NUM.Within 0 (NUM.grid (7 * 2 ^ 15)) (dec 35 10) := NUM.within_of_le (by decide +kernel)
  exact (NUM.spread_within hlow hspan (NUM.mul_wf _ _) (by norm_num) (by norm_num)).mono (Nat.zero_le _) (NUM.grid_le_grid (by norm_num))

theorem ringModFreq_within (n : Fin 128) : NUM.Within 0 rateLimit (profile P n).ringModFreq := by
  obtain ⟨T, z, b, c, rfl⟩ := hP
  have hlow : NUM.Within (NUM.grid 0) (NUM.grid (20 * 2 ^ 16)) (lit 20) := NUM.within_of_le (by decide +kernel)
  have hspan : NUM.Within 0 (NUM.grid (1980 * 2 ^ 16)) (lit 1980) := NUM.within_of_le (by decide +kernel)
  exact (NUM.spread_within hlow hspan (NUM.mul_wf _ _) (by norm_num) (by norm_num)).mono (Nat.zero_le _) (grid_le_rateLimit (by norm_num))

theorem grainSize_within (n : Fin 128) : NUM.Within (NUM.grid 1) NUM.unit (profile P n).grainSize := by
  obtain ⟨T, z, b, c, rfl⟩ := hP
  have hlow : NUM.Within (NUM.grid 1) (NUM.grid 656) (dec 1 100) := NUM.within_of_le (by decide +kernel)
  have hspan : NUM.Within 0 (NUM.grid 5899) (dec 9 100) := NUM.within_of_le (by decide +kernel)
  rw [NUM.unit_eq_grid]
  exact (NUM.spread_within hlow hspan (NUM.mul_wf _ _) (by norm_num) (by norm_num)).mono le_rfl (NUM.grid_le_grid (by norm_num))

theorem cutoff_within (n : Fin 128) (k : Nat) : NUM.Within 0 (NUM.grid (8100 * 2 ^ 16)) (knobVariant P n k).cutoff := by
  obtain ⟨T, z, b, c, rfl⟩ := hP
  have hlow : NUM.Within (NUM.grid 0) (NUM.grid (100 * 2 ^ 16)) (lit 100) := NUM.within_of_le (by decide +kernel)
  have hspan : NUM.Within 0 (NUM.grid (8000 * 2 ^ 16)) (lit 8000) := NUM.within_of_le (by decide +kernel)
  exact (NUM.spread_within hlow hspan (NUM.mul_wf _ _) (by norm_num) (by norm_num)).mono (Nat.zero_le _) (NUM.grid_le_grid (by norm_num))

end

/-- The rate of a grain, its inverse length in ticks (R228). -/
theorem grainRate_within {size fs : NUM} (hsize : NUM.Within (NUM.grid 1) NUM.unit size) (hfs : NUM.Within NUM.unit rateTop fs) :
    NUM.Within 0 rateLimit (NUM.one.div (size.mul fs)) := by
  have hone : NUM.Within 0 (NUM.grid (2 ^ 16)) NUM.one := NUM.within_of_le (by decide +kernel)
  refine NUM.within_div hone (mul_rate_within hsize hfs) (Nat.mul_pos Nat.one_pos (Nat.two_pow_pos _)) NUM.mag_zero mag_rateLimit (by simp) ?_
  rw [NUM.unit_eq_grid]
  exact NUM.grid_mul_le (by norm_num)

/-- A gain `1 + depth × y` of a depth up to one half and `y` from −1 to 1 lies from 0 to 1.5. -/
theorem sweep_within {y : NUM} (hlow : NUM.one.neg.le y = true) (hhigh : y.le .one = true) :
    NUM.Within 0 (NUM.grid (3 * 2 ^ 15)) (NUM.one.add ((dec 1 2).mul y)) := by
  rw [NUM.one, binary64_one] at hlow hhigh ⊢
  cases y with
  | nan => simp [NUM.neg, NUM.le] at hlow
  | inf t => cases t <;> simp [NUM.neg, NUM.le] at hlow hhigh
  | fin t n =>
    simp only [NUM.neg, NUM.le, decide_eq_true_eq, Bool.not_false, NUM.signed, Bool.false_eq_true, if_true, if_false] at hlow hhigh
    have hn : n ≤ NUM.unit := by cases t <;> simp at hlow hhigh <;> omega
    have hhalf : 2 * NUM.grid (2 ^ 15) = NUM.unit := by rw [NUM.unit_eq_grid, NUM.grid, NUM.grid]; ring
    obtain ⟨k, hk, hle⟩ := NUM.finish_le (p := NUM.grid (2 ^ 15) * n) (q := NUM.unit) t NUM.unit_pos (NUM.mag_grid (j := 2 ^ 15) (by norm_num))
      (Nat.mul_le_mul_left _ hn)
    have hprod : (dec 1 2).mul (.fin t n) = .fin t k := by
      rw [show dec 1 2 = .fin false (NUM.grid (2 ^ 15)) by decide +kernel, NUM.mul_fin, Bool.false_bne, hk]
    have hsigned : -(k : Int) ≤ NUM.signed t k ∧ NUM.signed t k ≤ k := by cases t <;> simp [NUM.signed]
    have htop : NUM.grid (3 * 2 ^ 15) = NUM.unit + NUM.grid (2 ^ 15) := by
      rw [NUM.unit_eq_grid, NUM.grid_add]
      exact congrArg NUM.grid (by norm_num)
    have hbounds := NUM.add_fin_bounds (s := false) (m := NUM.unit) (t := t) (n := k) (lo := 0) NUM.mag_zero
      (NUM.mag_grid (j := 3 * 2 ^ 15) (by norm_num)) (by rw [NUM.signed_false]; omega) (by rw [htop, NUM.signed_false]; omega)
    have hzero : NUM.Within 0 0 (.fin true 0) := NUM.within_fin true (fun _ => rfl) le_rfl le_rfl
    rw [hprod]
    exact NUM.within_iff_le.mpr ⟨(hzero.fin_le_iff _).1.mp hbounds.1, hbounds.2⟩

/-- The sine of a phase in [0, 1) is in range, where the sine is (R12). -/
theorem sinePhase_bounds (hP : P.AtDefaults) (hT : P.trig.SineInRange) {phase : NUM} (hp : phase.inUnit = true) :
    NUM.one.neg.le (sinePhase P phase) = true ∧ (sinePhase P phase).le .one = true := by
  obtain ⟨T, z, b, c, rfl⟩ := hP
  have hphase : NUM.Within 0 (NUM.grid (2 ^ 16)) phase := NUM.unit_eq_grid ▸ (NUM.inUnit_iff.mp hp).mono le_rfl (Nat.sub_le ..)
  have htwoPi : NUM.Within 0 (NUM.grid (7 * 2 ^ 16)) NUM.twoPi := NUM.within_of_le (by decide +kernel)
  obtain ⟨s, m, hm, -⟩ := NUM.within_mul_grid (c := 7 * 2 ^ 16) htwoPi hphase (by norm_num) (by norm_num)
  refine hT (NUM.twoPi.mul phase) ?_
  rw [hm]
  rfl

end Sys2Proof.Machine
end

section
/-!
PROOFS. The phase invariants (R70, R296). The registers are the same for every TRIG; the carrier `RMF_PH` of the ringmod filter is kept in range too where
the sine is in range, so that one proof serves the machine and the machine with TRIG as an argument.
-/

namespace Sys2Proof.Machine

variable {P : Params}

/-! ### The registers -/

/-- The phase registers but `RMF_PH` lie in [0, 1): the ten of the bank, and each LFO and carrier. -/
structure Voice.PhasesInUnit (v : Voice) : Prop where
  bank : ∀ x ∈ [v.ph, v.phSub, v.phFm] ++ v.phSs.nums, x.inUnit = true
  wobPh : v.wobPh.inUnit = true
  harmPh : v.harmPh.inUnit = true
  ringPh : v.ringPh.inUnit = true
  grainPh : v.grainPh.inUnit = true
  flfoPh : v.flfoPh.inUnit = true

theorem Voice.phasesInUnit_iff {v : Voice} : v.PhasesInUnit ↔ ∀ x ∈ v.phases, x.inUnit = true := by
  rw [Voice.phases, List.forall_mem_append]
  simp only [List.forall_mem_cons, List.not_mem_nil, false_implies, implies_true, and_true]
  exact ⟨fun h => ⟨h.bank, h.wobPh, h.harmPh, h.ringPh, h.grainPh, h.flfoPh⟩,
    fun ⟨bank, wobPh, harmPh, ringPh, grainPh, flfoPh⟩ => ⟨bank, wobPh, harmPh, ringPh, grainPh, flfoPh⟩⟩

/-- What a step keeps of the phases: the rate registers in agreement, `FREQ` in range, the phases in [0, 1), and `RMF_PH` too where `carrier` is asked for. -/
structure State.PhaseRegs (carrier : Prop) (P : Params) (s : State) : Prop where
  rate : s.RateInvWith P
  freq : NUM.Within 0 (NUM.grid (20000 * 2 ^ 16)) s.voice.freq
  phases : s.voice.PhasesInUnit
  rmfPh : carrier → s.voice.rmfPh.inUnit = true

/-- The phase invariant, of `RMF_PH` too where `carrier` is asked for. -/
def State.PhaseInvOf (carrier : Prop) (P : Params) (s : State) : Prop :=
  s.PhaseRegs carrier P ∧ (s.renderLeft ≠ 0 ∨ s.handed ≠ none → s.rateValid = true)

theorem freq_within_iff {f : NUM} : NUM.Within 0 (NUM.grid (20000 * 2 ^ 16)) f ↔ NUM.zero.le f = true ∧ f.le (lit 20000) = true := by
  rw [NUM.within_iff_le, lit_eq_grid (n := 20000) (by norm_num), NUM.zero]

theorem State.phaseInvOf_iff {carrier : Prop} {s : State} :
    s.PhaseInvOf carrier P ↔ s.PhaseInv P ∧ (carrier → s.voice.rmfPh.inUnit = true) := by
  constructor
  · rintro ⟨⟨hrate, hfreq, hphases, hcarrier⟩, howed⟩
    exact ⟨⟨hrate, howed, (freq_within_iff.mp hfreq).1, (freq_within_iff.mp hfreq).2, Voice.phasesInUnit_iff.mp hphases⟩, hcarrier⟩
  · rintro ⟨⟨hrate, howed, hlow, hhigh, hphases⟩, hcarrier⟩
    exact ⟨⟨hrate, freq_within_iff.mpr ⟨hlow, hhigh⟩, Voice.phasesInUnit_iff.mpr hphases, hcarrier⟩, howed⟩

/-! ### The phase advance -/

/-- A ratio of `FREQ` advances a phase of the bank within [0, 1) (R296). -/
theorem advance_ratio_inUnit {freq fs r phase : NUM} (hfreq : NUM.Within 0 (NUM.grid (20000 * 2 ^ 16)) freq)
    (hfs : NUM.Within NUM.unit rateTop fs) (hp : phase.inUnit = true) (hr : NUM.Within 0 (NUM.grid (2 ^ 18)) r) :
    (advance binary64 phase (freq.mul r) fs).inUnit = true := advance_inUnit hp (freq_mul_within hfreq hr) hfs

theorem zero_inUnit : NUM.zero.inUnit = true := by decide +kernel

/-- The phase advance keeps the ten phases of the bank in [0, 1), even where `FREQ` is above the rate (R296). -/
theorem phaseAdvance_inUnit (hP : P.AtDefaults) {fs : NUM} {v : Voice} (hfs : NUM.Within NUM.unit rateTop fs)
    (hfreq : NUM.Within 0 (NUM.grid (20000 * 2 ^ 16)) v.freq) (grainReset : Bool)
    (h : ∀ x ∈ [v.ph, v.phSub, v.phFm] ++ v.phSs.nums, x.inUnit = true) :
    let u := phaseAdvance P fs grainReset v
    ∀ x ∈ [u.ph, u.phSub, u.phFm] ++ u.phSs.nums, x.inUnit = true := by
  have hratios := P.ratios_within hP
  obtain ⟨T, z, b, c, rfl⟩ := hP
  simp only [Params.ratios, Seven.nums, List.cons_append, List.nil_append, List.forall_mem_cons, List.not_mem_nil, false_implies, implies_true,
    and_true] at h hratios ⊢
  obtain ⟨hsub, hfm, r0, r1, r2, r3, r4, r5, r6⟩ := hratios
  obtain ⟨hph, hphSub, hphFm, h0, h1, h2, h3, h4, h5, h6⟩ := h
  have hadvance {phase r : NUM} := advance_ratio_inUnit (phase := phase) (r := r) hfreq hfs
  refine ⟨?ph, hadvance hphSub hsub, hadvance hphFm hfm, hadvance h0 r0, hadvance h1 r1, hadvance h2 r2, hadvance h3 r3, hadvance h4 r4,
    hadvance h5 r5, hadvance h6 r6⟩
  case ph =>
    cases grainReset
    · exact advance_inUnit hph (hfreq.mono le_rfl (grid_le_rateLimit (by norm_num))) hfs
    · exact zero_inUnit

/-! ### The stages -/

section

variable {carrier : Prop} {s : State} (hP : P.AtDefaults) (h : s.PhaseRegs carrier P) (hv : s.rateValid = true)

include hP h hv

/-- An effect advances `WOB_PH`, `HARM_PH`, `RING_PH` or `GRAIN_PH`, each at a rate of the tables (R221). -/
theorem effectStage_phaseRegs (e : Effect) : (effectStage P e s).PhaseRegs carrier P := by
  have hfs := h.rate.fs_within hP hv
  have hwob := advance_inUnit h.phases.wobPh (wobbleRate_within hP s.profileNote) hfs
  have hharm := advance_inUnit h.phases.harmPh (freq_mul_within h.freq (harmonicMix_within hP s.profileNote)) hfs
  have hring := advance_inUnit h.phases.ringPh (ringModFreq_within hP s.profileNote) hfs
  have hgrain := phase_add_within h.phases.grainPh (grainRate_within (grainSize_within hP s.profileNote) hfs)
  obtain ⟨T, z, b, c, rfl⟩ := hP
  obtain ⟨hrate, hfreq, hphases, hcarrier⟩ := h
  cases e
  case wobbler => exact ⟨hrate, hfreq, { hphases with wobPh := hwob }, hcarrier⟩
  case glitcher =>
    rw [effectStage, effectGlitcher]
    split <;> exact ⟨hrate, hfreq, { hphases with }, hcarrier⟩
  case harmonizer => exact ⟨hrate, hfreq, { hphases with harmPh := hharm }, hcarrier⟩
  case reverser => exact ⟨hrate, hfreq, { hphases with }, hcarrier⟩
  case bitcrusher => exact ⟨hrate, hfreq, { hphases with }, hcarrier⟩
  case ringmod => exact ⟨hrate, hfreq, { hphases with ringPh := hring }, hcarrier⟩
  case granular =>
    rw [effectStage, effectGranular_eq]
    refine ⟨hrate, hfreq, { hphases with grainPh := ?_ }, hcarrier⟩
    dsimp only
    split
    · have hwrap := NUM.wrap_inUnit (NUM.add_wf _ _) hgrain
      rwa [NUM.wrap, Format.wrap] at hwrap
    · rename_i hle
      obtain ⟨t, m, hm, -⟩ := id hgrain
      refine (Bool.and_eq_true ..).mpr ⟨(NUM.within_iff_le.mp hgrain).1, NUM.lt_of_not_le (by simp) ?_ hle⟩
      exact fun hnan => absurd (hm.symm.trans hnan) (by simp)
  case filtersweep => exact ⟨hrate, hfreq, { hphases with wobPh := hwob }, hcarrier⟩

/-- A filter advances `FLFO_PH` at a constant rate, and the ringmod filter `RMF_PH` at a cutoff swept by a sine (R264, R265). -/
theorem filterStage_phaseRegs (hsine : carrier → P.trig.SineInRange) (f : Filter) : (filterStage P f s).PhaseRegs carrier P := by
  have hfs := h.rate.fs_within hP hv
  have hcutoff := cutoff_within hP s.profileNote (knobBucket P s.knobSnap)
  have hsweep (hc : carrier) := sinePhase_bounds hP (hsine hc) h.phases.flfoPh
  obtain ⟨T, z, b, c, rfl⟩ := hP
  obtain ⟨hrate, hfreq, hphases, hcarrier⟩ := h
  have hlfoRate : NUM.Within 0 rateLimit (dec 1 2) := NUM.within_of_le (by decide +kernel)
  have hlfo := advance_inUnit hphases.flfoPh hlfoRate hfs
  cases f
  case phaser => exact ⟨hrate, hfreq, { hphases with flfoPh := hlfo }, hcarrier⟩
  case ringmod =>
    refine ⟨hrate, hfreq, { hphases with flfoPh := hlfo }, fun hc => ?_⟩
    have hrmf := NUM.within_mul_grid (c := 2 ^ 40) hcutoff (sweep_within (hsweep hc).1 (hsweep hc).2) (by norm_num) (by norm_num)
    exact advance_inUnit (hcarrier hc) hrmf hfs
  all_goals exact ⟨hrate, hfreq, { hphases with }, hcarrier⟩

end

/-- A voice reset sets every phase and `FREQ` to 0. -/
theorem silentWith_phasesInUnit (dl : Memory) : (Voice.silentWith dl).PhasesInUnit where
  bank := by simp [Voice.silentWith, Seven.nums, zero_inUnit]
  wobPh := zero_inUnit
  harmPh := zero_inUnit
  ringPh := zero_inUnit
  grainPh := zero_inUnit
  flfoPh := zero_inUnit

theorem voiceReset_phaseRegs (carrier : Prop) {s : State} (h : s.RateInvWith P) : s.voiceReset.PhaseRegs carrier P :=
  ⟨h, NUM.within_fin false (fun _ => rfl) le_rfl (Nat.zero_le _), silentWith_phasesInUnit _, fun _ => zero_inUnit⟩

theorem reset_phaseInvOf (carrier : Prop) : State.reset.PhaseInvOf carrier P :=
  ⟨⟨reset_rateInv, NUM.within_fin false (fun _ => rfl) le_rfl (Nat.zero_le _), silentWith_phasesInUnit [], fun _ => zero_inUnit⟩,
    fun h => by simp [State.reset] at h⟩

theorem phaseRegs_tickStable {carrier : Prop} (hP : P.AtDefaults) (hsine : carrier → P.trig.SineInRange) :
    TickStable P fun s => s.PhaseRegs carrier P ∧ s.rateValid = true where
  bare _ := ⟨fun ⟨⟨hrate, hfreq, hphases, hcarrier⟩, hv⟩ => ⟨⟨hrate, hfreq, hphases, hcarrier⟩, hv⟩,
    fun ⟨⟨hrate, hfreq, hphases, hcarrier⟩, hv⟩ => ⟨⟨hrate, hfreq, hphases, hcarrier⟩, hv⟩⟩
  owed _ _ := fun ⟨⟨hrate, hfreq, hphases, hcarrier⟩, hv⟩ => ⟨⟨hrate, hfreq, hphases, hcarrier⟩, hv⟩
  idle _ := fun ⟨⟨hrate, hfreq, hphases, hcarrier⟩, hv⟩ => ⟨⟨hrate, hfreq, hphases, hcarrier⟩, hv⟩
  envelope s := fun ⟨⟨hrate, hfreq, hphases, hcarrier⟩, hv⟩ => by
    rw [envelopeStep_eq]
    exact ⟨⟨hrate, hfreq, { hphases with }, hcarrier⟩, hv⟩
  wave w s := fun ⟨⟨hrate, hfreq, hphases, hcarrier⟩, hv⟩ => by
    obtain ⟨_, _, _, _, hframe⟩ := waveStage_frame P w s
    rw [hframe]
    exact ⟨⟨hrate, hfreq, { hphases with }, hcarrier⟩, hv⟩
  effect e s := fun ⟨h, hv⟩ => ⟨effectStage_phaseRegs hP h hv e, by
    obtain ⟨_, _, _, _, _, _, _, _, hframe⟩ := effectStage_frame P e s
    rw [hframe]
    exact hv⟩
  filter f s := fun ⟨h, hv⟩ => ⟨filterStage_phaseRegs hP h hv hsine f, by
    obtain ⟨_, _, _, _, _, _, _, _, _, hframe⟩ := filterStage_frame P f s
    rw [hframe]
    exact hv⟩
  phases g s := fun ⟨⟨hrate, hfreq, hphases, hcarrier⟩, hv⟩ =>
    ⟨⟨hrate, hfreq, { hphases with bank := phaseAdvance_inUnit hP (hrate.fs_within hP hv) hfreq g hphases.bank }, hcarrier⟩, hv⟩

/-! ### The step -/

theorem phaseInvOf_bare {carrier : Prop} (s : State) : s.PhaseInvOf carrier P ↔ s.bare.PhaseInvOf carrier P :=
  ⟨fun ⟨⟨hrate, hfreq, hphases, hcarrier⟩, howed⟩ => ⟨⟨hrate, hfreq, hphases, hcarrier⟩, howed⟩,
    fun ⟨⟨hrate, hfreq, hphases, hcarrier⟩, howed⟩ => ⟨⟨hrate, hfreq, hphases, hcarrier⟩, howed⟩⟩

theorem Change.phaseInvOf {carrier : Prop} (hP : P.AtDefaults) (hpow : P.trig.PowInRange) (hsine : carrier → P.trig.SineInRange) {s t : State}
    (hs : s.PhaseInvOf carrier P) (h : Change P s t) : t.PhaseInvOf carrier P := by
  have hstable := phaseRegs_tickStable hP hsine
  obtain ⟨⟨hrate, hfreq, hphases, hcarrier⟩, howed⟩ := id hs
  have hbank (hh : s.handed ≠ none) : ({ s with handed := none } : State).PhaseRegs carrier P ∧ s.rateValid = true :=
    ⟨⟨hrate, hfreq, hphases, hcarrier⟩, howed (.inr hh)⟩
  cases h with
  | kept => exact hs
  | wave w hh => exact (hstable.wave w _ (hbank hh)).imp_right fun hv _ => hv
  | effect e hh => exact (hstable.effect e _ (hbank hh)).imp_right fun hv _ => hv
  | filter f hh => exact (hstable.filter f _ (hbank hh)).imp_right fun hv _ => hv
  | silence => exact ⟨voiceReset_phaseRegs carrier hrate, howed⟩
  | note n data =>
    exact ⟨⟨hrate, noteFrequency_within hP hpow n, { silentWith_phasesInUnit (Memory.invalidate s.voice.dl) with }, fun _ => zero_inUnit⟩, howed⟩
  | release _ => exact ⟨⟨hrate, hfreq, { hphases with }, hcarrier⟩, howed⟩
  | rate data hgood _ => exact ⟨voiceReset_phaseRegs carrier (withRate_rateInv hP hgood s), fun _ => rfl⟩
  | ticks m hgo => exact (hstable.renderTicks m ⟨hs.1, hgo.elim id fun hleft => howed (.inl hleft)⟩).imp_right fun hv _ => hv
  | powerOn hh => exact of_bare_eq phaseInvOf_bare (bare_powerOn hh).symm (reset_phaseInvOf carrier)

theorem stepWith_phaseInvOf {carrier : Prop} (hP : P.AtDefaults) (hpow : P.trig.PowInRange) (hsine : carrier → P.trig.SineInRange) {s t : State}
    (hs : s.PhaseInvOf carrier P) (h : stepWith P s = .next t) : t.PhaseInvOf carrier P :=
  stepWith_keeps phaseInvOf_bare (fun _ _ => Change.phaseInvOf hP hpow hsine) hs h

end Sys2Proof.Machine

namespace Sys2Proof.Proofs

open Sys2Proof.Machine

/-- Settles O51: `RMF_PH` left aside, the bounds rest on the power being rounded, whatever the sine, cosine and tangent are. -/
theorem lfoInvariant : Obligations.LfoInvariant := by
  unfold Obligations.LfoInvariant
  intro s t hs h
  rw [step_eq_stepWith] at h
  have hinv : s.PhaseInvOf False params := State.phaseInvOf_iff.mpr ⟨hs, False.elim⟩
  exact (State.phaseInvOf_iff.mp (stepWith_phaseInvOf params_atDefaults powInRange_freeTrig False.elim hinv h)).1

/-- Settles O60: the ten phases by the advance alone; `RMF_PH` too, as with a sine in range no sweep takes its cutoff past 2 to the 40. -/
theorem phasesStayInUnit : Obligations.PhasesStayInUnit := by
  unfold Obligations.PhasesStayInUnit
  constructor
  · intro s grainReset hrate hv hlow hhigh hphases
    exact phaseAdvance_inUnit params_atDefaults (hrate.fs_within params_atDefaults hv) (freq_within_iff.mpr ⟨hlow, hhigh⟩) grainReset hphases
  · intro T nonFinite nanBits ctlTurn hT P s t hs h
    have hinv : s.PhaseInvOf True P := State.phaseInvOf_iff.mpr ⟨hs.1, fun _ => hs.2⟩
    obtain ⟨hphase, hcarrier⟩ :=
      State.phaseInvOf_iff.mp (stepWith_phaseInvOf ⟨T, nonFinite, nanBits, ctlTurn, rfl⟩ hT.powInRange (fun _ => hT.1) hinv h)
    exact ⟨hphase, hcarrier trivial⟩

end Sys2Proof.Proofs

end

section
/-!
PROOFS. Every NUM register a binary64 value (R11, R30): what a part of a tick or a command writes into a register or onto a wire is the result of an
operation, and a result is rounded.
-/

namespace Sys2Proof.Machine

variable {P : Params}

/-! ### The registers -/

/-- Each NUM register of the voice holds a binary64 value. -/
structure Voice.Binary64 (v : Voice) : Prop where
  vel : v.vel.wf = true
  freq : v.freq.wf = true
  env : v.env.wf = true
  ph : v.ph.wf = true
  phSub : v.phSub.wf = true
  phFm : v.phFm.wf = true
  phSs : ∀ x ∈ v.phSs.nums, x.wf = true
  pink : v.pink.wf = true
  wobPh : v.wobPh.wf = true
  harmPh : v.harmPh.wf = true
  ringPh : v.ringPh.wf = true
  grainPh : v.grainPh.wf = true
  sweepLp : v.sweepLp.wf = true
  lad : ∀ x ∈ v.lad.nums, x.wf = true
  phs : ∀ x ∈ v.phs.nums, x.wf = true
  flfoPh : v.flfoPh.wf = true
  fmt : ∀ x ∈ v.fmt.nums, x.wf = true
  rmfPh : v.rmfPh.wf = true
  rmfLp : v.rmfLp.wf = true
  dl : ∀ c ∈ v.dl, c.value.wf = true

theorem Voice.binary64_iff {v : Voice} : v.Binary64 ↔ ∀ x ∈ v.nums, x.wf = true := by
  simp only [Voice.nums, List.forall_mem_append, List.forall_mem_cons, List.forall_mem_map, List.not_mem_nil, false_implies, implies_true, and_true]
  constructor
  · intro h
    exact ⟨⟨⟨⟨⟨⟨h.vel, h.freq, h.env, h.ph, h.phSub, h.phFm, h.pink, h.wobPh, h.harmPh, h.ringPh, h.grainPh, h.sweepLp, h.flfoPh, h.rmfPh,
      h.rmfLp⟩, h.phSs⟩, h.lad⟩, h.phs⟩, h.fmt⟩, h.dl⟩
  · rintro ⟨⟨⟨⟨⟨⟨vel, freq, env, ph, phSub, phFm, pink, wobPh, harmPh, ringPh, grainPh, sweepLp, flfoPh, rmfPh, rmfLp⟩,
      phSs⟩, lad⟩, phs⟩, fmt⟩, dl⟩
    exact { vel, freq, env, ph, phSub, phFm, phSs, pink, wobPh, harmPh, ringPh, grainPh, sweepLp, lad, phs, flfoPh, fmt, rmfPh, rmfLp, dl }

/-- The same of the registers and the wires of the machine. -/
structure State.NumRegs (s : State) : Prop where
  voice : s.voice.Binary64
  fs : s.fs.wf = true
  x0 : s.wires.x0.wf = true
  x1 : s.wires.x1.wf = true
  x2 : s.wires.x2.wf = true

theorem State.binary64_iff {s : State} : s.Binary64 ↔ s.NumRegs := by
  rw [State.Binary64, List.forall_mem_append, ← Voice.binary64_iff]
  simp only [List.forall_mem_cons, List.not_mem_nil, false_implies, implies_true, and_true]
  exact ⟨fun ⟨voice, fs, x0, x1, x2⟩ => { voice, fs, x0, x1, x2 }, fun h => ⟨h.voice, h.fs, h.x0, h.x1, h.x2⟩⟩

theorem Four.nums_wf {a b c d : NUM} (ha : a.wf = true) (hb : b.wf = true) (hc : c.wf = true) (hd : d.wf = true) :
    ∀ x ∈ (⟨a, b, c, d⟩ : Four).nums, x.wf = true := by simp [Four.nums, ha, hb, hc, hd]

theorem silentWith_binary64 {dl : Memory} (h : ∀ c ∈ dl, c.value.wf = true) : (Voice.silentWith dl).Binary64 := by
  constructor
  case dl => exact h
  all_goals simp [Voice.silentWith, Seven.nums, Four.nums, NUM.wf_zero]

theorem Memory.invalidate_binary64 {m : Memory} (h : ∀ c ∈ m, c.value.wf = true) : ∀ c ∈ Memory.invalidate m, c.value.wf = true := by
  intro c hc
  obtain ⟨a, ha, rfl⟩ := List.mem_map.mp hc
  exact h a ha

theorem Memory.write_binary64 {m : Memory} {v : NUM} (hv : v.wf = true) (i : Nat) (h : ∀ c ∈ m, c.value.wf = true) :
    ∀ c ∈ Memory.write i v m, c.value.wf = true := by
  intro c hc
  obtain rfl | hc := Memory.mem_write hc
  exacts [hv, h c hc]

theorem voiceReset_binary64 {s : State} (h : s.voice.Binary64) : s.voiceReset.voice.Binary64 := silentWith_binary64 (Memory.invalidate_binary64 h.dl)

theorem reset_numRegs : State.reset.NumRegs := ⟨silentWith_binary64 (by simp), NUM.wf_zero, NUM.wf_zero, NUM.wf_zero, NUM.wf_zero⟩

/-! ### The stages -/

/-- The values of the sine and the tangent are binary64 values (R12). -/
def Trig.Binary64 (T : Trig) : Prop := (∀ x, (T.sin x).wf = true) ∧ ∀ x, (T.tan x).wf = true

theorem freeTrig_binary64 : freeTrig.Binary64 := ⟨fun _ => NUM.ofBits64_wf _, fun _ => NUM.ofBits64_wf _⟩

theorem pulse_wf (duty p : NUM) : (pulse binary64 duty p).wf = true := by
  rw [pulse]
  split
  exacts [NUM.wf_one, NUM.neg_wf NUM.wf_one]

/-- A noise wave writes the generator, the crackle timer and `PINK`. -/
theorem State.NumRegs.afterNoise {s : State} (h : s.NumRegs) (prng : BitVec 32) (crackleT : Nat) {pink x : NUM} (hpink : pink.wf = true)
    (hx : x.wf = true) : ((s.setVoice { s.voice with prng := prng, pink := pink, crackleT := crackleT }).setX0 x).NumRegs :=
  { h with voice := { h.voice with pink := hpink }, x0 := hx }

theorem ramp_wf (p : NUM) : (ramp binary64 p).wf = true := NUM.sub_wf _ _

section

variable (hP : P.AtDefaults)

include hP

theorem envelopeStep_binary64 (fs : NUM) {v : Voice} (h : v.Binary64) : (envelopeStep P fs v).Binary64 := by
  obtain ⟨T, z, b, c, rfl⟩ := hP
  rw [envelopeStep]
  split
  · exact { h with env := NUM.min_wf NUM.wf_one (NUM.add_wf _ _) }
  · dsimp only
    split <;> exact { h with env := NUM.max_wf NUM.wf_zero (NUM.sub_wf _ _) }
  · exact { h with env := NUM.max_wf NUM.wf_zero (NUM.sub_wf _ _) }

theorem phaseAdvance_binary64 (fs : NUM) (grainReset : Bool) {v : Voice} (h : v.Binary64) : (phaseAdvance P fs grainReset v).Binary64 := by
  obtain ⟨T, z, b, c, rfl⟩ := hP
  refine { h with ph := ?ph, phSub := NUM.wrap_wf _, phFm := NUM.wrap_wf _, phSs := ?phSs }
  case ph =>
    cases grainReset
    exacts [NUM.wrap_wf _, NUM.wf_zero]
  case phSs =>
    simp only [phaseAdvance, Seven.nums, List.forall_mem_cons, List.not_mem_nil, false_implies, implies_true, and_true]
    exact ⟨NUM.wrap_wf _, NUM.wrap_wf _, NUM.wrap_wf _, NUM.wrap_wf _, NUM.wrap_wf _, NUM.wrap_wf _, NUM.wrap_wf _⟩

variable (hT : P.trig.Binary64) {s : State} (h : s.NumRegs)

include hT h

theorem waveStage_numRegs (w : Wave) : (waveStage P w s).NumRegs := by
  obtain ⟨T, z, b, c, rfl⟩ := hP
  cases w
  case sine | fm => exact { h with x0 := hT.1 _ }
  case square | pulse25 | pulse75 => exact { h with x0 := pulse_wf _ _ }
  case saw | triangle => exact { h with x0 := ramp_wf _ }
  case white => exact h.afterNoise _ s.voice.crackleT h.voice.pink (ramp_wf _)
  case pink => exact h.afterNoise _ s.voice.crackleT (NUM.add_wf _ _) (NUM.add_wf _ _)
  case supersaw => exact { h with x0 := NUM.div_wf _ _ }
  case sub => exact { h with x0 := NUM.add_wf _ _ }
  case crackle =>
    rw [waveStage, waveCrackle]
    split
    · exact h.afterNoise s.voice.prng _ h.voice.pink NUM.wf_zero
    · exact h.afterNoise _ _ h.voice.pink (NUM.mul_wf _ _)

theorem effectStage_numRegs (e : Effect) : (effectStage P e s).NumRegs := by
  obtain ⟨T, z, b, c, rfl⟩ := hP
  cases e
  case wobbler => exact { h with voice := { h.voice with wobPh := NUM.wrap_wf _ }, x1 := NUM.mul_wf _ _ }
  case glitcher =>
    rw [effectStage, effectGlitcher]
    split
    · refine { h with voice := { h.voice with }, x1 := ?_ }
      dsimp only [State.setX1, State.setWires, glitchSample]
      split
      exacts [NUM.mul_wf _ _, h.x0]
    · exact { h with voice := { h.voice with }, x1 := h.x0 }
  case harmonizer => exact { h with voice := { h.voice with harmPh := NUM.wrap_wf _ }, x1 := NUM.add_wf _ _ }
  case reverser => exact { h with x1 := NUM.mul_wf _ _ }
  case bitcrusher => exact { h with x1 := NUM.div_wf _ _ }
  case ringmod => exact { h with voice := { h.voice with ringPh := NUM.wrap_wf _ }, x1 := NUM.mul_wf _ _ }
  case granular =>
    rw [effectStage, effectGranular]
    split
    · exact { h with voice := { h.voice with grainPh := NUM.sub_wf _ _ }, x1 := NUM.mul_wf _ _ }
    · exact { h with voice := { h.voice with grainPh := NUM.add_wf _ _ }, x1 := NUM.mul_wf _ _ }
  case filtersweep => exact { h with voice := { h.voice with sweepLp := NUM.add_wf _ _, wobPh := NUM.wrap_wf _ }, x1 := NUM.add_wf _ _ }

theorem filterStage_numRegs (f : Filter) : (filterStage P f s).NumRegs := by
  obtain ⟨T, z, b, c, rfl⟩ := hP
  have hfour {a b c d e f g h : NUM} : ∀ x ∈ (⟨a.add b, c.add d, e.add f, g.add h⟩ : Four).nums, x.wf = true :=
    Four.nums_wf (NUM.add_wf _ _) (NUM.add_wf _ _) (NUM.add_wf _ _) (NUM.add_wf _ _)
  cases f
  case ladderLp => exact { h with voice := { h.voice with lad := hfour }, x2 := NUM.add_wf _ _ }
  case ladderHp | ladderBp | notch => exact { h with voice := { h.voice with lad := hfour }, x2 := NUM.sub_wf _ _ }
  case comb =>
    exact { h with voice := { h.voice with dl := Memory.write_binary64 (NUM.add_wf _ _) _ h.voice.dl }, x2 := NUM.add_wf _ _ }
  case vowelA | vowelE | vowelI | vowelO | vowelU => exact { h with voice := { h.voice with fmt := hfour }, x2 := NUM.add_wf _ _ }
  case phaser =>
    exact { h with
      voice := { h.voice with
        flfoPh := NUM.wrap_wf _
        phs := Four.nums_wf (NUM.sub_wf _ _) (NUM.sub_wf _ _) (NUM.sub_wf _ _) (NUM.sub_wf _ _) }
      x2 := NUM.add_wf _ _ }
  case ringmod =>
    exact { h with
      voice := { h.voice with rmfLp := NUM.add_wf _ _, rmfPh := NUM.wrap_wf _, flfoPh := NUM.wrap_wf _ }
      x2 := NUM.add_wf _ _ }

end

theorem numRegs_tickStable (hP : P.AtDefaults) (hT : P.trig.Binary64) : TickStable P State.NumRegs where
  bare _ := ⟨fun h => { h with }, fun h => { h with }⟩
  owed _ _ h := { h with }
  idle _ h := { h with x0 := NUM.wf_zero, x1 := NUM.wf_zero, x2 := NUM.wf_zero }
  envelope _ h := { h with voice := envelopeStep_binary64 hP _ h.voice }
  wave w _ h := waveStage_numRegs hP hT h w
  effect e _ h := effectStage_numRegs hP hT h e
  filter f _ h := filterStage_numRegs hP hT h f
  phases g _ h := { h with voice := phaseAdvance_binary64 hP _ g h.voice }

/-! ### The step -/

theorem captureNote_binary64 (hP : P.AtDefaults) (n : Fin 128) (data : Word) {v : Voice} (h : v.Binary64) : (captureNote P n data v).Binary64 := by
  obtain ⟨T, z, b, c, rfl⟩ := hP
  exact { h with vel := NUM.clamp_wf (NUM.ofBits32_wf data) NUM.wf_zero NUM.wf_one, freq := NUM.mul_wf _ _ }

theorem Change.numRegs (hP : P.AtDefaults) (hT : P.trig.Binary64) {s t : State} (hs : s.NumRegs) (h : Change P s t) : t.NumRegs := by
  have hstable := numRegs_tickStable hP hT
  have hbank : ({ s with handed := none } : State).NumRegs := { hs with }
  have hreset := voiceReset_binary64 hs.voice
  cases h with
  | kept => exact hs
  | wave w _ => exact hstable.wave w _ hbank
  | effect e _ => exact hstable.effect e _ hbank
  | filter f _ => exact hstable.filter f _ hbank
  | silence => exact { hs with voice := hreset }
  | note n data => exact { hs with voice := captureNote_binary64 hP n data hreset }
  | release _ => exact { hs with voice := { hs.voice with } }
  | rate data _ _ =>
    obtain ⟨T, z, b, c, rfl⟩ := hP
    exact { hs with voice := hreset, fs := NUM.ofBits32_wf data }
  | ticks m _ => exact hstable.renderTicks m hs
  | powerOn hh => exact of_bare_eq hstable.bare (bare_powerOn hh).symm reset_numRegs

end Sys2Proof.Machine

namespace Sys2Proof.Proofs

open Sys2Proof.Machine

/-- Settles O47: `FS`, the wires and every NUM of the voice are 0, the delay line is empty, and there is no rate. -/
theorem resetMeetsInvariants : Obligations.ResetMeetsInvariants :=
  ⟨reset_voiceInv, reset_delayInv, reset_counterInv, (State.phaseInvOf_iff.mp (reset_phaseInvOf True)).imp_right fun h => h trivial,
    State.binary64_iff.mpr reset_numRegs, ⟨rfl, rfl⟩⟩

/-- Settles O52: whatever is written is the result of an operation, or a value that was there. -/
theorem binary64Invariant : Obligations.Binary64Invariant := by
  unfold Obligations.Binary64Invariant
  intro s t hs h
  rw [step_eq_stepWith] at h
  have hstable := numRegs_tickStable params_atDefaults freeTrig_binary64
  exact State.binary64_iff.mpr
    (stepWith_keeps hstable.bare (fun _ _ => Change.numRegs params_atDefaults freeTrig_binary64) (State.binary64_iff.mp hs) h)

end Sys2Proof.Proofs
end

section
/-!
PROOFS. The same note from any two states (R301). Two states that differ only in what a tick does not hear stay so over each part of a tick, and hand on
the same values: of the delay line a tick hears what a read gives, and of the wires what a stage before it has written.
-/

namespace Sys2Proof.Machine

variable {P : Params} {s t : State}

/-! ### What a tick hears -/

/-- `t` with all a tick hears taken from `s`, but for the delay line and the wires. -/
def State.over (s t : State) : State :=
  { t with voice := { s.voice with dl := t.voice.dl }, fs := s.fs, dlLen := s.dlLen, gp := s.gp, knobSnap := s.knobSnap }

theorem State.over_eq (hvoice : { s.voice with dl := t.voice.dl } = t.voice) (hfs : s.fs = t.fs) (hlen : s.dlLen = t.dlLen) (hgp : s.gp = t.gp)
    (hknob : s.knobSnap = t.knobSnap) : s.over t = t := by rw [State.over, hvoice, hfs, hlen, hgp, hknob]

/-- A tick hears the same of both states: the registers agree but for the delay line, and every read of that gives the same. -/
structure SoundsAlike (s t : State) : Prop where
  same : s.over t = t
  line : ∀ i, Memory.read i t.voice.dl = Memory.read i s.voice.dl

/-! ### The parts of a tick -/

theorem envelopeStep_withLine (fs : NUM) (v : Voice) (dl : Memory) :
    envelopeStep P fs { v with dl := dl } = { envelopeStep P fs v with dl := dl } := by
  cases h : v.vstate <;> simp only [envelopeStep, h]
  case releasing => split <;> rfl

theorem SoundsAlike.envelope (h : SoundsAlike s t) :
    SoundsAlike (s.setVoice (envelopeStep P s.fs s.voice)) (t.setVoice (envelopeStep P t.fs t.voice)) := by
  obtain ⟨hsame, hline⟩ := h
  rw [← hsame]
  change SoundsAlike _ ((s.over t).setVoice (envelopeStep P s.fs { s.voice with dl := t.voice.dl }))
  rw [envelopeStep_withLine s.fs s.voice t.voice.dl]
  refine ⟨rfl, fun i => ?_⟩
  rw [envelopeStep_eq]
  exact hline i

theorem SoundsAlike.wave (h : SoundsAlike s t) (w : Wave) :
    SoundsAlike (waveStage P w s) (waveStage P w t) ∧ (waveStage P w s).wires.x0 = (waveStage P w t).wires.x0 := by
  obtain ⟨hsame, hline⟩ := h
  rw [← hsame]
  cases w
  case crackle =>
    rw [waveStage, waveStage]
    rcases Nat.eq_zero_or_pos s.voice.crackleT with h | h
    · rw [waveCrackle_impulse P s h, waveCrackle_impulse P (s.over t) h]
      exact ⟨⟨rfl, hline⟩, rfl⟩
    · rw [waveCrackle_running P s h, waveCrackle_running P (s.over t) h]
      exact ⟨⟨rfl, hline⟩, rfl⟩
  all_goals exact ⟨⟨rfl, hline⟩, rfl⟩

theorem SoundsAlike.effect (h : SoundsAlike s t) (hx0 : s.wires.x0 = t.wires.x0) (e : Effect) :
    SoundsAlike (effectStage P e s) (effectStage P e t) ∧ (effectStage P e s).wires.x1 = (effectStage P e t).wires.x1 ∧
      (effectStage P e s).wires.grainReset = (effectStage P e t).wires.grainReset := by
  obtain ⟨hsame, hline⟩ := h
  have ht : (s.over t).setX0 s.wires.x0 = t := by rw [hsame, hx0]; rfl
  rw [← ht]
  cases e
  case glitcher =>
    rw [effectStage, effectStage]
    rcases Nat.lt_or_ge (s.voice.glitchCnt + 1) s.gp with h | h
    · rw [effectGlitcher_counting P (s.setWires _), effectGlitcher_counting P (((s.over t).setX0 _).setWires _)]
      exacts [⟨⟨rfl, hline⟩, rfl, rfl⟩, h, h]
    · rw [effectGlitcher_evaluating P (s.setWires _), effectGlitcher_evaluating P (((s.over t).setX0 _).setWires _)]
      exacts [⟨⟨rfl, hline⟩, rfl, rfl⟩, h, h]
  case granular =>
    rw [effectStage, effectStage, effectGranular_eq, effectGranular_eq]
    exact ⟨⟨rfl, hline⟩, rfl, rfl⟩
  all_goals exact ⟨⟨rfl, hline⟩, rfl, rfl⟩

theorem Memory.read_write_congr {l m : Memory} (h : ∀ i, Memory.read i l = Memory.read i m) (k : Nat) (x : NUM) (i : Nat) :
    Memory.read i (Memory.write k x l) = Memory.read i (Memory.write k x m) := by
  by_cases hi : i = k
  · rw [hi, (Memory.read_write_same k x l).1, (Memory.read_write_same k x m).1]
  · rw [(Memory.read_write_other hi x l).1, (Memory.read_write_other hi x m).1, h i]

theorem SoundsAlike.filter (h : SoundsAlike s t) (hx1 : s.wires.x1 = t.wires.x1) (f : Filter) :
    SoundsAlike (filterStage P f s) (filterStage P f t) ∧ (filterStage P f s).wires.x2 = (filterStage P f t).wires.x2 := by
  obtain ⟨hsame, hline⟩ := h
  have ht : (s.over t).setX1 s.wires.x1 = t := by rw [hsame, hx1]; rfl
  rw [← ht]
  cases f
  case comb =>
    have hx2 : (filterComb P s).wires.x2 = (filterComb P ((s.over t).setX1 s.wires.x1)).wires.x2 :=
      congrArg (fun d => P.num.add s.wires.x1 (P.num.mul (filterRes P.num (s.variant P).resonance) d)) (hline (combReadIndex P s)).symm
    refine ⟨⟨rfl, fun i => ?_⟩, hx2⟩
    change Memory.read i (Memory.write s.voice.dlW (filterComb P ((s.over t).setX1 s.wires.x1)).wires.x2 t.voice.dl) = _
    rw [← hx2]
    exact Memory.read_write_congr hline _ _ i
  all_goals exact ⟨⟨rfl, hline⟩, rfl⟩

theorem filterStage_grainReset (P : Params) (f : Filter) (s : State) : (filterStage P f s).wires.grainReset = s.wires.grainReset := by
  obtain ⟨_, _, _, _, _, _, _, _, _, h⟩ := filterStage_frame P f s
  rw [h]

theorem SoundsAlike.banks (h : SoundsAlike s t) :
    SoundsAlike (bankStages P s) (bankStages P t) ∧ (bankStages P s).wires.x2 = (bankStages P t).wires.x2 ∧
      (bankStages P s).wires.grainReset = (bankStages P t).wires.grainReset := by
  have hprofile : s.profile P = t.profile P := by rw [← h.same]; rfl
  rw [bankStages, bankStages, ← hprofile]
  obtain ⟨hwave, hx0⟩ := h.wave (P := P) (s.profile P).wave
  obtain ⟨heffect, hx1, hreset⟩ := hwave.effect (P := P) hx0 (s.profile P).effect
  obtain ⟨hfilter, hx2⟩ := heffect.filter (P := P) hx1 (s.profile P).filter
  refine ⟨hfilter, hx2, ?_⟩
  rw [filterStage_grainReset, filterStage_grainReset, hreset]

/-! ### The words -/

/-- The same word, or a NaN of either sign and any payload (R84). -/
def WordsAgree (w u : Word) : Prop := w = u ∨ (NUM.ofBits32 w = .nan ∧ NUM.ofBits32 u = .nan)

theorem bits32_agree (free free' : BitVec 24) (v : NUM) : WordsAgree (NUM.bits32 free v) (NUM.bits32 free' v) := by
  by_cases h : v = .nan
  · rw [h]
    exact .inr ⟨NUM.ofBits32_bits32_nan free, NUM.ofBits32_bits32_nan free'⟩
  · rw [NUM.bits32_of_ne_nan h free, NUM.bits32_of_ne_nan h free']
    exact .inl rfl

theorem SoundsAlike.soundTick (hP : P.num = binary64) (h : SoundsAlike s t) :
    SoundsAlike (soundTick P s) (soundTick P t) ∧
      ∃ w u, (soundTick P s).out = s.out.push w ∧ (soundTick P t).out = t.out.push u ∧ WordsAgree w u := by
  obtain ⟨⟨hsame, hline⟩, hx2, hreset⟩ := h.banks (P := P)
  have hsample : tickSample P s = tickSample P t := by
    rw [tickSample, tickSample, hx2, ← hsame]
    rfl
  have hfs : s.fs = t.fs := by rw [← h.same]; rfl
  obtain ⟨_, hs⟩ := soundTick_eq P s
  obtain ⟨_, ht⟩ := soundTick_eq P t
  rw [hs, ht]
  refine ⟨⟨?same, hline⟩, _, _, rfl, rfl, ?words⟩
  case same =>
    rw [← hreset, ← hfs, ← hsame]
    rfl
  case words =>
    rw [hP, hsample]
    exact bits32_agree _ _ _

/-- Each tick appends a word on both sides, and the two agree. -/
theorem SoundsAlike.tick (hP : P.num = binary64) (h : SoundsAlike s t) :
    SoundsAlike (tick P s) (tick P t) ∧
      ∃ w u, (Machine.tick P s).out = s.out.push w ∧ (Machine.tick P t).out = t.out.push u ∧ WordsAgree w u := by
  have henv := h.envelope (P := P)
  have hstate : (envelopeStep P s.fs s.voice).vstate = (envelopeStep P t.fs t.voice).vstate :=
    congrArg (fun u : State => u.voice.vstate) henv.same
  by_cases hsilent : (envelopeStep P s.fs s.voice).vstate = .silent
  · rw [tick_of_silent hsilent, tick_of_silent (hstate ▸ hsilent)]
    exact ⟨⟨congrArg (State.emit 0) henv.same, henv.line⟩, 0, 0, rfl, rfl, .inl rfl⟩
  · rw [tick_of_not_silent hsilent, tick_of_not_silent (hstate ▸ hsilent)]
    exact henv.soundTick hP

theorem SoundsAlike.ticks (hP : P.num = binary64) (m : Nat) (h : SoundsAlike s t) :
    ∃ ws us, ((Machine.tick P)^[m] s).out.words = s.out.words ++ ws ∧ ((Machine.tick P)^[m] t).out.words = t.out.words ++ us ∧
      ws.length = m ∧ List.Forall₂ WordsAgree ws us := by
  induction m generalizing s t with
  | zero => exact ⟨[], [], (List.append_nil _).symm, (List.append_nil _).symm, rfl, .nil⟩
  | succ m ih =>
    obtain ⟨halike, w, u, hw, hu, hagree⟩ := h.tick hP
    obtain ⟨ws, us, hws, hus, hlength, hall⟩ := ih halike
    refine ⟨w :: ws, u :: us, ?_, ?_, congrArg (· + 1) hlength, .cons hagree hall⟩
    · rw [Function.iterate_succ_apply, hws, hw]
      exact List.append_assoc ..
    · rw [Function.iterate_succ_apply, hus, hu]
      exact List.append_assoc ..

/-! ### The note -/

theorem render_of_unbounded (m : Nat) (hv : s.rateValid = true) (hd : s.out.depth = none) :
    (render P m s).out = ((tick P)^[m] { s with knobSnap := s.knob }).out := by
  rw [render_of_rate P m hv, renderTicks_unbounded P m { s with knobSnap := s.knob } hd]

/-- After a NOTE_ON the voice is that of the note, or a silent one, and every read of the delay line gives 0 (R88, R299). -/
theorem noteOn_soundsAlike (n : Nat) (v : Word) (hfs : s.fs = t.fs) (hlen : s.dlLen = t.dlLen) (hgp : s.gp = t.gp) (hknob : s.knob = t.knob) :
    SoundsAlike { noteOn P n v s with knobSnap := (noteOn P n v s).knob } { noteOn P n v t with knobSnap := (noteOn P n v t).knob } := by
  have hline (i : Nat) : Memory.read i (Memory.invalidate t.voice.dl) = Memory.read i (Memory.invalidate s.voice.dl) :=
    (Memory.read_invalidate i _).1.trans (Memory.read_invalidate i _).1.symm
  rcases Nat.lt_or_ge n 128 with hn | hn
  · rw [noteOn_of_lt P hn, noteOn_of_lt P hn]
    exact ⟨State.over_eq rfl hfs hlen hgp hknob, hline⟩
  · rw [noteOn_of_le P hn, noteOn_of_le P hn]
    exact ⟨State.over_eq rfl hfs hlen hgp hknob, hline⟩

theorem noteOn_out (n : Nat) (v : Word) (s : State) : (noteOn P n v s).out = s.out := by
  rcases Nat.lt_or_ge n 128 with hn | hn
  · rw [noteOn_of_lt P hn]; rfl
  · rw [noteOn_of_le P hn]; rfl

theorem noteOn_rateValid (n : Nat) (v : Word) (s : State) : (noteOn P n v s).rateValid = s.rateValid := by
  rcases Nat.lt_or_ge n 128 with hn | hn
  · rw [noteOn_of_lt P hn]; rfl
  · rw [noteOn_of_le P hn]; rfl

end Sys2Proof.Machine

namespace Sys2Proof.Proofs

open Sys2Proof.Machine

/-- Settles O53: a NOTE_ON leaves two states that differ only in what no tick hears, and every tick keeps them so. -/
theorem retriggerDeterminism : Obligations.RetriggerDeterminism := by
  unfold Obligations.RetriggerDeterminism
  intro s t n m v hs ht hsv htv hfs hknob hsd htd
  obtain ⟨-, -, hslen, hsgp⟩ := State.RateInvWith.of_valid hs hsv
  obtain ⟨-, -, htlen, htgp⟩ := State.RateInvWith.of_valid ht htv
  have halike := noteOn_soundsAlike (P := params) n v hfs (hslen.trans (hfs ▸ htlen.symm)) (hsgp.trans (hfs ▸ htgp.symm)) hknob
  obtain ⟨ws, us, hws, hus, hlength, hall⟩ := halike.ticks (P := params) rfl m
  have hrender (u : State) (hv : u.rateValid = true) (hd : u.out.depth = none) := render_of_unbounded (P := params) (s := noteOn params n v u) m
    ((noteOn_rateValid n v u).trans hv) ((congrArg Stream.depth (noteOn_out n v u)).trans hd)
  refine ⟨_, _, _, _, ws, us, rfl, rfl, rfl, rfl, ?_, ?_, hlength, hall.length_eq.symm.trans hlength, fun p hp => ?_⟩
  · rw [hrender s hsv hsd, hws, noteOn_out]
  · rw [hrender t htv htd, hus, noteOn_out]
  · exact (List.forall₂_iff_zip.mp hall).2 hp

end Sys2Proof.Proofs
end
